-- ==== Sys2Proof/Word.lean ====
section
/-! DEFINITION. The words the block moves: stream bytes, Half patterns, 32-bit words, points (R9, R11, R13, R58, R60). -/

namespace Sys2Proof

/-- One byte of the byte stream, or one Quarter pattern (R51, R70). -/
abbrev Byte := BitVec 8

/-- One Half pattern (R71), or the 16-bit immediate of a header (R84). -/
abbrev Half := BitVec 16

/-- A 32-bit word: a command word, a CSR value, or an f32 bit pattern (R11, R58). -/
abbrev Word := BitVec 32

/-- A point: three f32 bit patterns, always processed in the order x, y, z (R13). -/
structure Point where
  x : Word
  y : Word
  z : Word
  deriving DecidableEq, Repr

end Sys2Proof
end

