-- ==== Sys2Proof/Config.lean ====
section
/-! DEFINITION. What the realisation of this spec fixes: the two narrow formats (R6) and the parameters of R7 at the
spec's defaults, which the CONFIG register reports (R33). Log entries 5 and 7. -/

namespace Sys2Proof

/-- A narrow floating-point format (R6): `E` exponent bits, `M` mantissa bits, and the mantissa of the NaN that
`FromFloat` produces (`NAN_MANT_F`, R7, R107). -/
structure Format where
  E : Nat
  M : Nat
  nanMant : Nat
  deriving DecidableEq, Repr

/-- How a denormal result is rounded (R7, R104, R105). -/
inductive DenormMode where
  /-- round at the normal cut, then truncate: the default, R104 -/
  | truncateAfterRound
  /-- round half up at the position the denormal result keeps, R105 -/
  | roundAtDenormalCut
  deriving DecidableEq, Repr

/-- The depths of the two bounded output streams of a realisation; `none` is unbounded (R7, R66). -/
structure Depths where
  obs : Option Nat
  ops : Option Nat
  deriving DecidableEq, Repr

/-- The Quarter format: 1 sign, 2 exponent and 5 mantissa bits, `NAN_MANT_Q = 0x10` (R6, R7, R70). -/
def Config.quarter : Format := ⟨2, 5, 0x10⟩

/-- The Half format: 1 sign, 4 exponent and 11 mantissa bits, `NAN_MANT_H = 0x400` (R6, R7, R71). -/
def Config.half : Format := ⟨4, 11, 0x400⟩

/-- `DENORM_MODE` of this realisation: `CONFIG[20] = 0` (R33, R105). -/
def Config.denormMode : DenormMode := .truncateAfterRound

/-- `OBS_DEPTH` and `OPS_DEPTH`: unbounded in the model (R7, R66). -/
def Config.depths : Depths := ⟨none, none⟩

/-- The identification word `ID`, ASCII "NFC1" from bit 31 down (R33). -/
def Config.idWord : Word := 0x4E464331#32

end Sys2Proof
end

