-- ==== Sys2Proof/Syntax.lean ====
section
/-! DEFINITION. The commands of the block: one constructor of `Instr` for each row of the opcode map (R88), with each
operand at its exact width (R85, R86), and the names of the 17 opcodes. -/

namespace Sys2Proof

/-- A command with its operands (R88). Every term is a legal command: the widths are in the types. -/
inductive Instr where
  /-- `Q_FROM_F32 A` (R120) -/
  | qFromF32 (a : Word)
  /-- `H_FROM_F32 A` (R121) -/
  | hFromF32 (a : Word)
  /-- `Q_TO_F32 q` (R122) -/
  | qToF32 (q : Byte)
  /-- `H_TO_F32 h` (R123) -/
  | hToF32 (h : Half)
  /-- `Q_CLASS q` (R138) -/
  | qClass (q : Byte)
  /-- `H_CLASS h` (R139) -/
  | hClass (h : Half)
  /-- `Q_ENC_NAN code` (R140); the code is the zero-extended immediate, 0 to 65535 (R85) -/
  | qEncNan (code : BitVec 16)
  /-- `H_ENC_NAN code` (R141) -/
  | hEncNan (code : BitVec 16)
  /-- `Q_DEC_NAN q` (R142) -/
  | qDecNan (q : Byte)
  /-- `H_DEC_NAN h` (R143) -/
  | hDecNan (h : Half)
  /-- `ENC_START` (R150) -/
  | encStart
  /-- `ENC_POINT X, Y, Z` (R151) -/
  | encPoint (x y z : Word)
  /-- `ENC_END` (R164) -/
  | encEnd
  /-- `DEC_START` (R180) -/
  | decStart
  /-- `DEC_BYTE b` (R181) -/
  | decByte (b : Byte)
  /-- `DEC_END` (R190) -/
  | decEnd
  /-- `RD_CSR n` (R210); reserved numbers are legal headers and raise `BAD_CSR` when executed (R211, R213) -/
  | rdCsr (n : BitVec 16)
  deriving DecidableEq, Repr

/-- The assigned opcodes, one for each row of the opcode map (R88). -/
inductive Opcode where
  | qFromF32 | hFromF32 | qToF32 | hToF32 | qClass | hClass | qEncNan | hEncNan | qDecNan | hDecNan
  | encStart | encPoint | encEnd | decStart | decByte | decEnd | rdCsr
  deriving DecidableEq, Repr

/-- The causes of `E_ILLEGAL` (R231). The first three are found by decoding, the last by `RD_CSR` (R212, R240). -/
inductive IllegalCause where
  /-- `OPC` is unassigned -/
  | badOpc
  /-- `RSV` is not 0 -/
  | badRsv
  /-- a bit of `IMM` that must be 0 is set -/
  | badImm
  /-- `RD_CSR` of a reserved CSR number -/
  | badCsr
  deriving DecidableEq, Repr

end Sys2Proof
end

