-- ==== Sys2Proof/WellFormed.lean ====
section
/-! DEFINITION. When a command as the host delivers it, a header word and its operand words, is well formed. Every
term of `Instr` is legal by its types, so the checks are of raw command words; they are read from the match, mask and
length columns of the opcode table, apart from the dispatch order of R212 that the decoder follows. -/

namespace Sys2Proof

/-- One row of the opcode table: a header `h` belongs to the row when `h` masked is the match word; the command then
has `words` words in all (R84, R88). -/
structure HeaderRow where
  matchWord : Word
  maskWord : Word
  words : Nat
  deriving DecidableEq, Repr

/-- The match, mask and length of each row of the opcode table, in its order (R88). -/
def headerRows : List HeaderRow :=
  [ ⟨0x00000001, 0xFFFFFFFF, 2⟩, ⟨0x00000002, 0xFFFFFFFF, 2⟩, ⟨0x00000003, 0xFFFF00FF, 1⟩,
    ⟨0x00000004, 0xFF0000FF, 1⟩, ⟨0x00000005, 0xFFFF00FF, 1⟩, ⟨0x00000006, 0xFF0000FF, 1⟩ ] ++
  [ ⟨0x00000007, 0xFF0000FF, 1⟩, ⟨0x00000008, 0xFF0000FF, 1⟩, ⟨0x00000009, 0xFFFF00FF, 1⟩,
    ⟨0x0000000A, 0xFF0000FF, 1⟩, ⟨0x00000010, 0xFFFFFFFF, 1⟩, ⟨0x00000011, 0xFFFFFFFF, 4⟩ ] ++
  [ ⟨0x00000012, 0xFFFFFFFF, 1⟩, ⟨0x00000018, 0xFFFFFFFF, 1⟩, ⟨0x00000019, 0xFFFF00FF, 1⟩,
    ⟨0x0000001A, 0xFFFFFFFF, 1⟩, ⟨0x00000020, 0xFF0000FF, 1⟩ ]

/-- The header belongs to the row. -/
def HeaderRow.covers (r : HeaderRow) (h : Word) : Bool := h &&& r.maskWord == r.matchWord

/-- A legal header: some row of the opcode table covers it (R88, R90). -/
def headerLegal (h : Word) : Bool := headerRows.any fun r => r.covers h

/-- A well-formed raw command: a legal header and exactly the operand words its row takes (R84, R88, R90). -/
def commandWellFormed : List Word → Bool
  | [] => false
  | h :: ops => headerRows.any fun r => r.covers h && r.words == ops.length + 1

end Sys2Proof
end

