-- ==== Sys2Proof/Decode.lean ====
section
/-! DEFINITION. The command decoder, total on any words and rejecting by name (R84, R85, R212), the encoder written
from the same rules (R83 to R88), and the order of words on a byte-wide link (R58). -/

namespace Sys2Proof

/-- Header field `OPC`, bits 7:0 (R84). -/
def headerOpc (h : Word) : Byte := h.extractLsb' 0 8

/-- Header field `IMM`, bits 23:8 (R84). -/
def headerImm (h : Word) : BitVec 16 := h.extractLsb' 8 16

/-- Header field `RSV`, bits 31:24 (R84). -/
def headerRsv (h : Word) : Byte := h.extractLsb' 24 8

/-- The opcode's number (R88). -/
def Opcode.code : Opcode → Byte
  | .qFromF32 => 0x01#8
  | .hFromF32 => 0x02#8
  | .qToF32 => 0x03#8
  | .hToF32 => 0x04#8
  | .qClass => 0x05#8
  | .hClass => 0x06#8
  | .qEncNan => 0x07#8
  | .hEncNan => 0x08#8
  | .qDecNan => 0x09#8
  | .hDecNan => 0x0A#8
  | .encStart => 0x10#8
  | .encPoint => 0x11#8
  | .encEnd => 0x12#8
  | .decStart => 0x18#8
  | .decByte => 0x19#8
  | .decEnd => 0x1A#8
  | .rdCsr => 0x20#8

/-- The opcode's mnemonic (R88). -/
def Opcode.mnemonic : Opcode → String
  | .qFromF32 => "Q_FROM_F32"
  | .hFromF32 => "H_FROM_F32"
  | .qToF32 => "Q_TO_F32"
  | .hToF32 => "H_TO_F32"
  | .qClass => "Q_CLASS"
  | .hClass => "H_CLASS"
  | .qEncNan => "Q_ENC_NAN"
  | .hEncNan => "H_ENC_NAN"
  | .qDecNan => "Q_DEC_NAN"
  | .hDecNan => "H_DEC_NAN"
  | .encStart => "ENC_START"
  | .encPoint => "ENC_POINT"
  | .encEnd => "ENC_END"
  | .decStart => "DEC_START"
  | .decByte => "DEC_BYTE"
  | .decEnd => "DEC_END"
  | .rdCsr => "RD_CSR"

/-- Every assigned opcode, in the order of R88. -/
def Opcode.all : List Opcode :=
  [.qFromF32, .hFromF32, .qToF32, .hToF32, .qClass, .hClass, .qEncNan, .hEncNan, .qDecNan, .hDecNan,
   .encStart, .encPoint, .encEnd, .decStart, .decByte, .decEnd, .rdCsr]

/-- The opcode with this number; `none` when the number is unassigned (R88). -/
def Opcode.ofCode (c : Byte) : Option Opcode := Opcode.all.find? fun o => o.code == c

/-- The operand words of the opcode's format: `C1` takes one, `C3` three, `C0` none (R83, R87). -/
def Opcode.operandWords : Opcode → Nat
  | .qFromF32 | .hFromF32 => 1
  | .encPoint => 3
  | .qToF32 | .hToF32 | .qClass | .hClass | .qEncNan | .hEncNan | .qDecNan | .hDecNan
  | .encStart | .encEnd | .decStart | .decByte | .decEnd | .rdCsr => 0

/-- The bits of `IMM` that must be 0 (R213). -/
def Opcode.mustBeZero : Opcode → BitVec 16
  | .qFromF32 | .hFromF32 | .encStart | .encPoint | .encEnd | .decStart | .decEnd => 0xFFFF#16
  | .qToF32 | .qClass | .qDecNan | .decByte => 0xFF00#16
  | .hToF32 | .hClass | .qEncNan | .hEncNan | .hDecNan | .rdCsr => 0x0000#16

/-- The number of words of the command this header starts, decided by `OPC` alone; every unassigned opcode takes
one word (R84). -/
def commandLength (h : Word) : Nat :=
  1 + match Opcode.ofCode (headerOpc h) with
      | some o => o.operandWords
      | none => 0

/-- A Quarter, byte or low-byte operand: `IMM[7:0]` (R85). -/
def immLow (imm : BitVec 16) : Byte := imm.extractLsb' 0 8

/-- Operand word `k` of a command. A complete command has every operand word its opcode takes, so the value for an
absent word is never read (R84). -/
def operandWord (ops : List Word) (k : Nat) : Word := ops.getD k 0

/-- The command an assigned opcode makes of its immediate and operand words (R85, R86). -/
def buildInstr (o : Opcode) (imm : BitVec 16) (ops : List Word) : Instr :=
  match o with
  | .qFromF32 => .qFromF32 (operandWord ops 0)
  | .hFromF32 => .hFromF32 (operandWord ops 0)
  | .qToF32 => .qToF32 (immLow imm)
  | .hToF32 => .hToF32 imm
  | .qClass => .qClass (immLow imm)
  | .hClass => .hClass imm
  | .qEncNan => .qEncNan imm
  | .hEncNan => .hEncNan imm
  | .qDecNan => .qDecNan (immLow imm)
  | .hDecNan => .hDecNan imm
  | .encStart => .encStart
  | .encPoint => .encPoint (operandWord ops 0) (operandWord ops 1) (operandWord ops 2)
  | .encEnd => .encEnd
  | .decStart => .decStart
  | .decByte => .decByte (immLow imm)
  | .decEnd => .decEnd
  | .rdCsr => .rdCsr imm

/-- The decode checks of one complete command in the order of R212: `RSV`, then `OPC`, then `IMM`. -/
def decodeComplete (h : Word) (ops : List Word) : Except IllegalCause Instr :=
  if headerRsv h ≠ 0#8 then .error .badRsv
  else match Opcode.ofCode (headerOpc h) with
    | none => .error .badOpc
    | some o =>
      if headerImm h &&& o.mustBeZero ≠ 0#16 then .error .badImm
      else .ok (buildInstr o (headerImm h) ops)

/-- What the words at the head of the command sequence are. -/
inductive Decoded where
  /-- no header, or not all operand words of the command have arrived (R36) -/
  | waiting
  /-- a complete illegal command, with its operand words consumed, and the words after it (R84, R90) -/
  | illegal (c : IllegalCause) (rest : List Word)
  /-- a complete legal command and the words after it -/
  | command (i : Instr) (rest : List Word)
  deriving DecidableEq, Repr

/-- Decode the head of a word sequence. Total on any words. -/
def decode : List Word → Decoded
  | [] => .waiting
  | h :: ws =>
    if ws.length + 1 < commandLength h then .waiting
    else
      let ops := ws.take (commandLength h - 1)
      let rest := ws.drop (commandLength h - 1)
      match decodeComplete h ops with
      | .error c => .illegal c rest
      | .ok i => .command i rest

/-- A header word: `RSV = 0`, `IMM`, `OPC` (R84). -/
def header (o : Opcode) (imm : BitVec 16) : Word := 0#8 ++ imm ++ o.code

/-- The words of a command (R83 to R88). -/
def encode : Instr → List Word
  | .qFromF32 a => [header .qFromF32 0#16, a]
  | .hFromF32 a => [header .hFromF32 0#16, a]
  | .qToF32 q => [header .qToF32 (q.setWidth 16)]
  | .hToF32 h => [header .hToF32 h]
  | .qClass q => [header .qClass (q.setWidth 16)]
  | .hClass h => [header .hClass h]
  | .qEncNan code => [header .qEncNan code]
  | .hEncNan code => [header .hEncNan code]
  | .qDecNan q => [header .qDecNan (q.setWidth 16)]
  | .hDecNan h => [header .hDecNan h]
  | .encStart => [header .encStart 0#16]
  | .encPoint x y z => [header .encPoint 0#16, x, y, z]
  | .encEnd => [header .encEnd 0#16]
  | .decStart => [header .decStart 0#16]
  | .decByte b => [header .decByte (b.setWidth 16)]
  | .decEnd => [header .decEnd 0#16]
  | .rdCsr n => [header .rdCsr n]

/-- The command words that the bits `w` of a table row stand for: word `k` is bits `32k+31 : 32k`, the bits above
`nbits` are 0, and exactly the words the header's opcode takes are kept (R83, R84). -/
def tableWords (nbits w : Nat) : List Word :=
  let v := w % 2 ^ nbits
  let ws := [BitVec.ofNat 32 v, BitVec.ofNat 32 (v >>> 32), BitVec.ofNat 32 (v >>> 64), BitVec.ofNat 32 (v >>> 96)]
  ws.take (commandLength (BitVec.ofNat 32 v))

/-- The instruction the decoder reads from a row's bits; `none` where it refuses. -/
def decodeTableWord (nbits w : Nat) : Option Instr :=
  match decode (tableWords nbits w) with
  | .command i _ => some i
  | .illegal _ _ => none
  | .waiting => none

/-- A 32-bit word carried over a byte-wide link, least significant byte first (R58). -/
def linkBytes (w : Word) : List Byte :=
  [w.extractLsb' 0 8, w.extractLsb' 8 8, w.extractLsb' 16 8, w.extractLsb' 24 8]

/-- Words carried over a byte-wide link, in order, each least significant byte first (R58). -/
def linkBytesOf (ws : List Word) : List Byte := ws.flatMap linkBytes

/-- The words that the bytes of a byte-wide link make, and the bytes of a word not yet complete (R58, log entry 8). -/
def linkWords : List Byte → List Word × List Byte
  | b0 :: b1 :: b2 :: b3 :: bs =>
    let r := linkWords bs
    ((b3 ++ b2 ++ b1 ++ b0) :: r.1, r.2)
  | bs => ([], bs)

end Sys2Proof
end

