-- ==== Sys2Proof/Machine/Operands.lean ====
section
/-! DEFINITION. The operand forms: the fields of an f32 pattern (R11) and of a narrow pattern (R12), the little-endian
fields of the byte stream (R56), and points (R13). Field values are natural numbers, as in the spec's pseudocode (R9). -/

namespace Sys2Proof.Machine

/-- Sign bit 31 of an f32 pattern (R11). -/
def f32Sign (a : Word) : Nat := (a.extractLsb' 31 1).toNat

/-- Biased exponent, bits 30:23 (R11). -/
def f32Exp (a : Word) : Nat := (a.extractLsb' 23 8).toNat

/-- Fraction, bits 22:0 (R11). -/
def f32Frac (a : Word) : Nat := (a.extractLsb' 0 23).toNat

/-- The f32 pattern `sign : exponent : fraction`, each taken at its field's width (R11). -/
def f32Pack (s e f : Nat) : Word := BitVec.ofNat 1 s ++ BitVec.ofNat 8 e ++ BitVec.ofNat 23 f

/-- `BIAS = 2^(E-1) - 1` (R6). -/
def bias (F : Format) : Nat := 2 ^ (F.E - 1) - 1

/-- `ALL1 = 2^E - 1` (R6). -/
def allOnes (F : Format) : Nat := 2 ^ F.E - 1

/-- `W = 1 + E + M` (R6). -/
def formatWidth (F : Format) : Nat := 1 + F.E + F.M

/-- `sign = n[W-1]` (R12). -/
def narrowSign (F : Format) (n : Nat) : Nat := (n >>> (F.E + F.M)) % 2

/-- `exp = n[W-2:M]` (R12). -/
def narrowExp (F : Format) (n : Nat) : Nat := (n >>> F.M) % 2 ^ F.E

/-- `mant = n[M-1:0]` (R12). -/
def narrowMant (F : Format) (n : Nat) : Nat := n % 2 ^ F.M

/-- `F.pack(s, e, m) = s[0:0] : e[E-1:0] : m[M-1:0]` (R12). -/
def narrowPack (F : Format) (s e m : Nat) : Nat :=
  (s % 2) * 2 ^ (F.E + F.M) + (e % 2 ^ F.E) * 2 ^ F.M + m % 2 ^ F.M

/-- `LE16(h)`: low byte first (R56, R153). -/
def le16 (h : Half) : List Byte := [h.extractLsb' 0 8, h.extractLsb' 8 8]

/-- `LE32(v)`: the four bytes of an f32 field in stream order (R56, R151). -/
def le32 (v : Word) : List Byte :=
  [v.extractLsb' 0 8, v.extractLsb' 8 8, v.extractLsb' 16 8, v.extractLsb' 24 8]

/-- The twelve bytes of a point: x, y, z, each little-endian (R76, R80). -/
def lePoint (p : Point) : List Byte := le32 p.x ++ le32 p.y ++ le32 p.z

/-- `RD16`: a Half field from its two stream bytes, `b1 : b0` (R187). -/
def rd16 (b0 b1 : Byte) : Half := b1 ++ b0

/-- `RD32`: an f32 field from its four stream bytes, `b3 : b2 : b1 : b0` (R56, R181). -/
def rd32 (b0 b1 b2 b3 : Byte) : Word := b3 ++ b2 ++ b1 ++ b0

/-- Apply a function to each axis, in the order x, y, z (R13). -/
def pointMap (f : Word → Word) (p : Point) : Point := ⟨f p.x, f p.y, f p.z⟩

/-- Combine two points axis by axis (R13, R153). -/
def pointZip (f : Word → Word → Word) (p q : Point) : Point := ⟨f p.x q.x, f p.y q.y, f p.z q.z⟩

end Sys2Proof.Machine
end

