-- ==== Sys2Proof/Machine/F32.lean ====
section
/-! DEFINITION. The binary32 arithmetic of the encoder and the decoder: `F32Add`, `F32Sub`, `F32IsZero` (R115 to R119).
Finite values are exact integers in units of the smallest f32 subnormal, 2^-149; the sum is computed exactly and
rounded once. -/

namespace Sys2Proof.Machine

/-- A NaN pattern: exponent all ones, fraction not zero (R11). -/
def f32IsNaN (a : Word) : Bool := f32Exp a == 255 && f32Frac a != 0

/-- An infinity of either sign (R11). -/
def f32IsInf (a : Word) : Bool := f32Exp a == 255 && f32Frac a == 0

/-- `F32IsZero(a)`: `a[30:0] = 0` (R118). -/
def f32IsZero (a : Word) : Bool := a.extractLsb' 0 31 == 0#31

/-- The significand of a finite pattern: the implicit bit is set when the exponent field is not 0 (R11). -/
def f32Sig (a : Word) : Nat := if f32Exp a = 0 then f32Frac a else 2 ^ 23 + f32Frac a

/-- The magnitude of a finite pattern in units of 2^-149 (R11). -/
def f32Mag (a : Word) : Nat := f32Sig a <<< (max (f32Exp a) 1 - 1)

/-- The value of a finite pattern in units of 2^-149 (R11). -/
def f32Scaled (a : Word) : Int := if f32Sign a = 1 then -(f32Mag a : Int) else (f32Mag a : Int)

/-- Drop the low `k` bits of `n`, rounding to nearest and ties to even (R115). -/
def roundShift (n k : Nat) : Nat :=
  let q := n >>> k
  let r := n % 2 ^ k
  if 2 * r > 2 ^ k ∨ (2 * r = 2 ^ k ∧ q % 2 = 1) then q + 1 else q

/-- The bits of the exponent and fraction of the f32 nearest to the magnitude `n` in units of 2^-149, ties to even,
as one number before the overflow test; a rounding carry moves into the exponent by itself (R115). -/
def roundMag (n : Nat) : Nat :=
  if n < 2 ^ 24 then n
  else
    let k := Nat.log2 n - 23
    k * 2 ^ 23 + roundShift n k

/-- The f32 nearest to an exact value in units of 2^-149: gradual underflow, overflow to the infinity of its sign,
and the sign `zeroSign` for an exact zero (R115). -/
def roundToF32 (zeroSign : Nat) (v : Int) : Word :=
  if v = 0 then f32Pack zeroSign 0 0
  else
    let m := roundMag v.natAbs
    let s := if v < 0 then 1 else 0
    if m ≥ 255 * 2 ^ 23 then f32Pack s 255 0
    else f32Pack s (m / 2 ^ 23) (m % 2 ^ 23)

/-- The default `F32_NAN_RULE`: the first NaN operand made quiet, else `0xFFC00000` (R117). -/
def f32NanRule (a b : Word) : Word :=
  if f32IsNaN a then a ||| 0x00400000#32
  else if f32IsNaN b then b ||| 0x00400000#32
  else 0xFFC00000#32

/-- `F32Add` over a NaN rule (R115, R117). An exact zero sum is +0 unless both operands are -0. -/
def f32AddWith (nanRule : Word → Word → Word) (a b : Word) : Word :=
  if f32IsNaN a || f32IsNaN b then nanRule a b
  else if f32IsInf a then
    if f32IsInf b && f32Sign a != f32Sign b then nanRule a b else a
  else if f32IsInf b then b
  else roundToF32 (if f32Sign a = 1 ∧ f32Sign b = 1 then 1 else 0) (f32Scaled a + f32Scaled b)

/-- `F32Sub` over a NaN rule: the sign of a NaN `b` is not flipped (R116, log entry 6). -/
def f32SubWith (nanRule : Word → Word → Word) (a b : Word) : Word :=
  if f32IsNaN a || f32IsNaN b then nanRule a b
  else f32AddWith nanRule a (b ^^^ 0x80000000#32)

/-- `F32Add` with the default NaN rule (R115, R117). -/
def f32Add (a b : Word) : Word := f32AddWith f32NanRule a b

/-- `F32Sub` with the default NaN rule (R116, R117). -/
def f32Sub (a b : Word) : Word := f32SubWith f32NanRule a b

end Sys2Proof.Machine
end

