-- ==== Sys2Proof/Machine/Narrow.lean ====
section
/-! DEFINITION. The narrow formats once, over a `Format`: `FromFloat` (R101, R105), `ToFloat` (R110), the predicates
(R131), `EncodeNaN` and `DecodeNaN` (R133, R136), and the real value of a finite pattern (R72); then their Quarter and
Half forms. -/

namespace Sys2Proof.Machine

/-- The result of the denormal branch of `FromFloat` before packing the exponent: `TRUNCATE_AFTER_ROUND` (R101). -/
def denormTruncate (F : Format) (s : Nat) (e : Int) (mant : Nat) : Nat :=
  narrowPack F s 0 ((2 ^ F.M + mant) >>> (1 - e).toNat)

/-- The denormal branch under `ROUND_AT_DENORMAL_CUT` (R105), from the exponent before rounding. -/
def denormRound (F : Format) (s : Nat) (e0 : Int) (f : Nat) : Nat :=
  let cut := 23 - F.M + (1 - e0).toNat
  let d := (2 ^ 23 + f + 2 ^ (cut - 1)) >>> cut
  if d ≥ 2 ^ F.M then narrowPack F s 1 0 else narrowPack F s 0 d

/-- `F.FromFloat(a)` under a denormal mode (R101, R105, log entry 11). -/
def fromFloat (F : Format) (mode : DenormMode) (a : Word) : Nat :=
  let s := f32Sign a
  let f := f32Frac a
  if f32Exp a = 255 ∧ f ≠ 0 then narrowPack F s (allOnes F) F.nanMant
  else
    let e0 : Int := (f32Exp a : Int) - 127 + bias F
    let r := f + 2 ^ (22 - F.M)
    let e : Int := if r ≥ 2 ^ 23 then e0 + 1 else e0
    let mant := (r >>> (23 - F.M)) % 2 ^ F.M
    if e ≥ allOnes F then narrowPack F s (allOnes F) 0
    else if e ≤ 0 then
      match mode with
      | .truncateAfterRound => denormTruncate F s e mant
      | .roundAtDenormalCut => denormRound F s e0 f
    else narrowPack F s e.toNat mant

/-- The renormalising loop of `ToFloat`: shift the mantissa left until bit `M` is set, counting the working exponent
down (R110). At most `M` shifts are needed for a mantissa that is not 0, so `fuel` is `M`. -/
def renormalise (M : Nat) : Nat → Nat → Int → Nat × Int
  | 0, m, ew => (m, ew)
  | fuel + 1, m, ew => if m.testBit M then (m, ew) else renormalise M fuel (m <<< 1) (ew - 1)

/-- `F.ToFloat(n)` (R110, R112). -/
def toFloat (F : Format) (n : Nat) : Word :=
  let s := narrowSign F n
  let e := narrowExp F n
  let m := narrowMant F n
  if e = 0 ∧ m = 0 then f32Pack s 0 0
  else if e = allOnes F then f32Pack s 255 (m <<< (23 - F.M))
  else if e = 0 then
    let r := renormalise F.M F.M m 1
    f32Pack s (r.2 - bias F + 127).toNat ((r.1 % 2 ^ F.M) <<< (23 - F.M))
  else f32Pack s ((e : Int) - bias F + 127).toNat (m <<< (23 - F.M))

/-- `IsZero` (R131). -/
def narrowIsZero (F : Format) (n : Nat) : Bool := narrowExp F n == 0 && narrowMant F n == 0

/-- `IsPositiveZero` (R131). -/
def narrowIsPosZero (F : Format) (n : Nat) : Bool := narrowIsZero F n && narrowSign F n == 0

/-- `IsNegativeZero` (R131). -/
def narrowIsNegZero (F : Format) (n : Nat) : Bool := narrowIsZero F n && narrowSign F n == 1

/-- `IsInfinity` (R131). -/
def narrowIsInf (F : Format) (n : Nat) : Bool := narrowExp F n == allOnes F && narrowMant F n == 0

/-- `IsPositiveInfinity` (R131). -/
def narrowIsPosInf (F : Format) (n : Nat) : Bool := narrowIsInf F n && narrowSign F n == 0

/-- `IsNegativeInfinity` (R131). -/
def narrowIsNegInf (F : Format) (n : Nat) : Bool := narrowIsInf F n && narrowSign F n == 1

/-- `IsNaN`, of either sign (R131, R132). -/
def narrowIsNaN (F : Format) (n : Nat) : Bool := narrowExp F n == allOnes F && narrowMant F n != 0

/-- `IsDenormalized` (R131). -/
def narrowIsDenorm (F : Format) (n : Nat) : Bool := narrowExp F n == 0 && narrowMant F n != 0

/-- `F.EncodeNaN(code)`; `none` is `E_RANGE` (R133). -/
def encodeNaN (F : Format) (code : Nat) : Option Nat :=
  let v := code + 1
  if v >>> F.M > 1 then none else some (narrowPack F (v >>> F.M) (allOnes F) (v % 2 ^ F.M))

/-- `F.DecodeNaN(n)`; `none` is `E_STATE` (R136). -/
def decodeNaN (F : Format) (n : Nat) : Option Nat :=
  if narrowIsNaN F n then some (narrowSign F n * 2 ^ F.M + narrowMant F n - 1) else none

/-- The magnitude of a finite narrow pattern in units of 2^-149 (R72). -/
def narrowMag (F : Format) (n : Nat) : Nat :=
  if narrowExp F n = 0 then narrowMant F n <<< (150 - bias F - F.M)
  else (2 ^ F.M + narrowMant F n) <<< (149 + narrowExp F n - bias F - F.M)

/-- The real value of a finite narrow pattern in units of 2^-149 (R72). -/
def narrowScaled (F : Format) (n : Nat) : Int :=
  if narrowSign F n = 1 then -(narrowMag F n : Int) else (narrowMag F n : Int)

/-- `Q.FromFloat` in this realisation (R101). -/
def qFromFloat (a : Word) : Byte := BitVec.ofNat 8 (fromFloat Config.quarter Config.denormMode a)

/-- `H.FromFloat` in this realisation (R101). -/
def hFromFloat (a : Word) : Half := BitVec.ofNat 16 (fromFloat Config.half Config.denormMode a)

/-- `Q.ToFloat` (R110). -/
def qToFloat (q : Byte) : Word := toFloat Config.quarter q.toNat

/-- `H.ToFloat` (R110). -/
def hToFloat (h : Half) : Word := toFloat Config.half h.toNat

/-- `Q.IsNaN` (R131). -/
def qIsNaN (q : Byte) : Bool := narrowIsNaN Config.quarter q.toNat

/-- `Q.IsInfinity` (R131). -/
def qIsInf (q : Byte) : Bool := narrowIsInf Config.quarter q.toNat

/-- `H.IsInfinity` (R131). -/
def hIsInf (h : Half) : Bool := narrowIsInf Config.half h.toNat

/-- `Q.EncodeNaN` (R133). -/
def qEncodeNaN (code : Nat) : Option Byte := (encodeNaN Config.quarter code).map (BitVec.ofNat 8)

/-- `H.EncodeNaN` (R133). -/
def hEncodeNaN (code : Nat) : Option Half := (encodeNaN Config.half code).map (BitVec.ofNat 16)

/-- `Q.DecodeNaN` (R136). -/
def qDecodeNaN (q : Byte) : Option Nat := decodeNaN Config.quarter q.toNat

/-- `H.DecodeNaN` (R136). -/
def hDecodeNaN (h : Half) : Option Nat := decodeNaN Config.half h.toNat

end Sys2Proof.Machine
end

