-- ==== Sys2Proof/Machine/State.lean ====
section
/-! DEFINITION. The state of the block: everything R20 gives it, as plain data, and the words the host has put on the
command port and the block has not yet taken (log entry 1). Reset values are those of R260. -/

namespace Sys2Proof.Machine

/-- `ENC_PHASE` (R28). -/
inductive EncPhase where
  /-- no encoder session open -/
  | idle
  /-- session open, no point accepted -/
  | empty
  /-- one point accepted and held, nothing emitted -/
  | held
  /-- two or more points accepted, header emitted -/
  | run
  deriving DecidableEq, Repr

/-- `DEC_PHASE` (R31). -/
inductive DecPhase where
  /-- no decoder session open -/
  | idle
  /-- collecting the 12-byte baseline header -/
  | base
  /-- the next byte is a record's tag -/
  | tag
  /-- collecting a Quarter record, the tag included -/
  | qrec
  /-- collecting the 6 bytes of a Half record -/
  | hrec
  /-- collecting the 12 bytes of an absolute record -/
  | arec
  /-- failed with `E_CORRUPT`, bytes are no longer decoded -/
  | failed
  deriving DecidableEq, Repr

/-- `DEC_FAIL` (R32). -/
inductive DecFail where
  | none
  | badEscape
  | truncated
  deriving DecidableEq, Repr

/-- One response: the values a command wrote into `STATUS` and `RESULT` (R55). -/
structure Response where
  status : Word
  result : Word
  deriving DecidableEq, Repr

/-- The whole state (R20). -/
structure State where
  /-- `STATUS` (R26) -/
  status : Word
  /-- `RESULT` (R27) -/
  result : Word
  /-- `ENC_PHASE` (R28) -/
  encPhase : EncPhase
  /-- `ENC_BASE` (R29) -/
  encBase : Point
  /-- `ENC_NPTS` (R30) -/
  encNPts : Word
  /-- `ENC_NBYTES` (R30) -/
  encNBytes : Word
  /-- `DEC_PHASE` (R31) -/
  decPhase : DecPhase
  /-- `DEC_K` (R31); an integer 0..11 in every reachable state, log entry 16 -/
  decK : Nat
  /-- `DEC_BUF` (R31) -/
  decBuf : Vector Byte 12
  /-- `DEC_FAIL` (R32) -/
  decFail : DecFail
  /-- `DEC_BASE` (R32) -/
  decBase : Point
  /-- `DEC_NPTS` (R32) -/
  decNPts : Word
  /-- `DEC_NBYTES` (R32) -/
  decNBytes : Word
  /-- `OBS`, front first (R51) -/
  obs : List Byte
  /-- `OPS`, front first (R53) -/
  ops : List Point
  /-- `RSP`, front first (R55) -/
  rsp : List Response
  /-- `CMDBUF`: the words of a command that is not yet complete (R36) -/
  cmdBuf : List Word
  /-- the words delivered on the command port and not yet taken: the model's own field, log entry 1 -/
  port : List Word
  deriving DecidableEq, Repr

/-- The state after reset (R260); the port is empty, log entry 1. -/
def State.reset : State where
  status := 0#32
  result := 0#32
  encPhase := .idle
  encBase := ⟨0#32, 0#32, 0#32⟩
  encNPts := 0#32
  encNBytes := 0#32
  decPhase := .idle
  decK := 0
  decBuf := Vector.replicate 12 0#8
  decFail := .none
  decBase := ⟨0#32, 0#32, 0#32⟩
  decNPts := 0#32
  decNBytes := 0#32
  obs := []
  ops := []
  rsp := []
  cmdBuf := []
  port := []

/-- The reasons the block can stop with a fault. There are none: every command ends with one response and the block
takes the next command (R230, R232, R239), so the type has no constructor and no step can answer a fault. Safe. -/
inductive Fault where
  deriving DecidableEq, Repr

/-- The reasons the model gives no meaning. -/
inductive Refusal where
  /-- Raised only by an arm of `exec` whose instruction has no meaning yet; no arm does. Safe: the machine stops. -/
  | notModelled (mnemonic : String)
  deriving DecidableEq, Repr

end Sys2Proof.Machine
end

