-- ==== Sys2Proof/Machine/Flags.lean ====
section
/-! DEFINITION. The block's only condition code, `STATUS` (R26): the errors with their codes and causes (R230, R231), and
the result words that commands lay out in bits (R138, R162, R194). -/

namespace Sys2Proof.Machine

/-- The causes of `E_SEQUENCE` (R231). -/
inductive SequenceCause where
  | encIdle
  | decIdle
  deriving DecidableEq, Repr

/-- The errors of R230 with their causes (R231). `E_CORRUPT` carries the value of `DEC_FAIL` (R236). -/
inductive Err where
  | range
  | state
  | corrupt (c : DecFail)
  | illegal (c : IllegalCause)
  | sequence (c : SequenceCause)
  deriving DecidableEq, Repr

/-- The encoding of `ENC_PHASE` (R28). -/
def encPhaseCode : EncPhase → Nat
  | .idle => 0
  | .empty => 1
  | .held => 2
  | .run => 3

/-- The encoding of `DEC_PHASE` (R31). -/
def decPhaseCode : DecPhase → Nat
  | .idle => 0
  | .base => 1
  | .tag => 2
  | .qrec => 3
  | .hrec => 4
  | .arec => 5
  | .failed => 6

/-- The encoding of `DEC_FAIL` (R32), which is also the cause of `E_CORRUPT` (R231). -/
def decFailCode : DecFail → Nat
  | .none => 0
  | .badEscape => 1
  | .truncated => 2

/-- The cause value of an `E_ILLEGAL` (R231). -/
def illegalCode : IllegalCause → Nat
  | .badOpc => 1
  | .badRsv => 2
  | .badImm => 3
  | .badCsr => 4

/-- The cause value of an `E_SEQUENCE` (R231). -/
def sequenceCode : SequenceCause → Nat
  | .encIdle => 1
  | .decIdle => 2

/-- The code of an error (R230). -/
def errCode : Err → Nat
  | .range => 1
  | .state => 2
  | .corrupt _ => 3
  | .illegal _ => 4
  | .sequence _ => 5

/-- The cause of an error (R231). -/
def errCause : Err → Nat
  | .range => 0
  | .state => 0
  | .corrupt c => decFailCode c
  | .illegal c => illegalCode c
  | .sequence c => sequenceCode c

/-- The `STATUS` word of a code and a cause: `CODE` in 3:0, `CAUSE` in 7:4, the rest 0 (R26). -/
def statusWord (code cause : Nat) : Word := (BitVec.ofNat 4 cause ++ BitVec.ofNat 4 code).setWidth 32

/-- `STATUS` of a command that met no error (R26, R230). -/
def statusOk : Word := statusWord 0 0

/-- `STATUS` of a command that met an error (R232). -/
def errStatus (e : Err) : Word := statusWord (errCode e) (errCause e)

/-- The eight predicates of a narrow pattern, `IsZero` in bit 0 up to `IsDenormalized` in bit 7 (R138, R139). -/
def classBits (F : Format) (n : Nat) : Byte :=
  BitVec.ofBool (narrowIsDenorm F n) ++ BitVec.ofBool (narrowIsNaN F n) ++ BitVec.ofBool (narrowIsNegInf F n) ++
  BitVec.ofBool (narrowIsPosInf F n) ++ BitVec.ofBool (narrowIsInf F n) ++ BitVec.ofBool (narrowIsNegZero F n) ++
  BitVec.ofBool (narrowIsPosZero F n) ++ BitVec.ofBool (narrowIsZero F n)

/-- The outcome of one point (R153, R162). -/
inductive Tier where
  | held
  | elided
  | quarter
  | half
  | absolute
  deriving DecidableEq, Repr

/-- The `TIER` field of an `ENC_POINT` result (R162). -/
def tierCode : Tier → Nat
  | .held => 0
  | .elided => 1
  | .quarter => 2
  | .half => 3
  | .absolute => 4

/-- The result of `ENC_POINT`: `NBYTES` in 12:8, zeros in 7:4, `HDR` in bit 3, `TIER` in 2:0 (R151, R162). -/
def pointResult (nbytes : Nat) (hdr : Bool) (tier : Tier) : Word :=
  (BitVec.ofNat 5 nbytes ++ 0#4 ++ BitVec.ofBool hdr ++ BitVec.ofNat 3 (tierCode tier)).setWidth 32

/-- The kind of record a `DEC_BYTE` completed (R181). -/
inductive RecKind where
  | none
  | base
  | quarter
  | half
  | absolute
  deriving DecidableEq, Repr

/-- The `KIND` field of a `DEC_BYTE` result (R181, R194). -/
def kindCode : RecKind → Nat
  | .none => 0
  | .base => 1
  | .quarter => 2
  | .half => 3
  | .absolute => 4

/-- The result of `DEC_BYTE`: `KIND` in 3:1, `POINT` in bit 0 (R181, R194). -/
def byteResult (k : RecKind) : Word :=
  (BitVec.ofNat 3 (kindCode k) ++ BitVec.ofBool (k != .none)).setWidth 32

end Sys2Proof.Machine
end

