-- ==== Sys2Proof/Machine/Ops.lean ====
section
/-! DEFINITION. The named operations on the state that every command is built from (R10): appending to the three streams,
ending a command normally, and ending it with an error (`raise`, R232), which is this block's only form of taking an
exception: it saves nothing, changes no mode, transfers no control (R242), so there is no return from it (R243). -/

namespace Sys2Proof.Machine

/-- `sat32(x)` (R151): a count that saturates at `0xFFFFFFFF` (R30). -/
def sat32 (n : Nat) : Word := BitVec.ofNat 32 (min n 0xFFFFFFFF)

/-- A counter advanced by `n`, saturating (R30). -/
def satAdd (c : Word) (n : Nat) : Word := sat32 (c.toNat + n)

/-- `OBS_Append` (R10, R51). -/
def State.obsAppend (s : State) (bs : List Byte) : State := { s with obs := s.obs ++ bs }

/-- `OPS_Append` (R10, R53). -/
def State.opsAppend (s : State) (p : Point) : State := { s with ops := s.ops ++ [p] }

/-- Write `STATUS` and `RESULT` and append the response that carries them (R55). -/
def State.answer (s : State) (st r : Word) : State :=
  { s with status := st, result := r, rsp := s.rsp ++ [⟨st, r⟩] }

/-- The normal end of a command: `RESULT <- r; STATUS <- OK; Respond(STATUS, RESULT)`. -/
def State.complete (s : State) (r : Word) : State := s.answer statusOk r

/-- `raise E(cause)` (R232): `STATUS` gets cause and code, `RESULT` gets 0, one response is appended, and the block goes
on to the next command. Writes already made stand; nothing is appended to `OBS` or `OPS`. -/
def State.raise (s : State) (e : Err) : State := s.answer (errStatus e) 0#32

end Sys2Proof.Machine
end

