-- ==== Sys2Proof/Machine/Convert.lean ====
section
/-! DEFINITION. The converter commands (R100, R120 to R123): pure, and never in error for a value (R238). -/

namespace Sys2Proof.Machine

/-- `Q_FROM_F32 A` (R120). -/
def execQFromF32 (a : Word) (s : State) : Host.Outcome State Fault Refusal :=
  .next (s.complete ((qFromFloat a).setWidth 32))

/-- `H_FROM_F32 A` (R121). -/
def execHFromF32 (a : Word) (s : State) : Host.Outcome State Fault Refusal :=
  .next (s.complete ((hFromFloat a).setWidth 32))

/-- `Q_TO_F32 q` (R122). -/
def execQToF32 (q : Byte) (s : State) : Host.Outcome State Fault Refusal :=
  .next (s.complete (qToFloat q))

/-- `H_TO_F32 h` (R123). -/
def execHToF32 (h : Half) (s : State) : Host.Outcome State Fault Refusal :=
  .next (s.complete (hToFloat h))

end Sys2Proof.Machine
end

