-- ==== Sys2Proof/Machine/Decoder.lean ====
section
/-! DEFINITION. The trajectory delta decoder backend (R180 to R196): the session commands and the record of each phase. -/

namespace Sys2Proof.Machine

/-- The point whose twelve bytes are in `DEC_BUF` (R183, R188). -/
def bufPoint (b : Vector Byte 12) : Point :=
  ⟨rd32 b[0] b[1] b[2] b[3], rd32 b[4] b[5] b[6] b[7], rd32 b[8] b[9] b[10] b[11]⟩

/-- The three Quarter deltas in `DEC_BUF`, as f32 (R186). -/
def bufQuarters (b : Vector Byte 12) : Point := ⟨qToFloat b[0], qToFloat b[1], qToFloat b[2]⟩

/-- The three Half deltas in `DEC_BUF`, as f32 (R187). -/
def bufHalves (b : Vector Byte 12) : Point :=
  ⟨hToFloat (rd16 b[0] b[1]), hToFloat (rd16 b[2] b[3]), hToFloat (rd16 b[4] b[5])⟩

/-- `DEC_BUF[DEC_K] <- b; DEC_K <- DEC_K + 1` (R181). -/
def State.collect (s : State) (b : Byte) : State :=
  { s with decBuf := s.decBuf.setIfInBounds s.decK b, decK := s.decK + 1 }

/-- A completed record: the new baseline is appended to `OPS` and counted, and the next byte is a tag (R181). -/
def finishRecord (k : RecKind) (B : Point) (s : State) : State :=
  State.complete
    (State.opsAppend { s with decBase := B, decNPts := satAdd s.decNPts 1, decPhase := .tag, decK := 0 } B)
    (byteResult k)

/-- One byte of a record body of `need` bytes: collect it, and finish the record when it was the last (R181 to R183,
R186 to R188). `base` gives the new baseline from the old one and the collected bytes. -/
def bodyByte (need : Nat) (k : RecKind) (base : Point → Vector Byte 12 → Point) (b : Byte) (s : State) : State :=
  let t := s.collect b
  if t.decK = need then finishRecord k (base t.decBase t.decBuf) t else t.complete (byteResult .none)

/-- A tag byte (R184, R185). -/
def tagByte (b : Byte) (s : State) : State :=
  match qDecodeNaN b with
  | none => State.complete { s with decBuf := s.decBuf.set 0 b, decK := 1, decPhase := .qrec } (byteResult .none)
  | some 1 => State.complete { s with decK := 0, decPhase := .arec } (byteResult .none)
  | some 2 => State.complete { s with decK := 0, decPhase := .hrec } (byteResult .none)
  | some _ => State.raise { s with decPhase := .failed, decFail := .badEscape } (.corrupt .badEscape)

/-- `DEC_START` (R180): opens a session in every phase; points already appended stay in `OPS`. -/
def execDecStart (s : State) : Host.Outcome State Fault Refusal :=
  .next (State.complete
    { s with
      decPhase := .base, decK := 0, decBuf := Vector.replicate 12 0#8, decFail := .none,
      decBase := ⟨0#32, 0#32, 0#32⟩, decNPts := 0#32, decNBytes := 0#32 } 0#32)

/-- `DEC_NBYTES <- sat32(DEC_NBYTES + 1)` (R181). -/
def State.countByte (s : State) : State := { s with decNBytes := satAdd s.decNBytes 1 }

/-- `DEC_BYTE b` (R181). -/
def execDecByte (b : Byte) (s : State) : Host.Outcome State Fault Refusal :=
  match s.decPhase with
  | .idle => .next (s.raise (.sequence .decIdle))
  | .failed => .next (s.countByte.raise (.corrupt s.decFail))
  | .base => .next (bodyByte 12 .base (fun _ buf => bufPoint buf) b s.countByte)
  | .tag => .next (tagByte b s.countByte)
  | .qrec => .next (bodyByte 3 .quarter (fun B buf => pointZip f32Add B (bufQuarters buf)) b s.countByte)
  | .hrec => .next (bodyByte 6 .half (fun B buf => pointZip f32Add B (bufHalves buf)) b s.countByte)
  | .arec => .next (bodyByte 12 .absolute (fun _ buf => bufPoint buf) b s.countByte)

/-- `DEC_END` (R190). "After `DEC_END` the phase is `IDLE` and `DEC_K` is 0 in every case" (log entry 4). -/
def execDecEnd (s : State) : Host.Outcome State Fault Refusal :=
  match s.decPhase with
  | .idle => .next (s.raise (.sequence .decIdle))
  | .failed => .next (State.raise { s with decPhase := .idle, decK := 0 } (.corrupt s.decFail))
  | .tag => .next (State.complete { s with decPhase := .idle, decK := 0 } s.decNPts)
  | .base =>
    if s.decK = 0 then .next (State.complete { s with decPhase := .idle, decK := 0 } s.decNPts)
    else .next (State.raise { s with decFail := .truncated, decPhase := .idle, decK := 0 } (.corrupt .truncated))
  | .qrec | .hrec | .arec =>
    .next (State.raise { s with decFail := .truncated, decPhase := .idle, decK := 0 } (.corrupt .truncated))

end Sys2Proof.Machine
end

