-- ==== Sys2Proof/Machine/Encoder.lean ====
section
/-! DEFINITION. The trajectory delta encoder frontend (R150 to R169): the session commands and the record of one point. -/

namespace Sys2Proof.Machine

/-- The escape byte of an absolute record, `Q.EncodeNaN(1)` (R78). -/
def escAbs : Byte := 0x62#8

/-- The escape byte of a Half record, `Q.EncodeNaN(2)` (R78). -/
def escHalf : Byte := 0x63#8

/-- The delta of a point against the baseline, axis by axis (R154). -/
def pointDelta (B P : Point) : Point := pointZip f32Sub P B

/-- All three deltas are zero, +0 or -0 (R118, R154). -/
def deltaZero (d : Point) : Bool := f32IsZero d.x && f32IsZero d.y && f32IsZero d.z

/-- Some delta overflows the Quarter tier (R155). -/
def quarterOverflows (d : Point) : Bool :=
  qIsInf (qFromFloat d.x) || qIsInf (qFromFloat d.y) || qIsInf (qFromFloat d.z)

/-- Some delta overflows the Half tier (R156). -/
def halfOverflows (d : Point) : Bool :=
  hIsInf (hFromFloat d.x) || hIsInf (hFromFloat d.y) || hIsInf (hFromFloat d.z)

/-- The bytes of a Quarter record of the deltas (R77, R157). -/
def quarterRecord (d : Point) : List Byte := [qFromFloat d.x, qFromFloat d.y, qFromFloat d.z]

/-- The bytes of a Half record of the deltas (R79, R158). -/
def halfRecord (d : Point) : List Byte :=
  escHalf :: (le16 (hFromFloat d.x) ++ le16 (hFromFloat d.y) ++ le16 (hFromFloat d.z))

/-- The bytes of an absolute record of the point (R80, R159). -/
def absoluteRecord (P : Point) : List Byte := escAbs :: lePoint P

/-- The baseline advanced by the quantized Quarter deltas (R157). -/
def quarterAdvance (B d : Point) : Point := pointZip f32Add B (pointMap (fun a => qToFloat (qFromFloat a)) d)

/-- The baseline advanced by the quantized Half deltas (R158). -/
def halfAdvance (B d : Point) : Point := pointZip f32Add B (pointMap (fun a => hToFloat (hFromFloat a)) d)

/-- What `EncodeRecord` returns (R153). -/
structure EncRecord where
  tier : Tier
  bytes : List Byte
  base : Point
  deriving DecidableEq, Repr

/-- `EncodeRecord(B, P)` in the order of R153. -/
def encodeRecord (B P : Point) : EncRecord :=
  let d := pointDelta B P
  if deltaZero d then ⟨.elided, [], B⟩
  else if !quarterOverflows d then ⟨.quarter, quarterRecord d, quarterAdvance B d⟩
  else if !halfOverflows d then ⟨.half, halfRecord d, halfAdvance B d⟩
  else ⟨.absolute, absoluteRecord P, P⟩

/-- `ENC_START` (R150): opens a session in every phase; bytes already appended stay in `OBS`. -/
def execEncStart (s : State) : Host.Outcome State Fault Refusal :=
  .next (State.complete
    { s with encPhase := .empty, encBase := ⟨0#32, 0#32, 0#32⟩, encNPts := 0#32, encNBytes := 0#32 } 0#32)

/-- The first point of a session is held, not emitted (R151, R152). -/
def holdPoint (P : Point) (s : State) : State :=
  State.complete { s with encNPts := satAdd s.encNPts 1, encBase := P, encPhase := .held } (pointResult 0 false .held)

/-- A later point: its record, after the 12-byte header when it is the second point (R151, R163). -/
def emitPoint (P : Point) (hdr : Bool) (s : State) : State :=
  let r := encodeRecord s.encBase P
  let bytes := (if hdr then lePoint s.encBase else []) ++ r.bytes
  State.complete
    (State.obsAppend
      { s with
        encNPts := satAdd s.encNPts 1, encPhase := .run, encNBytes := satAdd s.encNBytes bytes.length,
        encBase := r.base }
      bytes)
    (pointResult bytes.length hdr r.tier)

/-- `ENC_POINT X, Y, Z` (R151). -/
def execEncPoint (x y z : Word) (s : State) : Host.Outcome State Fault Refusal :=
  match s.encPhase with
  | .idle => .next (s.raise (.sequence .encIdle))
  | .empty => .next (holdPoint ⟨x, y, z⟩ s)
  | .held => .next (emitPoint ⟨x, y, z⟩ true s)
  | .run => .next (emitPoint ⟨x, y, z⟩ false s)

/-- `ENC_END` (R164): a held point is discarded; the baseline and the counters keep their values. -/
def execEncEnd (s : State) : Host.Outcome State Fault Refusal :=
  match s.encPhase with
  | .idle => .next (s.raise (.sequence .encIdle))
  | .empty | .held | .run => .next (State.complete { s with encPhase := .idle } s.encNBytes)

end Sys2Proof.Machine
end

