-- ==== Sys2Proof/Machine/NanChannel.lean ====
section
/-! DEFINITION. The predicate commands and the NaN escape channel (R130, R138 to R143). -/

namespace Sys2Proof.Machine

/-- `Q_CLASS q` (R138). -/
def execQClass (q : Byte) (s : State) : Host.Outcome State Fault Refusal :=
  .next (s.complete ((classBits Config.quarter q.toNat).setWidth 32))

/-- `H_CLASS h` (R139). -/
def execHClass (h : Half) (s : State) : Host.Outcome State Fault Refusal :=
  .next (s.complete ((classBits Config.half h.toNat).setWidth 32))

/-- `Q_ENC_NAN code` (R140): `E_RANGE` when the code does not fit (R234). -/
def execQEncNan (code : BitVec 16) (s : State) : Host.Outcome State Fault Refusal :=
  match qEncodeNaN code.toNat with
  | some q => .next (s.complete (q.setWidth 32))
  | none => .next (s.raise .range)

/-- `H_ENC_NAN code` (R141): `E_RANGE` when the code does not fit (R234). -/
def execHEncNan (code : BitVec 16) (s : State) : Host.Outcome State Fault Refusal :=
  match hEncodeNaN code.toNat with
  | some h => .next (s.complete (h.setWidth 32))
  | none => .next (s.raise .range)

/-- `Q_DEC_NAN q` (R142): `E_STATE` when the operand is not a NaN pattern (R235). -/
def execQDecNan (q : Byte) (s : State) : Host.Outcome State Fault Refusal :=
  match qDecodeNaN q with
  | some c => .next (s.complete (BitVec.ofNat 32 c))
  | none => .next (s.raise .state)

/-- `H_DEC_NAN h` (R143): `E_STATE` when the operand is not a NaN pattern (R235). -/
def execHDecNan (h : Half) (s : State) : Host.Outcome State Fault Refusal :=
  match hDecodeNaN h with
  | some c => .next (s.complete (BitVec.ofNat 32 c))
  | none => .next (s.raise .state)

end Sys2Proof.Machine
end

