-- ==== Sys2Proof/Machine/System.lean ====
section
/-! DEFINITION. The control and status registers and the one command that reads them (R33 to R35, R210, R211). -/

namespace Sys2Proof.Machine

/-- `CONFIG[20]` (R33). -/
def denormModeBit : DenormMode → Nat
  | .truncateAfterRound => 0
  | .roundAtDenormalCut => 1

/-- The `CONFIG` word: `NAN_MANT_Q` in 7:0, `NAN_MANT_H` in 19:9, `DENORM_MODE` in 20, little-endian in 21 (R33). -/
def configWord : Word :=
  0#10 ++ 0#1 ++ BitVec.ofNat 1 (denormModeBit Config.denormMode) ++ BitVec.ofNat 11 Config.half.nanMant ++ 0#1 ++
  BitVec.ofNat 8 Config.quarter.nanMant

/-- `ENC_STATE`: `ENC_PHASE` in 1:0, the rest 0 (R34). -/
def encStateWord (s : State) : Word := (BitVec.ofNat 2 (encPhaseCode s.encPhase)).setWidth 32

/-- `DEC_STATE`: `DEC_PHASE` in 2:0, `DEC_K` in 7:4, `DEC_FAIL` in 11:8, the rest 0 (R34). -/
def decStateWord (s : State) : Word :=
  (BitVec.ofNat 4 (decFailCode s.decFail) ++ BitVec.ofNat 4 s.decK ++ 0#1 ++
   BitVec.ofNat 3 (decPhaseCode s.decPhase)).setWidth 32

/-- `CSR[n]`; `none` for a reserved number (R34, R211). -/
def csrRead (s : State) (n : BitVec 16) : Option Word :=
  match n.toNat with
  | 0 => some Config.idWord
  | 1 => some s.status
  | 2 => some s.result
  | 3 => some (encStateWord s)
  | 4 => some s.encBase.x
  | 5 => some s.encBase.y
  | 6 => some s.encBase.z
  | 7 => some s.encNPts
  | 8 => some s.encNBytes
  | 9 => some (decStateWord s)
  | 10 => some s.decBase.x
  | 11 => some s.decBase.y
  | 12 => some s.decBase.z
  | 13 => some s.decNPts
  | 14 => some s.decNBytes
  | 15 => some configWord
  | _ => none

/-- `RD_CSR n` (R210): the value read is the one before this command (R35); a reserved number is `BAD_CSR` (R211). -/
def execRdCsr (n : BitVec 16) (s : State) : Host.Outcome State Fault Refusal :=
  match csrRead s n with
  | some v => .next (s.complete v)
  | none => .next (s.raise (.illegal .badCsr))

end Sys2Proof.Machine
end

