-- ==== Sys2Proof/Machine/Dispatch.lean ====
section
/-! DEFINITION. The dispatch of a decoded command to the rule its row names (R88, R212), one arm per constructor. -/

namespace Sys2Proof.Machine

def exec (i : Instr) (s : State) : Host.Outcome State Fault Refusal :=
  match i with
  | .qFromF32 a => Sys2Proof.Machine.execQFromF32 a s
  | .hFromF32 a => Sys2Proof.Machine.execHFromF32 a s
  | .qToF32 q => Sys2Proof.Machine.execQToF32 q s
  | .hToF32 h => Sys2Proof.Machine.execHToF32 h s
  | .qClass q => Sys2Proof.Machine.execQClass q s
  | .hClass h => Sys2Proof.Machine.execHClass h s
  | .qEncNan code => Sys2Proof.Machine.execQEncNan code s
  | .hEncNan code => Sys2Proof.Machine.execHEncNan code s
  | .qDecNan q => Sys2Proof.Machine.execQDecNan q s
  | .hDecNan h => Sys2Proof.Machine.execHDecNan h s
  | .encStart => Sys2Proof.Machine.execEncStart s
  | .encPoint x y z => Sys2Proof.Machine.execEncPoint x y z s
  | .encEnd => Sys2Proof.Machine.execEncEnd s
  | .decStart => Sys2Proof.Machine.execDecStart s
  | .decByte b => Sys2Proof.Machine.execDecByte b s
  | .decEnd => Sys2Proof.Machine.execDecEnd s
  | .rdCsr n => Sys2Proof.Machine.execRdCsr n s

end Sys2Proof.Machine
end

