-- ==== Sys2Proof/Machine/Issue.lean ====
section
/-! DEFINITION. Taking the next command from the command port and running it: collecting words into `CMDBUF` (R36), the
dispatch of a complete command (R212), and the hold of a realisation with finite streams (R66). The step and
withFetchWord only call what is here. -/

namespace Sys2Proof.Machine

/-- The words the block has and the host has delivered, in order: `CMDBUF`, then the port (R24, R36). -/
def State.words (s : State) : List Word := s.cmdBuf ++ s.port

/-- Every delivered word taken into `CMDBUF`: the command waits for the rest (R36). With no word at all the block is
idle and its state is unchanged (R250). -/
def State.absorb (s : State) : State := { s with cmdBuf := s.words, port := [] }

/-- The words of one complete command consumed, `rest` left on the port (R84). -/
def State.consume (s : State) (rest : List Word) : State := { s with cmdBuf := [], port := rest }

/-- A stream whose length goes from `before` to `after` has room for what was appended (R66). -/
def streamFits (depth : Option Nat) (before after : Nat) : Bool :=
  match depth with
  | none => true
  | some d => after == before || Nat.ble after d

/-- A realisation of these depths has room for all that the command appended (R66). -/
def depthsFit (d : Depths) (s t : State) : Bool :=
  streamFits d.obs s.obs.length t.obs.length && streamFits d.ops s.ops.length t.ops.length

/-- Hold a command, before any of its writes, until the streams have room for all it appends: the state stays `s`
(R66, log entry 7). Its words are where they were, so a reset keeps those on the port: log entry 19. -/
def holdUnless (d : Depths) (s : State) (r : Host.Outcome State Fault Refusal) : Host.Outcome State Fault Refusal :=
  match r with
  | .next t => if depthsFit d s t then .next t else .next s
  | .fault f => .fault f
  | .refused f => .refused f

/-- One step of a realisation with these stream depths (R61, R275): a complete command is executed whole, an
incomplete one is collected and waits. -/
def issue (d : Depths) (s : State) : Host.Outcome State Fault Refusal :=
  match decode s.words with
  | .waiting => .next s.absorb
  | .illegal c rest => .next ((s.consume rest).raise (.illegal c))
  | .command i rest => holdUnless d s (exec i (s.consume rest))

/-- The state whose next command is the one of these table bits: its words at the head of the command port, before
those already there, and no command half collected (log entry 17). -/
def State.placeCommand (s : State) (nbits w : Nat) : State :=
  { s with cmdBuf := [], port := tableWords nbits w ++ s.port }

end Sys2Proof.Machine
end

