-- ==== Sys2Proof/Machine/Assembly.lean ====
section
/-! DEFINITION. The spec's assembler syntax (R91) as parsed lines, a mnemonic and its operand literals, and the command
each line stands for; and the pseudo-instructions with their expansions (R92). Log entry 12. -/

namespace Sys2Proof.Machine

/-- An operand as written: a number, or a decimal literal with suffix `f`, `digits / 10^scale` with a sign (R91). -/
inductive Literal where
  | number (n : Nat)
  | float (negative : Bool) (digits scale : Nat)
  deriving DecidableEq, Repr

/-- The exponent and fraction bits of the f32 nearest to `n` units of 2^-(149+x), ties to even (R91). -/
def roundMagFrom (x n : Nat) : Nat :=
  if n < 2 ^ (24 + x) then roundShift n x
  else (Nat.log2 n - 23 - x) * 2 ^ 23 + roundShift n (Nat.log2 n - 23)

/-- The f32 nearest to the decimal value, ties to even (R91). The quotient is taken with three more bits than the
smallest subnormal, and one bit below them says whether anything was cut off. -/
def decimalF32 (negative : Bool) (digits scale : Nat) : Word :=
  let den := 10 ^ scale
  let num := digits * 2 ^ 152
  let n := 2 * (num / den) + if num % den = 0 then 0 else 1
  let m := roundMagFrom 4 n
  let s := if negative then 1 else 0
  if m ≥ 255 * 2 ^ 23 then f32Pack s 255 0 else f32Pack s (m / 2 ^ 23) (m % 2 ^ 23)

/-- An f32 operand: a bit pattern of at most 32 bits, or a decimal literal (R91). -/
def literalF32 : Literal → Option Word
  | .number n => if n < 2 ^ 32 then some (BitVec.ofNat 32 n) else none
  | .float neg d k => some (decimalF32 neg d k)

/-- An immediate operand: a number that fits the operand's `w` bits (R85, R91). -/
def literalImm (w : Nat) : Literal → Option (BitVec w)
  | .number n => if n < 2 ^ w then some (BitVec.ofNat w n) else none
  | .float _ _ _ => none

/-- The command of one line: the mnemonic, then its operands (R91); `none` when they do not fit. -/
def assemble (o : Opcode) (xs : List Literal) : Option Instr :=
  match o, xs with
  | .qFromF32, [a] => (literalF32 a).map .qFromF32
  | .hFromF32, [a] => (literalF32 a).map .hFromF32
  | .qToF32, [n] => (literalImm 8 n).map .qToF32
  | .hToF32, [n] => (literalImm 16 n).map .hToF32
  | .qClass, [n] => (literalImm 8 n).map .qClass
  | .hClass, [n] => (literalImm 16 n).map .hClass
  | .qEncNan, [n] => (literalImm 16 n).map .qEncNan
  | .hEncNan, [n] => (literalImm 16 n).map .hEncNan
  | .qDecNan, [n] => (literalImm 8 n).map .qDecNan
  | .hDecNan, [n] => (literalImm 16 n).map .hDecNan
  | .encStart, [] => some .encStart
  | .encPoint, [x, y, z] =>
    match literalF32 x, literalF32 y, literalF32 z with
    | some a, some b, some c => some (.encPoint a b c)
    | _, _, _ => none
  | .encEnd, [] => some .encEnd
  | .decStart, [] => some .decStart
  | .decByte, [n] => (literalImm 8 n).map .decByte
  | .decEnd, [] => some .decEnd
  | .rdCsr, [n] => (literalImm 16 n).map .rdCsr
  | _, _ => none

/-- The pseudo-instructions of R92. -/
inductive Pseudo where
  | encode (points : List Point)
  | decode (bytes : List Byte)
  | nop
  deriving DecidableEq, Repr

/-- The `ENC_POINT` command of a point (R92, R151). -/
def pointCommand (p : Point) : Instr := .encPoint p.x p.y p.z

/-- The commands a pseudo-instruction stands for (R92). -/
def expandPseudo : Pseudo → List Instr
  | .encode ps => [.encStart] ++ ps.map pointCommand ++ [.encEnd]
  | .decode bs => [.decStart] ++ bs.map .decByte ++ [.decEnd]
  | .nop => [.rdCsr 0#16]

end Sys2Proof.Machine
end

