-- ==== Sys2Proof/Machine/Codec.lean ====
section
/-! DEFINITION. The source's whole-list encoder and whole-buffer decoder, as the numbered steps the spec quotes give
them (R75, R153, R165, R183 to R193). They are not part of the machine: the statements compare its sessions with
them. -/

namespace Sys2Proof.Machine

/-- One point in the order of the source's steps 2a to 2d: the Quarter tier is tried before elision (R153). -/
def sourceRecord (B P : Point) : EncRecord :=
  let d := pointDelta B P
  if !quarterOverflows d && !deltaZero d then ⟨.quarter, quarterRecord d, quarterAdvance B d⟩
  else if deltaZero d then ⟨.elided, [], B⟩
  else if !halfOverflows d then ⟨.half, halfRecord d, halfAdvance B d⟩
  else ⟨.absolute, absoluteRecord P, P⟩

/-- The records of the points after the first, each against the baseline the points before it left (R165). -/
def sourceRecords : Point → List Point → List Byte
  | _, [] => []
  | B, P :: ps => (sourceRecord B P).bytes ++ sourceRecords (sourceRecord B P).base ps

/-- The source encoder's output for a point list: empty for fewer than two points (R165). -/
def sourceEncode : List Point → List Byte
  | p1 :: p2 :: ps => lePoint p1 ++ sourceRecords p1 (p2 :: ps)
  | _ => []

/-- The baselines after the points of a list, those of elided points left out (R195). -/
def keptBaselines : Point → List Point → List Point
  | _, [] => []
  | B, P :: ps =>
    let r := sourceRecord B P
    if r.tier = .elided then keptBaselines r.base ps else r.base :: keptBaselines r.base ps

/-- The records of a byte stream, against a baseline (R81, R184 to R188). -/
def sourceTail : List Byte → Point → Except DecFail (List Point)
  | [], _ => .ok []
  | t :: bs, B =>
    match qDecodeNaN t with
    | none =>
      match bs with
      | y :: z :: rest =>
        let B' := pointZip f32Add B ⟨qToFloat t, qToFloat y, qToFloat z⟩
        (sourceTail rest B').map (B' :: ·)
      | _ => .error .truncated
    | some 1 =>
      match bs with
      | a0 :: a1 :: a2 :: a3 :: a4 :: a5 :: a6 :: a7 :: a8 :: a9 :: a10 :: a11 :: rest =>
        let B' : Point := ⟨rd32 a0 a1 a2 a3, rd32 a4 a5 a6 a7, rd32 a8 a9 a10 a11⟩
        (sourceTail rest B').map (B' :: ·)
      | _ => .error .truncated
    | some 2 =>
      match bs with
      | a0 :: a1 :: a2 :: a3 :: a4 :: a5 :: rest =>
        let B' := pointZip f32Add B ⟨hToFloat (rd16 a0 a1), hToFloat (rd16 a2 a3), hToFloat (rd16 a4 a5)⟩
        (sourceTail rest B').map (B' :: ·)
      | _ => .error .truncated
    | some _ => .error .badEscape
termination_by structural bs => bs

/-- The source decoder: an empty stream gives no point, a stream shorter than the header is truncated (R183, R191,
R192, R193). -/
def sourceDecode : List Byte → Except DecFail (List Point)
  | [] => .ok []
  | a0 :: a1 :: a2 :: a3 :: a4 :: a5 :: a6 :: a7 :: a8 :: a9 :: a10 :: a11 :: rest =>
    let B : Point := ⟨rd32 a0 a1 a2 a3, rd32 a4 a5 a6 a7, rd32 a8 a9 a10 a11⟩
    (sourceTail rest B).map (B :: ·)
  | _ => .error .truncated

end Sys2Proof.Machine
end

