-- ==== Sys2Proof/Machine/HostPort.lean ====
section
/-! DEFINITION. The host's interactions with the block, exactly those of R67, each between two steps (R61). -/

namespace Sys2Proof.Machine

/-- The host puts words on the command port, in any number at a time (R36, R67). -/
def State.deliver (s : State) (ws : List Word) : State := { s with port := s.port ++ ws }

/-- The host delivers words over a byte-wide link, least significant byte first; the bytes of a word not yet complete
are still the link's (R58, log entry 8). -/
def State.deliverLink (s : State) (bs : List Byte) : State × List Byte :=
  let r := linkWords bs
  (s.deliver r.1, r.2)

/-- The host takes the front byte of `OBS` (R51, R67). -/
def State.takeObs (s : State) : Option Byte × State := (s.obs.head?, { s with obs := s.obs.tail })

/-- The host takes the front point of `OPS` (R53, R67). -/
def State.takeOps (s : State) : Option Point × State := (s.ops.head?, { s with ops := s.ops.tail })

/-- The host takes the front response of `RSP` (R55, R67). -/
def State.takeRsp (s : State) : Option Response × State := (s.rsp.head?, { s with rsp := s.rsp.tail })

/-- The words of a response on the response channel: `STATUS`, then `RESULT` (R55, log entry 8). A CSR value leaves the
block in `RESULT` (R210). -/
def responseWords (r : Response) : List Word := [r.status, r.result]

/-- The words of a point on the point stream: x, y, z (R13, R53). -/
def pointWords (p : Point) : List Word := [p.x, p.y, p.z]

/-- The host takes the front response of `RSP` over a byte-wide link: its eight bytes, none when `RSP` is empty (R58,
log entries 8 and 18). -/
def State.takeRspLink (s : State) : List Byte × State :=
  let r := s.takeRsp
  (linkBytesOf (r.1.toList.flatMap responseWords), r.2)

/-- The host takes the front point of `OPS` over a byte-wide link: its twelve bytes, none when `OPS` is empty (R58, log
entries 8 and 18). -/
def State.takeOpsLink (s : State) : List Byte × State :=
  let r := s.takeOps
  (linkBytesOf (r.1.toList.flatMap pointWords), r.2)

/-- The host asserts reset, at any time: every piece of state at its reset value, a command in progress discarded; the
words still on the port are the host's, and the next of them is a header (R260, log entry 3). DESIGN CHOICE, log entry
19: a command that a realisation holds for room (R66) is not a command in progress, so its words on the port stay and
are decoded again after the reset. -/
def State.assertReset (s : State) : State := { State.reset with port := s.port }

/-- The five interactions of R67. -/
inductive HostAction where
  | deliver (ws : List Word)
  | takeObs
  | takeOps
  | takeRsp
  | reset
  deriving DecidableEq, Repr

/-- The state after an interaction (R67). -/
def State.afterHost (s : State) : HostAction → State
  | .deliver ws => s.deliver ws
  | .takeObs => s.takeObs.2
  | .takeOps => s.takeOps.2
  | .takeRsp => s.takeRsp.2
  | .reset => s.assertReset

end Sys2Proof.Machine
end

