-- ==== Sys2Proof/Safety.lean ====
section
/-! DEFINITION. The terms the statements use: frames, a run of commands, and the invariant of the block. -/

namespace Sys2Proof.Machine

/-- The two states agree on the encoder session and on `OBS` (R248). -/
def SameEncoder (s t : State) : Prop :=
  t.encPhase = s.encPhase ∧ t.encBase = s.encBase ∧ t.encNPts = s.encNPts ∧ t.encNBytes = s.encNBytes ∧ t.obs = s.obs

/-- The two states agree on the decoder session and on `OPS` (R248). -/
def SameDecoder (s t : State) : Prop :=
  t.decPhase = s.decPhase ∧ t.decK = s.decK ∧ t.decBuf = s.decBuf ∧ t.decFail = s.decFail ∧ t.decBase = s.decBase ∧
  t.decNPts = s.decNPts ∧ t.decNBytes = s.decNBytes ∧ t.ops = s.ops

/-- The two states agree on `CMDBUF` and on the command port. -/
def SamePort (s t : State) : Prop := t.cmdBuf = s.cmdBuf ∧ t.port = s.port

/-- From `s` to `t`, `STATUS` and `RESULT` were written and the one response that carries them appended (R55). -/
def Answers (s t : State) (st r : Word) : Prop :=
  t.status = st ∧ t.result = r ∧ t.rsp = s.rsp ++ [⟨st, r⟩]

/-- From `s` to `t` only `STATUS`, `RESULT` and `RSP` changed, by one answer (R64, R232). -/
def OnlyAnswers (s t : State) (st r : Word) : Prop :=
  Answers s t st r ∧ SameEncoder s t ∧ SameDecoder s t ∧ SamePort s t

/-- The commands of a list executed in order, stopping at the first stop (R24). -/
def runCommands : List Instr → State → Host.Outcome State Fault Refusal
  | [], s => .next s
  | i :: is, s =>
    match exec i s with
    | .next t => runCommands is t
    | .fault f => .fault f
    | .refused r => .refused r

/-- The three commands of the encoder session (R150, R151, R164). -/
def isEncoderCommand : Instr → Bool
  | .encStart | .encPoint _ _ _ | .encEnd => true
  | .qFromF32 _ | .hFromF32 _ | .qToF32 _ | .hToF32 _ | .qClass _ | .hClass _ | .qEncNan _ | .hEncNan _
  | .qDecNan _ | .hDecNan _ | .decStart | .decByte _ | .decEnd | .rdCsr _ => false

/-- The three commands of the decoder session (R180, R181, R190). -/
def isDecoderCommand : Instr → Bool
  | .decStart | .decByte _ | .decEnd => true
  | .qFromF32 _ | .hFromF32 _ | .qToF32 _ | .hToF32 _ | .qClass _ | .hClass _ | .qEncNan _ | .hEncNan _
  | .qDecNan _ | .hDecNan _ | .encStart | .encPoint _ _ _ | .encEnd | .rdCsr _ => false

/-- The `STATUS` values that are ever written (R231). -/
def legalStatuses : List Word := [0x00, 0x01, 0x02, 0x13, 0x23, 0x14, 0x24, 0x34, 0x44, 0x15, 0x25]

/-- How many bytes of the current record are collected in each decoder phase (R31, R192). -/
def decKOk (p : DecPhase) (k : Nat) : Prop :=
  match p with
  | .idle | .tag | .failed => k = 0
  | .base | .arec => k < 12
  | .qrec => 1 ≤ k ∧ k < 3
  | .hrec => k < 6

/-- What `DEC_FAIL` holds in each decoder phase (R32, R185, R190). -/
def decFailOk (p : DecPhase) (f : DecFail) : Prop :=
  match p with
  | .idle => True
  | .failed => f = .badEscape
  | .base | .tag | .qrec | .hrec | .arec => f = .none

/-- What the encoder's counters hold in each phase of an open session (R28, R30). -/
def encSessionOk (s : State) : Prop :=
  match s.encPhase with
  | .idle => True
  | .empty => s.encBase = ⟨0#32, 0#32, 0#32⟩ ∧ s.encNPts = 0#32 ∧ s.encNBytes = 0#32
  | .held => s.encNPts = 1#32 ∧ s.encNBytes = 0#32
  | .run => 2 ≤ s.encNPts.toNat ∧ 12 ≤ s.encNBytes.toNat

/-- What the decoder's counters hold in each phase of an open session (R31, R32). -/
def decSessionOk (s : State) : Prop :=
  match s.decPhase with
  | .idle => True
  | .base => s.decNPts = 0#32 ∧ s.decNBytes.toNat = s.decK
  | .tag => 1 ≤ s.decNPts.toNat ∧ 12 ≤ s.decNBytes.toNat
  | .qrec | .hrec | .arec | .failed => 1 ≤ s.decNPts.toNat ∧ 13 ≤ s.decNBytes.toNat

/-- The invariant of the block. -/
structure State.Inv (s : State) : Prop where
  /-- `STATUS` holds one of the values that are ever written (R231) -/
  status_legal : s.status ∈ legalStatuses
  /-- an error leaves `RESULT` 0 (R27, R232) -/
  error_result : s.status ≠ 0#32 → s.result = 0#32
  /-- the last response not yet taken carries `STATUS` and `RESULT` (R55) -/
  last_response : ∀ r, s.rsp.getLast? = some r → r = ⟨s.status, s.result⟩
  /-- `CMDBUF` never holds a complete command (R36) -/
  cmdBuf_waits : decode s.cmdBuf = .waiting
  /-- `DEC_K` fits the phase (R31) -/
  dec_k : decKOk s.decPhase s.decK
  /-- `DEC_FAIL` fits the phase (R32) -/
  dec_fail : decFailOk s.decPhase s.decFail
  /-- the encoder's counters fit its phase (R28, R30) -/
  enc_session : encSessionOk s
  /-- the decoder's counters fit its phase (R31, R32) -/
  dec_session : decSessionOk s

end Sys2Proof.Machine
end

