-- ==== Sys2Proof/Certificates/Slice0/Obligations.lean ====
section
/-! DEFINITION. The statements for the provers. Each docstring says which rules of spec/ the statement formalises. -/

open Sys2Proof Sys2Proof.Machine

/-! ### Encoding and the command port -/

/-- R83 to R88: decoding the words of a command, whatever follows them, gives the command back and leaves the rest. -/
def Obligations.DecodeOfEncodedCommand : Prop :=
  ∀ (i : Instr) (rest : List Word), decode (encode i ++ rest) = .command i rest

/-- R84, R90: words that decode to a command are exactly that command's encoding: no bit of a header is ignored. -/
def Obligations.EncodeOfDecodedCommand : Prop :=
  ∀ (ws : List Word) (i : Instr) (rest : List Word), decode ws = .command i rest → ws = encode i ++ rest

/-- R90, R212, R240 steps 1 to 3, against the match and mask columns of the opcode table: a complete command is
rejected for `RSV` first, then for an unassigned `OPC`, then for a must-be-zero bit of `IMM`, its operand words are
consumed, and a command that none of the three applies to is decoded. -/
def Obligations.HeaderChecksInOrder : Prop :=
  ∀ (h : Word) (ops rest : List Word), ops.length + 1 = commandLength h →
    (h.extractLsb' 24 8 ≠ 0#8 → decode (h :: ops ++ rest) = .illegal .badRsv rest) ∧
    (h.extractLsb' 24 8 = 0#8 → (∀ r ∈ headerRows, r.matchWord.extractLsb' 0 8 ≠ h.extractLsb' 0 8) →
      decode (h :: ops ++ rest) = .illegal .badOpc rest) ∧
    (h.extractLsb' 24 8 = 0#8 → (∃ r ∈ headerRows, r.matchWord.extractLsb' 0 8 = h.extractLsb' 0 8) →
      headerLegal h = false → decode (h :: ops ++ rest) = .illegal .badImm rest) ∧
    (headerLegal h = true → ∃ i, decode (h :: ops ++ rest) = .command i rest)

/-- R84: the length of a command is decided by `OPC` alone: the length of the table row with that opcode, legal or not,
and one word for an unassigned opcode. -/
def Obligations.CommandLengthByOpcode : Prop :=
  ∀ h : Word,
    (∀ r ∈ headerRows, r.matchWord.extractLsb' 0 8 = h.extractLsb' 0 8 → commandLength h = r.words) ∧
    ((∀ r ∈ headerRows, r.matchWord.extractLsb' 0 8 ≠ h.extractLsb' 0 8) → commandLength h = 1)

/-- R88: some words of the encoding, written out from the opcode map, decode to what they stand for. -/
def Obligations.SampleWordsDecode : Prop :=
  decode [0x00000001#32, 0x3FC00000#32] = .command (.qFromF32 0x3FC00000#32) [] ∧
  decode [0x006C8004#32] = .command (.hToF32 0x6C80#16) [] ∧
  decode [0x0000E005#32] = .command (.qClass 0xE0#8) [] ∧
  decode [0x0000020A#32] = .command (.hDecNan 0x0002#16) [] ∧
  decode [0x00000011#32, 1#32, 2#32, 3#32, 0x00000012#32] = .command (.encPoint 1#32 2#32 3#32) [0x00000012#32] ∧
  decode [0x00006219#32] = .command (.decByte 0x62#8) [] ∧
  decode [0x00000F20#32] = .command (.rdCsr 0x000F#16) [] ∧
  decode [0x00000111#32, 0#32, 0#32, 0#32] = .illegal .badImm []

/-- R212: when the words in `CMDBUF` and on the port decode to a command and the words after it, the step is that command's
execution with those words consumed. -/
def Obligations.StepRunsDecodedCommand : Prop :=
  ∀ (s : State) (i : Instr) (rest : List Word),
    decode (s.cmdBuf ++ s.port) = .command i rest →
      step s = exec i { s with cmdBuf := [], port := rest }

/-- R90, R232, R233: a complete illegal command raises `E_ILLEGAL` with its cause and changes nothing but `STATUS`,
`RESULT` and `RSP`; its words are consumed. -/
def Obligations.IllegalHeaderRaises : Prop :=
  ∀ (s : State) (c : IllegalCause) (rest : List Word), decode (s.cmdBuf ++ s.port) = .illegal c rest →
    ∃ t, step s = .next t ∧ SameEncoder s t ∧ SameDecoder s t ∧ t.cmdBuf = [] ∧ t.port = rest ∧
      Answers s t
        (match c with | .badOpc => 0x14#32 | .badRsv => 0x24#32 | .badImm => 0x34#32 | .badCsr => 0x44#32) 0#32

/-- R36, R250: while a command's words have not all arrived, a step only takes them into `CMDBUF`; with no word at all
the block keeps its whole state. That one step takes all of them is the model's choice, log entry 2. -/
def Obligations.IncompleteCommandWaits : Prop :=
  (∀ (s : State) (h : Word) (ws : List Word), s.cmdBuf ++ s.port = h :: ws → ws.length + 1 < commandLength h →
    step s = .next { s with cmdBuf := s.cmdBuf ++ s.port, port := [] }) ∧
  (∀ s : State, s.cmdBuf = [] → s.port = [] → step s = .next s)

/-- R36, R61: a command whose words arrive in pieces has the effect it has when they arrive together. -/
def Obligations.PiecewiseDeliverySameEffect : Prop :=
  ∀ (s : State) (ws vs : List Word), decode (s.words ++ ws) = .waiting →
    ∃ t, step (s.deliver ws) = .next t ∧ step (t.deliver vs) = step (s.deliver (ws ++ vs))

/-- The model's choice (log entries 1 and 17): withFetchWord places the words of a table row so that the very next step
runs its instruction, with the rest of the state as it was. -/
def Obligations.FetchWordRunsInstruction : Prop :=
  ∀ (s : State) (nbits w : Nat) (i : Instr), decodeTableWord nbits w = some i →
    step (s.withFetchWord nbits w) = exec i { s with cmdBuf := [] }

/-! ### Converters -/

/-- R100, R103, R106, R107, R109, R120: `Q_FROM_F32` answers `OK` and `Q.FromFloat` of its operand, zero extended, for
every operand, and changes nothing else; a NaN gives the NaN of its sign, a magnitude from 3.96875 up to infinity the
infinity, a magnitude below 0.031005859375 the zero, and any other a finite value that is not zero. -/
def Obligations.QuarterFromF32Completes : Prop :=
  ∀ (a : Word) (s : State), ∃ t, exec (.qFromF32 a) s = .next t ∧ OnlyAnswers s t 0#32 t.result ∧
    t.result = (qFromFloat a).setWidth 32 ∧
    let m := (a.extractLsb' 0 31).toNat
    let sg := (a.extractLsb' 31 1).toNat * 0x80
    (0x7F800000 < m → t.result.toNat = 0x70 + sg) ∧
    (0x407E0000 ≤ m → m ≤ 0x7F800000 → t.result.toNat = 0x60 + sg) ∧
    (m < 0x3CFE0000 → t.result.toNat = sg) ∧
    (0x3CFE0000 ≤ m → m < 0x407E0000 → 0x01 + sg ≤ t.result.toNat ∧ t.result.toNat ≤ 0x5F + sg)

/-- R100, R103, R106, R107, R109, R121: the same for `H_FROM_F32`, with 255.96875 and 7.6284632086753845e-06. -/
def Obligations.HalfFromF32Completes : Prop :=
  ∀ (a : Word) (s : State), ∃ t, exec (.hFromF32 a) s = .next t ∧ OnlyAnswers s t 0#32 t.result ∧
    t.result = (hFromFloat a).setWidth 32 ∧
    let m := (a.extractLsb' 0 31).toNat
    let sg := (a.extractLsb' 31 1).toNat * 0x8000
    (0x7F800000 < m → t.result.toNat = 0x7C00 + sg) ∧
    (0x437FF800 ≤ m → m ≤ 0x7F800000 → t.result.toNat = 0x7800 + sg) ∧
    (m < 0x36FFF800 → t.result.toNat = sg) ∧
    (0x36FFF800 ≤ m → m < 0x437FF800 → 0x0001 + sg ≤ t.result.toNat ∧ t.result.toNat ≤ 0x77FF + sg)

/-- R102, R103: in the normal range `Q.FromFloat` gives the nearest finite Quarter value, ties away from zero. -/
def Obligations.QuarterRoundsNearestAway : Prop :=
  ∀ (a : Word) (n : Byte), 0x3F7E0000 ≤ (a.extractLsb' 0 31).toNat → (a.extractLsb' 0 31).toNat < 0x407E0000 →
    narrowExp Config.quarter n.toNat ≠ 3 →
    let v := f32Scaled a
    let q := narrowScaled Config.quarter (qFromFloat a).toNat
    let w := narrowScaled Config.quarter n.toNat
    (v - q).natAbs ≤ (v - w).natAbs ∧ ((v - q).natAbs = (v - w).natAbs → w.natAbs ≤ q.natAbs)

/-- R102, R103: in the normal range `H.FromFloat` gives the nearest finite Half value, ties away from zero. -/
def Obligations.HalfRoundsNearestAway : Prop :=
  ∀ (a : Word) (n : Half), 0x3C7FF800 ≤ (a.extractLsb' 0 31).toNat → (a.extractLsb' 0 31).toNat < 0x437FF800 →
    narrowExp Config.half n.toNat ≠ 15 →
    let v := f32Scaled a
    let h := narrowScaled Config.half (hFromFloat a).toNat
    let w := narrowScaled Config.half n.toNat
    (v - h).natAbs ≤ (v - w).natAbs ∧ ((v - h).natAbs = (v - w).natAbs → w.natAbs ≤ h.natAbs)

/-- R104: below the smallest magnitude that rounds to a normal value, the result is the magnitude rounded to `M` mantissa
bits (a half up, as in R101) with everything below one denormal step cut off, and it is zero exactly below the bounds of
the rule. -/
def Obligations.DenormalResultsTruncate : Prop :=
  (∀ a : Word, (a.extractLsb' 0 31).toNat < 0x3F7E0000 →
    let rounded := f32Mag (BitVec.ofNat 32 (((a.extractLsb' 0 31).toNat + 2 ^ 17) / 2 ^ 18 * 2 ^ 18))
    narrowMag Config.quarter (qFromFloat a).toNat = rounded / 2 ^ 144 * 2 ^ 144 ∧
    (narrowMag Config.quarter (qFromFloat a).toNat = 0 ↔ (a.extractLsb' 0 31).toNat < 0x3CFE0000)) ∧
  (∀ a : Word, (a.extractLsb' 0 31).toNat < 0x3C7FF800 →
    let rounded := f32Mag (BitVec.ofNat 32 (((a.extractLsb' 0 31).toNat + 2 ^ 11) / 2 ^ 12 * 2 ^ 12))
    narrowMag Config.half (hFromFloat a).toNat = rounded / 2 ^ 132 * 2 ^ 132 ∧
    (narrowMag Config.half (hFromFloat a).toNat = 0 ↔ (a.extractLsb' 0 31).toNat < 0x36FFF800))

/-- R114, R169, the part about quantization: below the overflow bound the distance of a value from what `FromFloat`
makes of it is less than one step of the result, and at most half a step when the result is normal. -/
def Obligations.QuantizationErrorBounded : Prop :=
  (∀ a : Word, (a.extractLsb' 0 31).toNat < 0x407E0000 →
    let q := (qFromFloat a).toNat
    let err := (f32Scaled a - narrowScaled Config.quarter q).natAbs
    let gap := 2 ^ (149 + max (narrowExp Config.quarter q) 1 - 1 - 5)
    err < gap ∧ (1 ≤ narrowExp Config.quarter q → 2 * err ≤ gap)) ∧
  (∀ a : Word, (a.extractLsb' 0 31).toNat < 0x437FF800 →
    let h := (hFromFloat a).toNat
    let err := (f32Scaled a - narrowScaled Config.half h).natAbs
    let gap := 2 ^ (149 + max (narrowExp Config.half h) 1 - 7 - 11)
    err < gap ∧ (1 ≤ narrowExp Config.half h → 2 * err ≤ gap))

/-- R72, R111, R112, R122: `Q_TO_F32` answers `OK` for every operand and changes nothing else; a finite operand gives an
f32 of exactly its value and its sign, never a subnormal, an infinity gives the infinity of its sign, and a NaN the f32
NaN with its sign and its mantissa left-aligned. -/
def Obligations.QuarterToF32Completes : Prop :=
  ∀ (q : Byte) (s : State), ∃ t, exec (.qToF32 q) s = .next t ∧ OnlyAnswers s t 0#32 t.result ∧
    t.result = qToFloat q ∧
    let e := (q.extractLsb' 5 2).toNat
    let m := (q.extractLsb' 0 5).toNat
    f32Sign t.result = (q.extractLsb' 7 1).toNat ∧
    (e < 3 → f32Exp t.result < 255 ∧ f32Scaled t.result = narrowScaled Config.quarter q.toNat ∧
      (f32Exp t.result = 0 → f32Frac t.result = 0)) ∧
    (e = 3 → f32Exp t.result = 255 ∧ f32Frac t.result = m * 2 ^ 18)

/-- R72, R111, R112, R123: the same for `H_TO_F32`. -/
def Obligations.HalfToF32Completes : Prop :=
  ∀ (h : Half) (s : State), ∃ t, exec (.hToF32 h) s = .next t ∧ OnlyAnswers s t 0#32 t.result ∧
    t.result = hToFloat h ∧
    let e := (h.extractLsb' 11 4).toNat
    let m := (h.extractLsb' 0 11).toNat
    f32Sign t.result = (h.extractLsb' 15 1).toNat ∧
    (e < 15 → f32Exp t.result < 255 ∧ f32Scaled t.result = narrowScaled Config.half h.toNat ∧
      (f32Exp t.result = 0 → f32Frac t.result = 0)) ∧
    (e = 15 → f32Exp t.result = 255 ∧ f32Frac t.result = m * 2 ^ 12)

/-- R113: `FromFloat` inverts `ToFloat` on every pattern that is not a NaN, and gives the NaN of the sign on those that
are, for both formats. -/
def Obligations.FromFloatInvertsToFloat : Prop :=
  (∀ q : Byte, qFromFloat (qToFloat q) = if qIsNaN q then q &&& 0x80#8 ||| 0x70#8 else q) ∧
  (∀ h : Half, hFromFloat (hToFloat h) =
    if narrowIsNaN Config.half h.toNat then h &&& 0x8000#16 ||| 0x7C00#16 else h)

/-! ### Predicates and the NaN channel -/

/-- R73, R74, R132, R138, R139: `Q_CLASS` and `H_CLASS` answer `OK` for every operand, change nothing else, and give the
predicate bits of the class that the pattern's range has. -/
def Obligations.ClassCommandsComplete : Prop :=
  (∀ (q : Byte) (s : State), ∃ t, exec (.qClass q) s = .next t ∧ OnlyAnswers s t 0#32 t.result ∧
    let m := q.toNat % 0x80
    (q = 0x00#8 → t.result = 0x03#32) ∧ (q = 0x80#8 → t.result = 0x05#32) ∧
    (q = 0x60#8 → t.result = 0x18#32) ∧ (q = 0xE0#8 → t.result = 0x28#32) ∧
    (0x61 ≤ m → t.result = 0x40#32) ∧ (0x01 ≤ m → m ≤ 0x1F → t.result = 0x80#32) ∧
    (0x20 ≤ m → m ≤ 0x5F → t.result = 0#32)) ∧
  (∀ (h : Half) (s : State), ∃ t, exec (.hClass h) s = .next t ∧ OnlyAnswers s t 0#32 t.result ∧
    let m := h.toNat % 0x8000
    (h = 0x0000#16 → t.result = 0x03#32) ∧ (h = 0x8000#16 → t.result = 0x05#32) ∧
    (h = 0x7800#16 → t.result = 0x18#32) ∧ (h = 0xF800#16 → t.result = 0x28#32) ∧
    (0x7801 ≤ m → t.result = 0x40#32) ∧ (0x0001 ≤ m → m ≤ 0x07FF → t.result = 0x80#32) ∧
    (0x0800 ≤ m → m ≤ 0x77FF → t.result = 0#32))

/-- R133 to R135, R140, R141: `Q_ENC_NAN` of a code below 63 and `H_ENC_NAN` of a code below 4095 answer `OK` and change
nothing else; the result is the NaN pattern of `code + 1`, and the negative infinity for 31 and 2047. -/
def Obligations.EncNanCommandsComplete : Prop :=
  (∀ (code : BitVec 16) (s : State), code.toNat < 63 →
    ∃ t, exec (.qEncNan code) s = .next t ∧ OnlyAnswers s t 0#32 t.result ∧
      (∃ q, qEncodeNaN code.toNat = some q ∧ t.result = q.setWidth 32) ∧
      (code.toNat ≤ 30 → t.result.toNat = 0x61 + code.toNat) ∧
      (31 ≤ code.toNat → t.result.toNat = 0xE0 + (code.toNat - 31))) ∧
  (∀ (code : BitVec 16) (s : State), code.toNat < 4095 →
    ∃ t, exec (.hEncNan code) s = .next t ∧ OnlyAnswers s t 0#32 t.result ∧
      (∃ h, hEncodeNaN code.toNat = some h ∧ t.result = h.setWidth 32) ∧
      (code.toNat ≤ 2046 → t.result.toNat = 0x7801 + code.toNat) ∧
      (2047 ≤ code.toNat → t.result.toNat = 0xF800 + (code.toNat - 2047)))

/-- R136, R142, R143: `Q_DEC_NAN` and `H_DEC_NAN` of a NaN pattern answer `OK` with its escape code and change nothing
else. -/
def Obligations.DecNanCommandsComplete : Prop :=
  (∀ (q : Byte) (s : State),
    (0x61 ≤ q.toNat → q.toNat ≤ 0x7F → exec (.qDecNan q) s = .next (s.complete (BitVec.ofNat 32 (q.toNat - 0x61)))) ∧
    (0xE1 ≤ q.toNat → exec (.qDecNan q) s = .next (s.complete (BitVec.ofNat 32 (q.toNat - 0xE1 + 32)))) ∧
    (∀ c, qDecodeNaN q = some c → exec (.qDecNan q) s = .next (s.complete (BitVec.ofNat 32 c)))) ∧
  (∀ (h : Half) (s : State),
    (0x7801 ≤ h.toNat → h.toNat ≤ 0x7FFF →
      exec (.hDecNan h) s = .next (s.complete (BitVec.ofNat 32 (h.toNat - 0x7801)))) ∧
    (0xF801 ≤ h.toNat → exec (.hDecNan h) s = .next (s.complete (BitVec.ofNat 32 (h.toNat - 0xF801 + 2048)))) ∧
    (∀ c, hDecodeNaN h = some c → exec (.hDecNan h) s = .next (s.complete (BitVec.ofNat 32 c)))) ∧
  (∀ (s : State) (r : Word), OnlyAnswers s (s.complete r) 0#32 r)

/-- R234, R235: `E_RANGE` is raised for exactly the codes from 63 (Quarter) and 4095 (Half), `E_STATE` for exactly the
patterns that are not NaN; nothing else changes. -/
def Obligations.NanChannelErrors : Prop :=
  (∀ (code : BitVec 16) (s : State), ∃ t, exec (.qEncNan code) s = .next t ∧
    (63 ≤ code.toNat → OnlyAnswers s t 0x01#32 0#32) ∧ (code.toNat < 63 → t.status = 0#32)) ∧
  (∀ (code : BitVec 16) (s : State), ∃ t, exec (.hEncNan code) s = .next t ∧
    (4095 ≤ code.toNat → OnlyAnswers s t 0x01#32 0#32) ∧ (code.toNat < 4095 → t.status = 0#32)) ∧
  (∀ (q : Byte) (s : State), ∃ t, exec (.qDecNan q) s = .next t ∧
    (q.toNat % 0x80 ≤ 0x60 → OnlyAnswers s t 0x02#32 0#32) ∧ (0x60 < q.toNat % 0x80 → t.status = 0#32)) ∧
  (∀ (h : Half) (s : State), ∃ t, exec (.hDecNan h) s = .next t ∧
    (h.toNat % 0x8000 ≤ 0x7800 → OnlyAnswers s t 0x02#32 0#32) ∧ (0x7800 < h.toNat % 0x8000 → t.status = 0#32))

/-- R137: `DecodeNaN` undoes `EncodeNaN` on every accepted code but 31 (Quarter) and 2047 (Half), and `EncodeNaN` undoes
`DecodeNaN` on every NaN pattern. -/
def Obligations.NanChannelRoundTrip : Prop :=
  (∀ code : Nat, code < 63 → code ≠ 31 → ∃ q, qEncodeNaN code = some q ∧ qDecodeNaN q = some code) ∧
  (∀ code : Nat, code < 4095 → code ≠ 2047 → ∃ h, hEncodeNaN code = some h ∧ hDecodeNaN h = some code) ∧
  (∀ q : Byte, qIsNaN q = true → ∃ code, qDecodeNaN q = some code ∧ qEncodeNaN code = some q) ∧
  (∀ h : Half, narrowIsNaN Config.half h.toNat = true →
    ∃ code, hDecodeNaN h = some code ∧ hEncodeNaN code = some h)

/-! ### The encoder -/

/-- R150: `ENC_START` opens a session in every phase: baseline and counters are cleared, bytes already appended stay in
`OBS`, and the decoder is not touched. -/
def Obligations.EncStartOpensSession : Prop :=
  ∀ s : State, ∃ t, exec .encStart s = .next t ∧ Answers s t 0#32 0#32 ∧ SameDecoder s t ∧ SamePort s t ∧
    t.encPhase = .empty ∧ t.encBase = ⟨0#32, 0#32, 0#32⟩ ∧ t.encNPts = 0#32 ∧ t.encNBytes = 0#32 ∧ t.obs = s.obs

/-- R237: the commands that need an open session raise `E_SEQUENCE` without one and change nothing else; `ENC_START` and
`DEC_START` never do. -/
def Obligations.SessionCommandsNeedSession : Prop :=
  (∀ (s : State) (x y z : Word), s.encPhase = .idle →
    ∃ t, exec (.encPoint x y z) s = .next t ∧ OnlyAnswers s t 0x15#32 0#32) ∧
  (∀ s : State, s.encPhase = .idle → ∃ t, exec .encEnd s = .next t ∧ OnlyAnswers s t 0x15#32 0#32) ∧
  (∀ (s : State) (b : Byte), s.decPhase = .idle →
    ∃ t, exec (.decByte b) s = .next t ∧ OnlyAnswers s t 0x25#32 0#32) ∧
  (∀ s : State, s.decPhase = .idle → ∃ t, exec .decEnd s = .next t ∧ OnlyAnswers s t 0x25#32 0#32) ∧
  (∀ s : State, ∃ t u, exec .encStart s = .next t ∧ t.status = 0#32 ∧ t.encPhase = .empty ∧
    exec .decStart s = .next u ∧ u.status = 0#32 ∧ u.decPhase = .base)

/-- R152: the first point of a session is copied into the baseline, nothing is appended, and the tier reported is
`HELD` with 0 bytes. -/
def Obligations.FirstPointHeld : Prop :=
  ∀ (s : State) (x y z : Word), s.encPhase = .empty →
    ∃ t, exec (.encPoint x y z) s = .next t ∧ Answers s t 0#32 0#32 ∧ SameDecoder s t ∧ SamePort s t ∧
      t.encPhase = .held ∧ t.encBase = ⟨x, y, z⟩ ∧ t.encNPts = satAdd s.encNPts 1 ∧ t.encNBytes = s.encNBytes ∧
      t.obs = s.obs

/-- R154, R160: a point whose three deltas are zero, of either sign, appends nothing and leaves the baseline; it still
counts as a point. -/
def Obligations.EncPointElided : Prop :=
  ∀ (s : State) (x y z : Word), s.encPhase = .run →
    (f32Sub x s.encBase.x).extractLsb' 0 31 = 0#31 → (f32Sub y s.encBase.y).extractLsb' 0 31 = 0#31 →
    (f32Sub z s.encBase.z).extractLsb' 0 31 = 0#31 →
    ∃ t, exec (.encPoint x y z) s = .next t ∧ Answers s t 0#32 0x001#32 ∧ SameDecoder s t ∧ SamePort s t ∧
      t.encPhase = .run ∧ t.encBase = s.encBase ∧ t.encNPts = satAdd s.encNPts 1 ∧ t.encNBytes = s.encNBytes ∧
      t.obs = s.obs

/-- R155, R157: a point that is not elided and whose quantized Quarter deltas have no infinity appends the three Quarter
bytes, and the baseline advances by the quantized deltas. -/
def Obligations.EncPointQuarterTier : Prop :=
  ∀ (s : State) (x y z : Word), s.encPhase = .run →
    let d : Point := ⟨f32Sub x s.encBase.x, f32Sub y s.encBase.y, f32Sub z s.encBase.z⟩
    let q0 := qFromFloat d.x
    let q1 := qFromFloat d.y
    let q2 := qFromFloat d.z
    (d.x.extractLsb' 0 31 ≠ 0#31 ∨ d.y.extractLsb' 0 31 ≠ 0#31 ∨ d.z.extractLsb' 0 31 ≠ 0#31) →
    (∀ q ∈ [q0, q1, q2], q ≠ 0x60#8 ∧ q ≠ 0xE0#8) →
    ∃ t, exec (.encPoint x y z) s = .next t ∧ Answers s t 0#32 0x302#32 ∧ SameDecoder s t ∧ SamePort s t ∧
      t.encPhase = .run ∧ t.encNPts = satAdd s.encNPts 1 ∧ t.encNBytes = satAdd s.encNBytes 3 ∧
      t.obs = s.obs ++ [q0, q1, q2] ∧
      t.encBase = ⟨f32Add s.encBase.x (qToFloat q0), f32Add s.encBase.y (qToFloat q1),
                   f32Add s.encBase.z (qToFloat q2)⟩

/-- R156, R158: when some Quarter delta is an infinity and no Half delta is, the point appends `0x63` and the three Half
deltas low byte first, and the baseline advances by the quantized Half deltas. -/
def Obligations.EncPointHalfTier : Prop :=
  ∀ (s : State) (x y z : Word), s.encPhase = .run →
    let d : Point := ⟨f32Sub x s.encBase.x, f32Sub y s.encBase.y, f32Sub z s.encBase.z⟩
    let h0 := hFromFloat d.x
    let h1 := hFromFloat d.y
    let h2 := hFromFloat d.z
    (∃ q ∈ [qFromFloat d.x, qFromFloat d.y, qFromFloat d.z], q = 0x60#8 ∨ q = 0xE0#8) →
    (∀ h ∈ [h0, h1, h2], h ≠ 0x7800#16 ∧ h ≠ 0xF800#16) →
    ∃ t, exec (.encPoint x y z) s = .next t ∧ Answers s t 0#32 0x703#32 ∧ SameDecoder s t ∧ SamePort s t ∧
      t.encPhase = .run ∧ t.encNPts = satAdd s.encNPts 1 ∧ t.encNBytes = satAdd s.encNBytes 7 ∧
      t.obs = s.obs ++ [0x63#8, h0.extractLsb' 0 8, h0.extractLsb' 8 8, h1.extractLsb' 0 8, h1.extractLsb' 8 8,
                        h2.extractLsb' 0 8, h2.extractLsb' 8 8] ∧
      t.encBase = ⟨f32Add s.encBase.x (hToFloat h0), f32Add s.encBase.y (hToFloat h1),
                   f32Add s.encBase.z (hToFloat h2)⟩

/-- R159: when some delta overflows even the Half tier, the point appends `0x62` and its three f32 patterns low byte
first, copied exactly, and becomes the baseline. -/
def Obligations.EncPointAbsoluteTier : Prop :=
  ∀ (s : State) (x y z : Word), s.encPhase = .run →
    (∃ h ∈ [hFromFloat (f32Sub x s.encBase.x), hFromFloat (f32Sub y s.encBase.y), hFromFloat (f32Sub z s.encBase.z)],
      h = 0x7800#16 ∨ h = 0xF800#16) →
    ∃ t, exec (.encPoint x y z) s = .next t ∧ Answers s t 0#32 0xD04#32 ∧ SameDecoder s t ∧ SamePort s t ∧
      t.encPhase = .run ∧ t.encNPts = satAdd s.encNPts 1 ∧ t.encNBytes = satAdd s.encNBytes 13 ∧
      t.encBase = ⟨x, y, z⟩ ∧
      t.obs = s.obs ++ [0x62#8] ++ [x, y, z].flatMap fun v =>
        [v.extractLsb' 0 8, v.extractLsb' 8 8, v.extractLsb' 16 8, v.extractLsb' 24 8]

/-- R163: the second point of a session appends the held first point's bits, low byte first, and then the record it
would append in phase `RUN`, in one append; its result adds the header flag and 12 bytes. -/
def Obligations.SecondPointEmitsHeader : Prop :=
  ∀ (s : State) (x y z : Word), s.encPhase = .held →
    ∃ t u rec, exec (.encPoint x y z) s = .next t ∧ exec (.encPoint x y z) { s with encPhase := .run } = .next u ∧
      u.obs = s.obs ++ rec ∧ rec.length ∈ [0, 3, 7, 13] ∧
      t.obs = s.obs ++ ([s.encBase.x, s.encBase.y, s.encBase.z].flatMap fun v =>
        [v.extractLsb' 0 8, v.extractLsb' 8 8, v.extractLsb' 16 8, v.extractLsb' 24 8]) ++ rec ∧
      Answers s t 0#32 (u.result + 0xC08#32) ∧ t.encPhase = .run ∧ t.encBase = u.encBase ∧ t.encNPts = u.encNPts ∧
      t.encNBytes = satAdd s.encNBytes (12 + rec.length) ∧ SameDecoder s t ∧ SamePort s t

/-- R168, R238: every point is accepted while a session is open, and its result and the number of bytes it appends are
one of the rows of R168. -/
def Obligations.EncPointResultTable : Prop :=
  ∀ (s : State) (x y z : Word), s.encPhase ≠ .idle →
    ∃ t bytes, exec (.encPoint x y z) s = .next t ∧ t.obs = s.obs ++ bytes ∧ t.status = 0#32 ∧
      (t.result.toNat, bytes.length) ∈
        (match s.encPhase with
         | .idle => []
         | .empty => [(0x0000, 0)]
         | .held => [(0x0C09, 12), (0x0F0A, 15), (0x130B, 19), (0x190C, 25)]
         | .run => [(0x0001, 0), (0x0302, 3), (0x0703, 7), (0x0D04, 13)])

/-- R155, R156, the sentences on magnitudes: with no NaN delta, the tier is decided by the largest delta magnitude, at
the bounds 3.96875 and 255.96875. -/
def Obligations.TierByDeltaMagnitude : Prop :=
  ∀ B P : Point,
    let m := fun d : Word => (d.extractLsb' 0 31).toNat
    let d := pointDelta B P
    let top := max (m d.x) (max (m d.y) (m d.z))
    top ≤ 0x7F800000 →
    (encodeRecord B P).tier =
      if top = 0 then .elided else if top < 0x407E0000 then .quarter
      else if top < 0x437FF800 then .half else .absolute

/-- R164: `ENC_END` of an open session answers its byte count, closes it, appends nothing, and the baseline and the
counters keep their values. -/
def Obligations.EncEndReportsByteCount : Prop :=
  ∀ s : State, s.encPhase ≠ .idle →
    ∃ t, exec .encEnd s = .next t ∧ Answers s t 0#32 s.encNBytes ∧ SameDecoder s t ∧ SamePort s t ∧
      t.encPhase = .idle ∧ t.encBase = s.encBase ∧ t.encNPts = s.encNPts ∧ t.encNBytes = s.encNBytes ∧ t.obs = s.obs

/-- R165: for every point list, the session `ENC_START`, one `ENC_POINT` for each point, `ENC_END` appends to `OBS` the
source encoder's output for that list and answers its length. -/
def Obligations.EncoderSessionMatchesSource : Prop :=
  ∀ (s : State) (ps : List Point),
    ∃ t, runCommands (expandPseudo (.encode ps)) s = .next t ∧ t.obs = s.obs ++ sourceEncode ps ∧ t.status = 0#32 ∧
      t.result = sat32 (sourceEncode ps).length ∧ t.encPhase = .idle ∧ SameDecoder s t ∧ SamePort s t

/-! ### The decoder -/

/-- R180: `DEC_START` opens a session in every phase: baseline, buffer, counters and failure are cleared, points already
appended stay in `OPS`, and the encoder is not touched. -/
def Obligations.DecStartOpensSession : Prop :=
  ∀ s : State, ∃ t, exec .decStart s = .next t ∧ Answers s t 0#32 0#32 ∧ SameEncoder s t ∧ SamePort s t ∧
    t.decPhase = .base ∧ t.decK = 0 ∧ (∀ k : Fin 12, t.decBuf[k] = 0#8) ∧ t.decFail = .none ∧
    t.decBase = ⟨0#32, 0#32, 0#32⟩ ∧ t.decNPts = 0#32 ∧ t.decNBytes = 0#32 ∧ t.ops = s.ops

/-- R184, R185: a tag byte that is not a NaN pattern starts a Quarter record and is its x delta, `0x62` starts an
absolute record, `0x63` a Half record, and any other NaN pattern fails the session; none appends a point. -/
def Obligations.DecByteTag : Prop :=
  ∀ (s : State) (b : Byte), s.decPhase = .tag →
    ∃ t, exec (.decByte b) s = .next t ∧ SameEncoder s t ∧ SamePort s t ∧ t.decBase = s.decBase ∧
      t.decNPts = s.decNPts ∧ t.ops = s.ops ∧ t.decNBytes = satAdd s.decNBytes 1 ∧
      (∀ k : Fin 12, k.val ≠ 0 → t.decBuf[k] = s.decBuf[k]) ∧
      (b.toNat % 0x80 ≤ 0x60 → Answers s t 0#32 0#32 ∧ t.decPhase = .qrec ∧ t.decK = 1 ∧ t.decBuf[0] = b ∧
        t.decFail = s.decFail) ∧
      (b = 0x62#8 → Answers s t 0#32 0#32 ∧ t.decPhase = .arec ∧ t.decK = 0 ∧ t.decBuf = s.decBuf ∧
        t.decFail = s.decFail) ∧
      (b = 0x63#8 → Answers s t 0#32 0#32 ∧ t.decPhase = .hrec ∧ t.decK = 0 ∧ t.decBuf = s.decBuf ∧
        t.decFail = s.decFail) ∧
      (0x61 ≤ b.toNat % 0x80 → b ≠ 0x62#8 → b ≠ 0x63#8 →
        Answers s t 0x13#32 0#32 ∧ t.decPhase = .failed ∧ t.decFail = .badEscape ∧ t.decBuf = s.decBuf ∧
        t.decK = s.decK)

/-- R181, R182: a byte of a record body that is not its last changes only `DEC_BUF[DEC_K]`, `DEC_K`, the byte count and
the answer. -/
def Obligations.DecByteCollects : Prop :=
  ∀ (s : State) (b : Byte) (need : Nat),
    (s.decPhase, need) ∈ [(DecPhase.base, 12), (DecPhase.qrec, 3), (DecPhase.hrec, 6), (DecPhase.arec, 12)] →
    s.decK + 1 < need →
    ∃ t, exec (.decByte b) s = .next t ∧ Answers s t 0#32 0#32 ∧ SameEncoder s t ∧ SamePort s t ∧
      t.decPhase = s.decPhase ∧ t.decK = s.decK + 1 ∧ t.decFail = s.decFail ∧ t.decBase = s.decBase ∧
      t.decNPts = s.decNPts ∧ t.ops = s.ops ∧ t.decNBytes = satAdd s.decNBytes 1 ∧
      ∀ k : Fin 12, t.decBuf[k] = if k.val = s.decK then b else s.decBuf[k]

/-- R183, R186, R187, R188, R194: the last byte of a record makes the new baseline (the three little-endian f32 fields
for the header and an absolute record, the old baseline plus the three deltas for a Quarter or a Half record), appends it
to `OPS`, counts it, answers with the record's kind, and the next byte is a tag. -/
def Obligations.DecByteCompletesRecord : Prop :=
  ∀ (s : State) (b : Byte),
    let f := s.decBuf
    let w := fun b0 b1 b2 b3 : Byte => (b3 ++ b2 ++ b1 ++ b0 : Word)
    let h := fun b0 b1 : Byte => hToFloat (b1 ++ b0)
    let done := fun (r : Word) (B : Point) =>
      ∃ t, exec (.decByte b) s = .next t ∧ Answers s t 0#32 r ∧ SameEncoder s t ∧ SamePort s t ∧
        t.decPhase = .tag ∧ t.decK = 0 ∧ t.decFail = s.decFail ∧ t.decBase = B ∧ t.ops = s.ops ++ [B] ∧
        t.decNPts = satAdd s.decNPts 1 ∧ t.decNBytes = satAdd s.decNBytes 1 ∧
        ∀ k : Fin 12, t.decBuf[k] = if k.val = s.decK then b else s.decBuf[k]
    (s.decPhase = .base → s.decK = 11 →
      done 0x03#32 ⟨w f[0] f[1] f[2] f[3], w f[4] f[5] f[6] f[7], w f[8] f[9] f[10] b⟩) ∧
    (s.decPhase = .qrec → s.decK = 2 →
      done 0x05#32 ⟨f32Add s.decBase.x (qToFloat f[0]), f32Add s.decBase.y (qToFloat f[1]),
                    f32Add s.decBase.z (qToFloat b)⟩) ∧
    (s.decPhase = .hrec → s.decK = 5 →
      done 0x07#32 ⟨f32Add s.decBase.x (h f[0] f[1]), f32Add s.decBase.y (h f[2] f[3]),
                    f32Add s.decBase.z (h f[4] b)⟩) ∧
    (s.decPhase = .arec → s.decK = 11 →
      done 0x09#32 ⟨w f[0] f[1] f[2] f[3], w f[4] f[5] f[6] f[7], w f[8] f[9] f[10] b⟩)

/-- R189: every byte of a failed session only counts, and raises `E_CORRUPT` with the recorded cause. -/
def Obligations.DecByteAfterFailure : Prop :=
  ∀ (s : State) (b : Byte), s.decPhase = .failed →
    ∃ t, exec (.decByte b) s = .next t ∧
      Answers s t (match s.decFail with | .none => 0x03#32 | .badEscape => 0x13#32 | .truncated => 0x23#32) 0#32 ∧
      SameEncoder s t ∧ SamePort s t ∧ t.decNBytes = satAdd s.decNBytes 1 ∧
      SameDecoder { s with decNBytes := satAdd s.decNBytes 1 } t

/-- R190, R192: `DEC_END` answers the point count at a record boundary and for an empty stream, raises `TRUNCATED` inside
a record and the recorded cause for a failed session; the session is closed in every case, and the baseline and the
counters keep their values. -/
def Obligations.DecEndOutcomes : Prop :=
  ∀ s : State, s.decPhase ≠ .idle →
    ∃ t, exec .decEnd s = .next t ∧ SameEncoder s t ∧ SamePort s t ∧ t.decPhase = .idle ∧ t.decK = 0 ∧
      t.decBase = s.decBase ∧ t.decBuf = s.decBuf ∧ t.decNPts = s.decNPts ∧ t.decNBytes = s.decNBytes ∧
      t.ops = s.ops ∧
      (s.decPhase = .tag ∨ (s.decPhase = .base ∧ s.decK = 0) →
        Answers s t 0#32 s.decNPts ∧ t.decFail = s.decFail) ∧
      (s.decPhase ∈ [DecPhase.qrec, DecPhase.hrec, DecPhase.arec] ∨ (s.decPhase = .base ∧ s.decK ≠ 0) →
        Answers s t 0x23#32 0#32 ∧ t.decFail = .truncated) ∧
      (s.decPhase = .failed →
        Answers s t (match s.decFail with | .none => 0x03#32 | .badEscape => 0x13#32 | .truncated => 0x23#32) 0#32 ∧
        t.decFail = s.decFail)

/-- R193: for every byte buffer, the session `DEC_START`, one `DEC_BYTE` for each byte, `DEC_END` ends `OK` exactly when
the source decoder returns a list, and has then appended that list; otherwise it ends `E_CORRUPT` with the source's
reason. -/
def Obligations.DecoderSessionMatchesSource : Prop :=
  ∀ (s : State) (bs : List Byte),
    ∃ t, runCommands (expandPseudo (.decode bs)) s = .next t ∧ SameEncoder s t ∧ SamePort s t ∧ t.decPhase = .idle ∧
      (∀ ps, sourceDecode bs = .ok ps → t.status = 0#32 ∧ t.result = sat32 ps.length ∧ t.ops = s.ops ++ ps) ∧
      (sourceDecode bs = .error .badEscape → t.status = 0x13#32 ∧ t.result = 0#32) ∧
      (sourceDecode bs = .error .truncated → t.status = 0x23#32 ∧ t.result = 0#32) ∧
      sourceDecode bs ≠ .error .none

/-- R161: with equal baselines, a decoder at a record boundary given the bytes that one point appended is again at a
record boundary, with the encoder's new baseline; it appended that baseline when there were bytes. The x delta is not a
NaN (R167). -/
def Obligations.BaselinesStayEqual : Prop :=
  ∀ (s : State) (x y z : Word), s.encPhase = .run → s.decPhase = .tag → s.decBase = s.encBase →
    f32IsNaN (f32Sub x s.encBase.x) = false →
    ∃ t u bytes, exec (.encPoint x y z) s = .next t ∧ t.obs = s.obs ++ bytes ∧
      runCommands (bytes.map .decByte) t = .next u ∧ u.decPhase = .tag ∧ u.decBase = t.encBase ∧
      u.encBase = t.encBase ∧ u.decFail = s.decFail ∧ u.ops = s.ops ++ if bytes = [] then [] else [t.encBase]

/-- R195: for two or more points with finite coordinates, decoding what the encoder appended ends `OK` and gives the
first point and then the encoder's baselines, those of elided points left out. -/
def Obligations.FiniteRoundTrip : Prop :=
  ∀ (s : State) (p : Point) (ps : List Point), ps ≠ [] →
    (∀ q ∈ p :: ps, f32Exp q.x ≠ 255 ∧ f32Exp q.y ≠ 255 ∧ f32Exp q.z ≠ 255) →
    ∃ e t, runCommands (expandPseudo (.encode (p :: ps))) s = .next e ∧
      runCommands (expandPseudo (.decode (e.obs.drop s.obs.length))) e = .next t ∧
      t.status = 0#32 ∧ t.ops = s.ops ++ p :: keptBaselines p ps ∧
      t.result = sat32 (1 + (keptBaselines p ps).length)

/-! ### Registers, errors, streams -/

/-- R33, R34, R35, R210: `RD_CSR` of each of the 16 registers answers `OK` with the value the register held before the
command, and changes nothing else. -/
def Obligations.RdCsrReadsRegister : Prop :=
  ∀ (s : State) (n : BitVec 16) (h : n.toNat < 16), s.decK < 16 →
    ∃ t, exec (.rdCsr n) s = .next t ∧ OnlyAnswers s t 0#32 t.result ∧
      t.result = [0x4E464331#32, s.status, s.result,
        match s.encPhase with | .idle => 0#32 | .empty => 1#32 | .held => 2#32 | .run => 3#32,
        s.encBase.x, s.encBase.y, s.encBase.z, s.encNPts, s.encNBytes,
        BitVec.ofNat 32
          ((match s.decPhase with
            | .idle => 0 | .base => 1 | .tag => 2 | .qrec => 3 | .hrec => 4 | .arec => 5 | .failed => 6) +
           16 * s.decK + 256 * match s.decFail with | .none => 0 | .badEscape => 1 | .truncated => 2),
        s.decBase.x, s.decBase.y, s.decBase.z, s.decNPts, s.decNBytes, 0x00080010#32][n.toNat]'h

/-- R211: `RD_CSR` of a reserved number raises `E_ILLEGAL` with cause `BAD_CSR` and changes nothing else. -/
def Obligations.RdCsrReservedRaises : Prop :=
  ∀ (s : State) (n : BitVec 16), 16 ≤ n.toNat →
    ∃ t, exec (.rdCsr n) s = .next t ∧ OnlyAnswers s t 0x44#32 0#32

/-- R55: every complete command, legal or not, appends exactly one response, with the values it wrote into `STATUS` and
`RESULT`. -/
def Obligations.OneResponsePerCommand : Prop :=
  ∀ s t : State, decode (s.cmdBuf ++ s.port) ≠ .waiting → step s = .next t →
    t.rsp = s.rsp ++ [⟨t.status, t.result⟩]

/-- R230, R239, the part that says the block goes on: every step answers a next state; the block never stops. -/
def Obligations.StepAlwaysAnswersNext : Prop :=
  ∀ s : State, ∃ t, step s = .next t

/-- R51, R53, R60: a command only appends to `OBS` and `OPS`; only `ENC_POINT` appends bytes, at most 25, and only
`DEC_BYTE` a point, at most one. -/
def Obligations.StreamsOnlyAppended : Prop :=
  ∀ (i : Instr) (s t : State), exec i s = .next t →
    ∃ bs ps, t.obs = s.obs ++ bs ∧ t.ops = s.ops ++ ps ∧
      bs.length ∈ [0, 3, 7, 12, 13, 15, 19, 25] ∧ ps.length ≤ 1 ∧
      (bs ≠ [] → ∃ x y z, i = .encPoint x y z) ∧ (ps ≠ [] → ∃ b, i = .decByte b)

/-- R232, R236: a command that ends with an error leaves `RESULT` 0, appends nothing to `OBS` or `OPS` and does not touch
the encoder session; an error other than `E_CORRUPT` does not touch the decoder session either, and only `DEC_BYTE` and
`DEC_END` end with `E_CORRUPT`. -/
def Obligations.ErrorsChangeNothingElse : Prop :=
  ∀ (i : Instr) (s t : State), exec i s = .next t → t.status ≠ 0#32 →
    t.result = 0#32 ∧ t.ops = s.ops ∧ SameEncoder s t ∧ SamePort s t ∧
    (t.status.extractLsb' 0 4 ≠ 3#4 → SameDecoder s t) ∧
    (t.status.extractLsb' 0 4 = 3#4 → (∃ b, i = .decByte b) ∨ i = .decEnd)

/-- R100, R130, R248: whatever other commands are interleaved, the encoder session goes as its own commands alone take
it, and the decoder session likewise. -/
def Obligations.SessionsAreIndependent : Prop :=
  (∀ (is : List Instr) (s s' : State), SameEncoder s s' →
    ∃ t t', runCommands is s = .next t ∧ runCommands (is.filter isEncoderCommand) s' = .next t' ∧ SameEncoder t t') ∧
  (∀ (is : List Instr) (s s' : State), SameDecoder s s' →
    ∃ t t', runCommands is s = .next t ∧ runCommands (is.filter isDecoderCommand) s' = .next t' ∧ SameDecoder t t')

/-- R66: a realisation with finite stream depths takes the step of the unbounded block exactly when each of its two
streams has room for all that step appends to it, a stream to which it appends nothing needing none, and otherwise holds
the command with no effect; with room for 25 bytes and one point it is not held, and no stream outgrows its depth. What a
held step leaves, and that only needed room holds it, is the model's choice, log entry 7. -/
def Obligations.FiniteDepthHoldsOrSteps : Prop :=
  ∀ (d : Depths) (s : State),
    (∀ t, step s = .next t →
      let room := (∀ n, d.obs = some n → t.obs = s.obs ∨ t.obs.length ≤ n) ∧
        (∀ n, d.ops = some n → t.ops = s.ops ∨ t.ops.length ≤ n)
      (room → issue d s = .next t) ∧ (¬room → issue d s = .next s)) ∧
    (issue d s = step s ∨ issue d s = .next s) ∧
    ((∀ n, d.obs = some n → s.obs.length + 25 ≤ n) → (∀ n, d.ops = some n → s.ops.length + 1 ≤ n) →
      issue d s = step s) ∧
    (∀ t n, issue d s = .next t → d.obs = some n → s.obs.length ≤ n → t.obs.length ≤ n) ∧
    (∀ t n, issue d s = .next t → d.ops = some n → s.ops.length ≤ n → t.ops.length ≤ n)

/-- R58: on a byte-wide link each word goes least significant byte first, in both directions: command words delivered so
arrive as they were sent, and a response (`STATUS`, `RESULT`) or a point (x, y, z) taken so leaves as its words' bytes and
is the front of its stream. The grouping of the link's bytes into words and the order of a response's two words are the
model's choice, log entry 8; that a take from an empty stream gives no byte is log entry 18. -/
def Obligations.LinkBytesCarryWords : Prop :=
  let bytes := fun ws : List Word => ws.flatMap fun v =>
    [v.extractLsb' 0 8, v.extractLsb' 8 8, v.extractLsb' 16 8, v.extractLsb' 24 8]
  (∀ (ws : List Word) (s : State), s.deliverLink (bytes ws) = (s.deliver ws, [])) ∧
  (∀ (s : State) (r : Response) (rs : List Response), s.rsp = r :: rs →
    s.takeRspLink = (bytes [r.status, r.result], { s with rsp := rs })) ∧
  (∀ (s : State) (p : Point) (ps : List Point), s.ops = p :: ps →
    s.takeOpsLink = (bytes [p.x, p.y, p.z], { s with ops := ps })) ∧
  (∀ s : State, s.rsp = [] → s.takeRspLink = ([], s)) ∧ (∀ s : State, s.ops = [] → s.takeOpsLink = ([], s))

/-! ### Reset and the invariant -/

/-- R260: every piece of state after reset, and reset at any time gives that state, whatever was in progress. -/
def Obligations.ResetValues : Prop :=
  ∀ s : State, ∀ t ∈ [State.reset, s.assertReset],
    t.status = 0#32 ∧ t.result = 0#32 ∧ t.encPhase = .idle ∧ t.encBase = ⟨0#32, 0#32, 0#32⟩ ∧ t.encNPts = 0#32 ∧
    t.encNBytes = 0#32 ∧ t.decPhase = .idle ∧ t.decK = 0 ∧ (∀ k : Fin 12, t.decBuf[k] = 0#8) ∧ t.decFail = .none ∧
    t.decBase = ⟨0#32, 0#32, 0#32⟩ ∧ t.decNPts = 0#32 ∧ t.decNBytes = 0#32 ∧ t.obs = [] ∧ t.ops = [] ∧ t.rsp = [] ∧
    t.cmdBuf = []

/-- The state after reset has the invariant. -/
def Obligations.ResetHasInvariant : Prop := State.reset.Inv

/-- R26 to R32, R36, R55, R231: every step keeps the invariant: a legal `STATUS`, `RESULT` 0 after an error, the last
response carrying both, an incomplete `CMDBUF`, and `DEC_K`, `DEC_FAIL` and the counters fitting the phases. -/
def Obligations.StepKeepsInvariant : Prop :=
  ∀ s t : State, s.Inv → step s = .next t → t.Inv

/-- R67: every interaction of the host keeps the invariant. -/
def Obligations.HostActionsKeepInvariant : Prop :=
  ∀ (s : State) (a : HostAction), s.Inv → (s.afterHost a).Inv

/-! ### The f32 arithmetic -/

/-- R115: the sum of two finite values is the finite f32 nearest to the exact sum, ties to an even fraction, and the
infinity of its sign exactly when the exact sum is half a unit in the last place or more above the largest finite f32. -/
def Obligations.F32AddRoundsNearestEven : Prop :=
  ∀ a b : Word, f32Exp a ≠ 255 → f32Exp b ≠ 255 →
    let v := f32Scaled a + f32Scaled b
    let r := f32Add a b
    (f32Exp r = 255 ↔ (2 ^ 25 - 1) * 2 ^ 252 ≤ v.natAbs) ∧
    (f32Exp r = 255 → f32Frac r = 0 ∧ (f32Sign r = 1 ↔ v < 0)) ∧
    (f32Exp r ≠ 255 → ∀ c : Word, f32Exp c ≠ 255 →
      (f32Scaled r - v).natAbs ≤ (f32Scaled c - v).natAbs ∧
      ((f32Scaled r - v).natAbs = (f32Scaled c - v).natAbs → f32Scaled c ≠ f32Scaled r → f32Frac r % 2 = 0))

/-- R115, R116, R117: the difference is the sum with the sign of the second operand flipped, unless an operand is a NaN;
and the sums and differences with a zero result, an infinity or a NaN. -/
def Obligations.F32SpecialOperands : Prop :=
  (∀ a b : Word, (f32Exp a ≠ 255 ∨ f32Frac a = 0) → (f32Exp b ≠ 255 ∨ f32Frac b = 0) →
    f32Sub a b = f32Add a (b ^^^ 0x80000000#32)) ∧
  (∀ x : Word, f32Exp x ≠ 255 → f32Sub x x = 0x00000000#32) ∧
  (∀ a b : Word, f32Exp a ≠ 255 → f32Exp b ≠ 255 → f32Scaled a + f32Scaled b = 0 →
    f32Add a b = if a = 0x80000000#32 ∧ b = 0x80000000#32 then 0x80000000#32 else 0x00000000#32) ∧
  (∀ a b : Word, f32Exp a = 255 → f32Frac a = 0 → f32Exp b ≠ 255 →
    f32Add a b = a ∧ f32Add b a = a ∧ f32Sub b a = a ^^^ 0x80000000#32) ∧
  (∀ a : Word, f32Exp a = 255 → f32Frac a = 0 → f32Add a a = a) ∧
  (f32Add 0x7F800000#32 0xFF800000#32 = 0xFFC00000#32 ∧ f32Add 0xFF800000#32 0x7F800000#32 = 0xFFC00000#32 ∧
    f32Sub 0x7F800000#32 0x7F800000#32 = 0xFFC00000#32 ∧ f32Sub 0xFF800000#32 0xFF800000#32 = 0xFFC00000#32) ∧
  (f32Sub 0x00000000#32 0x80000000#32 = 0x00000000#32 ∧ f32Sub 0x80000000#32 0x00000000#32 = 0x80000000#32) ∧
  (∀ a b : Word, f32Exp a = 255 → f32Frac a ≠ 0 →
    f32Add a b = a ||| 0x00400000#32 ∧ f32Sub a b = a ||| 0x00400000#32) ∧
  (∀ a b : Word, (f32Exp a ≠ 255 ∨ f32Frac a = 0) → f32Exp b = 255 → f32Frac b ≠ 0 →
    f32Add a b = b ||| 0x00400000#32 ∧ f32Sub a b = b ||| 0x00400000#32)
end

