-- ==== Sys2Proof/Laws/State.lean ====
section
/-! SUPPORT. One lemma for each field and each update of the state, so that no proof unfolds a record update. -/

namespace Sys2Proof.Machine

@[simp] theorem State.obsAppend_status (s : State) (bs : List Byte) : (s.obsAppend bs).status = s.status := rfl
@[simp] theorem State.obsAppend_result (s : State) (bs : List Byte) : (s.obsAppend bs).result = s.result := rfl
@[simp] theorem State.obsAppend_encPhase (s : State) (bs : List Byte) : (s.obsAppend bs).encPhase = s.encPhase := rfl
@[simp] theorem State.obsAppend_encBase (s : State) (bs : List Byte) : (s.obsAppend bs).encBase = s.encBase := rfl
@[simp] theorem State.obsAppend_encNPts (s : State) (bs : List Byte) : (s.obsAppend bs).encNPts = s.encNPts := rfl
@[simp] theorem State.obsAppend_encNBytes (s : State) (bs : List Byte) : (s.obsAppend bs).encNBytes = s.encNBytes := rfl
@[simp] theorem State.obsAppend_decPhase (s : State) (bs : List Byte) : (s.obsAppend bs).decPhase = s.decPhase := rfl
@[simp] theorem State.obsAppend_decK (s : State) (bs : List Byte) : (s.obsAppend bs).decK = s.decK := rfl
@[simp] theorem State.obsAppend_decBuf (s : State) (bs : List Byte) : (s.obsAppend bs).decBuf = s.decBuf := rfl
@[simp] theorem State.obsAppend_decFail (s : State) (bs : List Byte) : (s.obsAppend bs).decFail = s.decFail := rfl
@[simp] theorem State.obsAppend_decBase (s : State) (bs : List Byte) : (s.obsAppend bs).decBase = s.decBase := rfl
@[simp] theorem State.obsAppend_decNPts (s : State) (bs : List Byte) : (s.obsAppend bs).decNPts = s.decNPts := rfl
@[simp] theorem State.obsAppend_decNBytes (s : State) (bs : List Byte) : (s.obsAppend bs).decNBytes = s.decNBytes := rfl
@[simp] theorem State.obsAppend_obs (s : State) (bs : List Byte) : (s.obsAppend bs).obs = s.obs ++ bs := rfl
@[simp] theorem State.obsAppend_ops (s : State) (bs : List Byte) : (s.obsAppend bs).ops = s.ops := rfl
@[simp] theorem State.obsAppend_rsp (s : State) (bs : List Byte) : (s.obsAppend bs).rsp = s.rsp := rfl
@[simp] theorem State.obsAppend_cmdBuf (s : State) (bs : List Byte) : (s.obsAppend bs).cmdBuf = s.cmdBuf := rfl
@[simp] theorem State.obsAppend_port (s : State) (bs : List Byte) : (s.obsAppend bs).port = s.port := rfl

@[simp] theorem State.opsAppend_status (s : State) (p : Point) : (s.opsAppend p).status = s.status := rfl
@[simp] theorem State.opsAppend_result (s : State) (p : Point) : (s.opsAppend p).result = s.result := rfl
@[simp] theorem State.opsAppend_encPhase (s : State) (p : Point) : (s.opsAppend p).encPhase = s.encPhase := rfl
@[simp] theorem State.opsAppend_encBase (s : State) (p : Point) : (s.opsAppend p).encBase = s.encBase := rfl
@[simp] theorem State.opsAppend_encNPts (s : State) (p : Point) : (s.opsAppend p).encNPts = s.encNPts := rfl
@[simp] theorem State.opsAppend_encNBytes (s : State) (p : Point) : (s.opsAppend p).encNBytes = s.encNBytes := rfl
@[simp] theorem State.opsAppend_decPhase (s : State) (p : Point) : (s.opsAppend p).decPhase = s.decPhase := rfl
@[simp] theorem State.opsAppend_decK (s : State) (p : Point) : (s.opsAppend p).decK = s.decK := rfl
@[simp] theorem State.opsAppend_decBuf (s : State) (p : Point) : (s.opsAppend p).decBuf = s.decBuf := rfl
@[simp] theorem State.opsAppend_decFail (s : State) (p : Point) : (s.opsAppend p).decFail = s.decFail := rfl
@[simp] theorem State.opsAppend_decBase (s : State) (p : Point) : (s.opsAppend p).decBase = s.decBase := rfl
@[simp] theorem State.opsAppend_decNPts (s : State) (p : Point) : (s.opsAppend p).decNPts = s.decNPts := rfl
@[simp] theorem State.opsAppend_decNBytes (s : State) (p : Point) : (s.opsAppend p).decNBytes = s.decNBytes := rfl
@[simp] theorem State.opsAppend_obs (s : State) (p : Point) : (s.opsAppend p).obs = s.obs := rfl
@[simp] theorem State.opsAppend_ops (s : State) (p : Point) : (s.opsAppend p).ops = s.ops ++ [p] := rfl
@[simp] theorem State.opsAppend_rsp (s : State) (p : Point) : (s.opsAppend p).rsp = s.rsp := rfl
@[simp] theorem State.opsAppend_cmdBuf (s : State) (p : Point) : (s.opsAppend p).cmdBuf = s.cmdBuf := rfl
@[simp] theorem State.opsAppend_port (s : State) (p : Point) : (s.opsAppend p).port = s.port := rfl

@[simp] theorem State.answer_status (s : State) (st r : Word) : (s.answer st r).status = st := rfl
@[simp] theorem State.answer_result (s : State) (st r : Word) : (s.answer st r).result = r := rfl
@[simp] theorem State.answer_encPhase (s : State) (st r : Word) : (s.answer st r).encPhase = s.encPhase := rfl
@[simp] theorem State.answer_encBase (s : State) (st r : Word) : (s.answer st r).encBase = s.encBase := rfl
@[simp] theorem State.answer_encNPts (s : State) (st r : Word) : (s.answer st r).encNPts = s.encNPts := rfl
@[simp] theorem State.answer_encNBytes (s : State) (st r : Word) : (s.answer st r).encNBytes = s.encNBytes := rfl
@[simp] theorem State.answer_decPhase (s : State) (st r : Word) : (s.answer st r).decPhase = s.decPhase := rfl
@[simp] theorem State.answer_decK (s : State) (st r : Word) : (s.answer st r).decK = s.decK := rfl
@[simp] theorem State.answer_decBuf (s : State) (st r : Word) : (s.answer st r).decBuf = s.decBuf := rfl
@[simp] theorem State.answer_decFail (s : State) (st r : Word) : (s.answer st r).decFail = s.decFail := rfl
@[simp] theorem State.answer_decBase (s : State) (st r : Word) : (s.answer st r).decBase = s.decBase := rfl
@[simp] theorem State.answer_decNPts (s : State) (st r : Word) : (s.answer st r).decNPts = s.decNPts := rfl
@[simp] theorem State.answer_decNBytes (s : State) (st r : Word) : (s.answer st r).decNBytes = s.decNBytes := rfl
@[simp] theorem State.answer_obs (s : State) (st r : Word) : (s.answer st r).obs = s.obs := rfl
@[simp] theorem State.answer_ops (s : State) (st r : Word) : (s.answer st r).ops = s.ops := rfl
@[simp] theorem State.answer_rsp (s : State) (st r : Word) : (s.answer st r).rsp = s.rsp ++ [⟨st, r⟩] := rfl
@[simp] theorem State.answer_cmdBuf (s : State) (st r : Word) : (s.answer st r).cmdBuf = s.cmdBuf := rfl
@[simp] theorem State.answer_port (s : State) (st r : Word) : (s.answer st r).port = s.port := rfl

@[simp] theorem State.complete_status (s : State) (r : Word) : (s.complete r).status = statusOk := rfl
@[simp] theorem State.complete_result (s : State) (r : Word) : (s.complete r).result = r := rfl
@[simp] theorem State.complete_encPhase (s : State) (r : Word) : (s.complete r).encPhase = s.encPhase := rfl
@[simp] theorem State.complete_encBase (s : State) (r : Word) : (s.complete r).encBase = s.encBase := rfl
@[simp] theorem State.complete_encNPts (s : State) (r : Word) : (s.complete r).encNPts = s.encNPts := rfl
@[simp] theorem State.complete_encNBytes (s : State) (r : Word) : (s.complete r).encNBytes = s.encNBytes := rfl
@[simp] theorem State.complete_decPhase (s : State) (r : Word) : (s.complete r).decPhase = s.decPhase := rfl
@[simp] theorem State.complete_decK (s : State) (r : Word) : (s.complete r).decK = s.decK := rfl
@[simp] theorem State.complete_decBuf (s : State) (r : Word) : (s.complete r).decBuf = s.decBuf := rfl
@[simp] theorem State.complete_decFail (s : State) (r : Word) : (s.complete r).decFail = s.decFail := rfl
@[simp] theorem State.complete_decBase (s : State) (r : Word) : (s.complete r).decBase = s.decBase := rfl
@[simp] theorem State.complete_decNPts (s : State) (r : Word) : (s.complete r).decNPts = s.decNPts := rfl
@[simp] theorem State.complete_decNBytes (s : State) (r : Word) : (s.complete r).decNBytes = s.decNBytes := rfl
@[simp] theorem State.complete_obs (s : State) (r : Word) : (s.complete r).obs = s.obs := rfl
@[simp] theorem State.complete_ops (s : State) (r : Word) : (s.complete r).ops = s.ops := rfl
@[simp] theorem State.complete_rsp (s : State) (r : Word) : (s.complete r).rsp = s.rsp ++ [⟨statusOk, r⟩] := rfl
@[simp] theorem State.complete_cmdBuf (s : State) (r : Word) : (s.complete r).cmdBuf = s.cmdBuf := rfl
@[simp] theorem State.complete_port (s : State) (r : Word) : (s.complete r).port = s.port := rfl

@[simp] theorem State.raise_status (s : State) (e : Err) : (s.raise e).status = errStatus e := rfl
@[simp] theorem State.raise_result (s : State) (e : Err) : (s.raise e).result = 0#32 := rfl
@[simp] theorem State.raise_encPhase (s : State) (e : Err) : (s.raise e).encPhase = s.encPhase := rfl
@[simp] theorem State.raise_encBase (s : State) (e : Err) : (s.raise e).encBase = s.encBase := rfl
@[simp] theorem State.raise_encNPts (s : State) (e : Err) : (s.raise e).encNPts = s.encNPts := rfl
@[simp] theorem State.raise_encNBytes (s : State) (e : Err) : (s.raise e).encNBytes = s.encNBytes := rfl
@[simp] theorem State.raise_decPhase (s : State) (e : Err) : (s.raise e).decPhase = s.decPhase := rfl
@[simp] theorem State.raise_decK (s : State) (e : Err) : (s.raise e).decK = s.decK := rfl
@[simp] theorem State.raise_decBuf (s : State) (e : Err) : (s.raise e).decBuf = s.decBuf := rfl
@[simp] theorem State.raise_decFail (s : State) (e : Err) : (s.raise e).decFail = s.decFail := rfl
@[simp] theorem State.raise_decBase (s : State) (e : Err) : (s.raise e).decBase = s.decBase := rfl
@[simp] theorem State.raise_decNPts (s : State) (e : Err) : (s.raise e).decNPts = s.decNPts := rfl
@[simp] theorem State.raise_decNBytes (s : State) (e : Err) : (s.raise e).decNBytes = s.decNBytes := rfl
@[simp] theorem State.raise_obs (s : State) (e : Err) : (s.raise e).obs = s.obs := rfl
@[simp] theorem State.raise_ops (s : State) (e : Err) : (s.raise e).ops = s.ops := rfl
@[simp] theorem State.raise_rsp (s : State) (e : Err) : (s.raise e).rsp = s.rsp ++ [⟨errStatus e, 0#32⟩] := rfl
@[simp] theorem State.raise_cmdBuf (s : State) (e : Err) : (s.raise e).cmdBuf = s.cmdBuf := rfl
@[simp] theorem State.raise_port (s : State) (e : Err) : (s.raise e).port = s.port := rfl

@[simp] theorem State.collect_status (s : State) (b : Byte) : (s.collect b).status = s.status := rfl
@[simp] theorem State.collect_result (s : State) (b : Byte) : (s.collect b).result = s.result := rfl
@[simp] theorem State.collect_encPhase (s : State) (b : Byte) : (s.collect b).encPhase = s.encPhase := rfl
@[simp] theorem State.collect_encBase (s : State) (b : Byte) : (s.collect b).encBase = s.encBase := rfl
@[simp] theorem State.collect_encNPts (s : State) (b : Byte) : (s.collect b).encNPts = s.encNPts := rfl
@[simp] theorem State.collect_encNBytes (s : State) (b : Byte) : (s.collect b).encNBytes = s.encNBytes := rfl
@[simp] theorem State.collect_decPhase (s : State) (b : Byte) : (s.collect b).decPhase = s.decPhase := rfl
@[simp] theorem State.collect_decK (s : State) (b : Byte) : (s.collect b).decK = s.decK + 1 := rfl
@[simp] theorem State.collect_decBuf (s : State) (b : Byte) : (s.collect b).decBuf = s.decBuf.setIfInBounds s.decK b := rfl
@[simp] theorem State.collect_decFail (s : State) (b : Byte) : (s.collect b).decFail = s.decFail := rfl
@[simp] theorem State.collect_decBase (s : State) (b : Byte) : (s.collect b).decBase = s.decBase := rfl
@[simp] theorem State.collect_decNPts (s : State) (b : Byte) : (s.collect b).decNPts = s.decNPts := rfl
@[simp] theorem State.collect_decNBytes (s : State) (b : Byte) : (s.collect b).decNBytes = s.decNBytes := rfl
@[simp] theorem State.collect_obs (s : State) (b : Byte) : (s.collect b).obs = s.obs := rfl
@[simp] theorem State.collect_ops (s : State) (b : Byte) : (s.collect b).ops = s.ops := rfl
@[simp] theorem State.collect_rsp (s : State) (b : Byte) : (s.collect b).rsp = s.rsp := rfl
@[simp] theorem State.collect_cmdBuf (s : State) (b : Byte) : (s.collect b).cmdBuf = s.cmdBuf := rfl
@[simp] theorem State.collect_port (s : State) (b : Byte) : (s.collect b).port = s.port := rfl

@[simp] theorem State.countByte_status (s : State) : s.countByte.status = s.status := rfl
@[simp] theorem State.countByte_result (s : State) : s.countByte.result = s.result := rfl
@[simp] theorem State.countByte_encPhase (s : State) : s.countByte.encPhase = s.encPhase := rfl
@[simp] theorem State.countByte_encBase (s : State) : s.countByte.encBase = s.encBase := rfl
@[simp] theorem State.countByte_encNPts (s : State) : s.countByte.encNPts = s.encNPts := rfl
@[simp] theorem State.countByte_encNBytes (s : State) : s.countByte.encNBytes = s.encNBytes := rfl
@[simp] theorem State.countByte_decPhase (s : State) : s.countByte.decPhase = s.decPhase := rfl
@[simp] theorem State.countByte_decK (s : State) : s.countByte.decK = s.decK := rfl
@[simp] theorem State.countByte_decBuf (s : State) : s.countByte.decBuf = s.decBuf := rfl
@[simp] theorem State.countByte_decFail (s : State) : s.countByte.decFail = s.decFail := rfl
@[simp] theorem State.countByte_decBase (s : State) : s.countByte.decBase = s.decBase := rfl
@[simp] theorem State.countByte_decNPts (s : State) : s.countByte.decNPts = s.decNPts := rfl
@[simp] theorem State.countByte_decNBytes (s : State) : s.countByte.decNBytes = satAdd s.decNBytes 1 := rfl
@[simp] theorem State.countByte_obs (s : State) : s.countByte.obs = s.obs := rfl
@[simp] theorem State.countByte_ops (s : State) : s.countByte.ops = s.ops := rfl
@[simp] theorem State.countByte_rsp (s : State) : s.countByte.rsp = s.rsp := rfl
@[simp] theorem State.countByte_cmdBuf (s : State) : s.countByte.cmdBuf = s.cmdBuf := rfl
@[simp] theorem State.countByte_port (s : State) : s.countByte.port = s.port := rfl

@[simp] theorem State.absorb_status (s : State) : s.absorb.status = s.status := rfl
@[simp] theorem State.absorb_result (s : State) : s.absorb.result = s.result := rfl
@[simp] theorem State.absorb_encPhase (s : State) : s.absorb.encPhase = s.encPhase := rfl
@[simp] theorem State.absorb_encBase (s : State) : s.absorb.encBase = s.encBase := rfl
@[simp] theorem State.absorb_encNPts (s : State) : s.absorb.encNPts = s.encNPts := rfl
@[simp] theorem State.absorb_encNBytes (s : State) : s.absorb.encNBytes = s.encNBytes := rfl
@[simp] theorem State.absorb_decPhase (s : State) : s.absorb.decPhase = s.decPhase := rfl
@[simp] theorem State.absorb_decK (s : State) : s.absorb.decK = s.decK := rfl
@[simp] theorem State.absorb_decBuf (s : State) : s.absorb.decBuf = s.decBuf := rfl
@[simp] theorem State.absorb_decFail (s : State) : s.absorb.decFail = s.decFail := rfl
@[simp] theorem State.absorb_decBase (s : State) : s.absorb.decBase = s.decBase := rfl
@[simp] theorem State.absorb_decNPts (s : State) : s.absorb.decNPts = s.decNPts := rfl
@[simp] theorem State.absorb_decNBytes (s : State) : s.absorb.decNBytes = s.decNBytes := rfl
@[simp] theorem State.absorb_obs (s : State) : s.absorb.obs = s.obs := rfl
@[simp] theorem State.absorb_ops (s : State) : s.absorb.ops = s.ops := rfl
@[simp] theorem State.absorb_rsp (s : State) : s.absorb.rsp = s.rsp := rfl
@[simp] theorem State.absorb_cmdBuf (s : State) : s.absorb.cmdBuf = s.words := rfl
@[simp] theorem State.absorb_port (s : State) : s.absorb.port = [] := rfl

@[simp] theorem State.consume_status (s : State) (rest : List Word) : (s.consume rest).status = s.status := rfl
@[simp] theorem State.consume_result (s : State) (rest : List Word) : (s.consume rest).result = s.result := rfl
@[simp] theorem State.consume_encPhase (s : State) (rest : List Word) : (s.consume rest).encPhase = s.encPhase := rfl
@[simp] theorem State.consume_encBase (s : State) (rest : List Word) : (s.consume rest).encBase = s.encBase := rfl
@[simp] theorem State.consume_encNPts (s : State) (rest : List Word) : (s.consume rest).encNPts = s.encNPts := rfl
@[simp] theorem State.consume_encNBytes (s : State) (rest : List Word) : (s.consume rest).encNBytes = s.encNBytes := rfl
@[simp] theorem State.consume_decPhase (s : State) (rest : List Word) : (s.consume rest).decPhase = s.decPhase := rfl
@[simp] theorem State.consume_decK (s : State) (rest : List Word) : (s.consume rest).decK = s.decK := rfl
@[simp] theorem State.consume_decBuf (s : State) (rest : List Word) : (s.consume rest).decBuf = s.decBuf := rfl
@[simp] theorem State.consume_decFail (s : State) (rest : List Word) : (s.consume rest).decFail = s.decFail := rfl
@[simp] theorem State.consume_decBase (s : State) (rest : List Word) : (s.consume rest).decBase = s.decBase := rfl
@[simp] theorem State.consume_decNPts (s : State) (rest : List Word) : (s.consume rest).decNPts = s.decNPts := rfl
@[simp] theorem State.consume_decNBytes (s : State) (rest : List Word) : (s.consume rest).decNBytes = s.decNBytes := rfl
@[simp] theorem State.consume_obs (s : State) (rest : List Word) : (s.consume rest).obs = s.obs := rfl
@[simp] theorem State.consume_ops (s : State) (rest : List Word) : (s.consume rest).ops = s.ops := rfl
@[simp] theorem State.consume_rsp (s : State) (rest : List Word) : (s.consume rest).rsp = s.rsp := rfl
@[simp] theorem State.consume_cmdBuf (s : State) (rest : List Word) : (s.consume rest).cmdBuf = [] := rfl
@[simp] theorem State.consume_port (s : State) (rest : List Word) : (s.consume rest).port = rest := rfl

@[simp] theorem State.deliver_status (s : State) (ws : List Word) : (s.deliver ws).status = s.status := rfl
@[simp] theorem State.deliver_result (s : State) (ws : List Word) : (s.deliver ws).result = s.result := rfl
@[simp] theorem State.deliver_encPhase (s : State) (ws : List Word) : (s.deliver ws).encPhase = s.encPhase := rfl
@[simp] theorem State.deliver_encBase (s : State) (ws : List Word) : (s.deliver ws).encBase = s.encBase := rfl
@[simp] theorem State.deliver_encNPts (s : State) (ws : List Word) : (s.deliver ws).encNPts = s.encNPts := rfl
@[simp] theorem State.deliver_encNBytes (s : State) (ws : List Word) : (s.deliver ws).encNBytes = s.encNBytes := rfl
@[simp] theorem State.deliver_decPhase (s : State) (ws : List Word) : (s.deliver ws).decPhase = s.decPhase := rfl
@[simp] theorem State.deliver_decK (s : State) (ws : List Word) : (s.deliver ws).decK = s.decK := rfl
@[simp] theorem State.deliver_decBuf (s : State) (ws : List Word) : (s.deliver ws).decBuf = s.decBuf := rfl
@[simp] theorem State.deliver_decFail (s : State) (ws : List Word) : (s.deliver ws).decFail = s.decFail := rfl
@[simp] theorem State.deliver_decBase (s : State) (ws : List Word) : (s.deliver ws).decBase = s.decBase := rfl
@[simp] theorem State.deliver_decNPts (s : State) (ws : List Word) : (s.deliver ws).decNPts = s.decNPts := rfl
@[simp] theorem State.deliver_decNBytes (s : State) (ws : List Word) : (s.deliver ws).decNBytes = s.decNBytes := rfl
@[simp] theorem State.deliver_obs (s : State) (ws : List Word) : (s.deliver ws).obs = s.obs := rfl
@[simp] theorem State.deliver_ops (s : State) (ws : List Word) : (s.deliver ws).ops = s.ops := rfl
@[simp] theorem State.deliver_rsp (s : State) (ws : List Word) : (s.deliver ws).rsp = s.rsp := rfl
@[simp] theorem State.deliver_cmdBuf (s : State) (ws : List Word) : (s.deliver ws).cmdBuf = s.cmdBuf := rfl
@[simp] theorem State.deliver_port (s : State) (ws : List Word) : (s.deliver ws).port = s.port ++ ws := rfl

/-- The words of a state after words are delivered. -/
@[simp] theorem State.deliver_words (s : State) (ws : List Word) : (s.deliver ws).words = s.words ++ ws := by
  simp [State.words]

/-- Taking every word into `CMDBUF` loses none. -/
@[simp] theorem State.absorb_words (s : State) : s.absorb.words = s.words := by
  simp [State.words]

@[simp] theorem State.consume_words (s : State) (rest : List Word) : (s.consume rest).words = rest := by
  simp [State.words]

end Sys2Proof.Machine
end

