-- ==== Sys2Proof/Laws/Decode.lean ====
section
/-! SUPPORT. The header fields, the opcode numbers, and everything `decode` can answer. -/

namespace Sys2Proof

theorem headerOpc_header (o : Opcode) (imm : BitVec 16) : headerOpc (header o imm) = o.code := by
  apply BitVec.eq_of_getLsbD_eq
  intro i hi
  simp only [headerOpc, header, BitVec.getLsbD_append, BitVec.getLsbD_extractLsb']
  grind

theorem headerImm_header (o : Opcode) (imm : BitVec 16) : headerImm (header o imm) = imm := by
  apply BitVec.eq_of_getLsbD_eq
  intro i hi
  simp only [headerImm, header, BitVec.getLsbD_append, BitVec.getLsbD_extractLsb']
  grind

theorem headerRsv_header (o : Opcode) (imm : BitVec 16) : headerRsv (header o imm) = 0#8 := by
  apply BitVec.eq_of_getLsbD_eq
  intro i hi
  simp only [headerRsv, header, BitVec.getLsbD_append, BitVec.getLsbD_extractLsb', BitVec.getLsbD_zero]
  grind

/-- A header word is its three fields, most significant first (R84). -/
theorem header_fields (h : Word) : h = headerRsv h ++ headerImm h ++ headerOpc h := by
  apply BitVec.eq_of_getLsbD_eq
  intro i hi
  simp only [headerRsv, headerImm, headerOpc, BitVec.getLsbD_append, BitVec.getLsbD_extractLsb']
  grind

/-- The opcode numbers are read back as the opcodes they stand for. -/
theorem Opcode.ofCode_code (o : Opcode) : Opcode.ofCode o.code = some o := by
  cases o <;> decide

/-- Only an opcode's own number is read as that opcode. -/
theorem Opcode.code_of_ofCode {c : Byte} {o : Opcode} (h : Opcode.ofCode c = some o) : o.code = c := by
  have := List.find?_some h
  simpa using this

/-- Everything `decode` can answer for a sequence that starts with a header. -/
theorem decode_cons (h : Word) (ws : List Word) :
    (ws.length + 1 < commandLength h ∧ decode (h :: ws) = .waiting) ∨
    (commandLength h ≤ ws.length + 1 ∧
      ((∃ c, decodeComplete h (ws.take (commandLength h - 1)) = .error c ∧
          decode (h :: ws) = .illegal c (ws.drop (commandLength h - 1))) ∨
       (∃ i, decodeComplete h (ws.take (commandLength h - 1)) = .ok i ∧
          decode (h :: ws) = .command i (ws.drop (commandLength h - 1))))) := by
  by_cases hl : ws.length + 1 < commandLength h
  · exact .inl ⟨hl, by simp [decode, hl]⟩
  · refine .inr ⟨by omega, ?_⟩
    cases hd : decodeComplete h (ws.take (commandLength h - 1)) with
    | error c => exact .inl ⟨c, rfl, by simp [decode, hl, hd]⟩
    | ok i => exact .inr ⟨i, rfl, by simp [decode, hl, hd]⟩

/-- Everything `decodeComplete` can answer: the checks of R212 in their order. -/
theorem decodeComplete_cases (h : Word) (ops : List Word) :
    (headerRsv h ≠ 0#8 ∧ decodeComplete h ops = .error .badRsv) ∨
    (headerRsv h = 0#8 ∧ Opcode.ofCode (headerOpc h) = none ∧ decodeComplete h ops = .error .badOpc) ∨
    (∃ o, headerRsv h = 0#8 ∧ Opcode.ofCode (headerOpc h) = some o ∧ headerImm h &&& o.mustBeZero ≠ 0#16 ∧
      decodeComplete h ops = .error .badImm) ∨
    (∃ o, headerRsv h = 0#8 ∧ Opcode.ofCode (headerOpc h) = some o ∧ headerImm h &&& o.mustBeZero = 0#16 ∧
      decodeComplete h ops = .ok (buildInstr o (headerImm h) ops)) := by
  by_cases hr : headerRsv h = 0#8
  · cases ho : Opcode.ofCode (headerOpc h) with
    | none => exact .inr (.inl ⟨hr, rfl, by simp [decodeComplete, hr, ho]⟩)
    | some o =>
      by_cases hi : headerImm h &&& o.mustBeZero = 0#16
      · exact .inr (.inr (.inr ⟨o, hr, rfl, hi, by simp [decodeComplete, hr, ho, hi]⟩))
      · exact .inr (.inr (.inl ⟨o, hr, rfl, hi, by simp [decodeComplete, hr, ho, hi]⟩))
  · exact .inl ⟨hr, by simp [decodeComplete, hr]⟩

end Sys2Proof
end

