-- ==== Sys2Proof/Laws/Ops.lean ====
section
/-! SUPPORT. What the shared operations do: saturating counts, the status words, the result words, and the frames of
ending a command. -/

namespace Sys2Proof.Machine

/-- A saturating count is the smaller of the exact count and `0xFFFFFFFF`. -/
@[simp] theorem sat32_toNat (n : Nat) : (sat32 n).toNat = min n 0xFFFFFFFF := by
  simp only [sat32, BitVec.toNat_ofNat]
  omega

@[simp] theorem satAdd_toNat (c : Word) (n : Nat) : (satAdd c n).toNat = min (c.toNat + n) 0xFFFFFFFF :=
  sat32_toNat _

@[simp] theorem satAdd_zero (c : Word) : satAdd c 0 = c := by
  apply BitVec.eq_of_toNat_eq
  have := c.isLt
  simp
  omega

/-- Saturating twice is saturating the sum. -/
theorem satAdd_satAdd (c : Word) (m n : Nat) : satAdd (satAdd c m) n = satAdd c (m + n) := by
  apply BitVec.eq_of_toNat_eq
  simp
  omega

theorem statusOk_eq : statusOk = 0#32 := by decide

/-- The status word of each error (R230, R231). -/
theorem errStatus_eq (e : Err) :
    errStatus e = match e with
      | .range => 0x01#32
      | .state => 0x02#32
      | .corrupt .none => 0x03#32
      | .corrupt .badEscape => 0x13#32
      | .corrupt .truncated => 0x23#32
      | .illegal .badOpc => 0x14#32
      | .illegal .badRsv => 0x24#32
      | .illegal .badImm => 0x34#32
      | .illegal .badCsr => 0x44#32
      | .sequence .encIdle => 0x15#32
      | .sequence .decIdle => 0x25#32 := by
  rcases e with _ | _ | c | c | c <;> (try cases c) <;> decide

/-- No error's status word is that of `OK`. -/
theorem errStatus_ne_ok (e : Err) : errStatus e ≠ 0#32 := by
  rcases e with _ | _ | c | c | c <;> (try cases c) <;> decide

/-- Every status word but that of an `E_CORRUPT` without a cause is a legal one (R231). -/
theorem errStatus_mem (e : Err) (h : e ≠ .corrupt .none) : errStatus e ∈ legalStatuses := by
  rcases e with _ | _ | c | c | c <;> (try cases c) <;> first | decide | exact absurd rfl h

theorem SameEncoder.refl (s : State) : SameEncoder s s := ⟨rfl, rfl, rfl, rfl, rfl⟩

theorem SameDecoder.refl (s : State) : SameDecoder s s := ⟨rfl, rfl, rfl, rfl, rfl, rfl, rfl, rfl⟩

theorem SamePort.refl (s : State) : SamePort s s := ⟨rfl, rfl⟩

theorem SameEncoder.trans {s t u : State} (h : SameEncoder s t) (k : SameEncoder t u) : SameEncoder s u := by
  obtain ⟨a, b, c, d, e⟩ := h
  obtain ⟨a', b', c', d', e'⟩ := k
  exact ⟨a'.trans a, b'.trans b, c'.trans c, d'.trans d, e'.trans e⟩

theorem SameDecoder.trans {s t u : State} (h : SameDecoder s t) (k : SameDecoder t u) : SameDecoder s u := by
  obtain ⟨a, b, c, d, e, f, g, i⟩ := h
  obtain ⟨a', b', c', d', e', f', g', i'⟩ := k
  exact ⟨a'.trans a, b'.trans b, c'.trans c, d'.trans d, e'.trans e, f'.trans f, g'.trans g, i'.trans i⟩

theorem SamePort.trans {s t u : State} (h : SamePort s t) (k : SamePort t u) : SamePort s u :=
  ⟨k.1.trans h.1, k.2.trans h.2⟩

/-- Ending a command writes only the answer. -/
theorem State.answer_only (s : State) (st r : Word) : OnlyAnswers s (s.answer st r) st r :=
  ⟨⟨rfl, rfl, rfl⟩, SameEncoder.refl s, SameDecoder.refl s, SamePort.refl s⟩

/-- A normal end writes only the answer `OK` with the result. -/
theorem State.complete_only (s : State) (r : Word) : OnlyAnswers s (s.complete r) statusOk r := s.answer_only _ _

/-- A raise writes only the answer with the error's status and result 0 (R232). -/
theorem State.raise_only (s : State) (e : Err) : OnlyAnswers s (s.raise e) (errStatus e) 0#32 := s.answer_only _ _

end Sys2Proof.Machine
end

