-- ==== Sys2Proof/Laws/Host.lean ====
section
/-! SUPPORT. What the host's interactions change, and when a realisation with finite streams holds a command. -/

namespace Sys2Proof

@[simp] theorem linkBytesOf_nil : linkBytesOf [] = [] := rfl
@[simp] theorem linkBytesOf_cons (w : Word) (ws : List Word) :
    linkBytesOf (w :: ws) = linkBytes w ++ linkBytesOf ws := rfl
@[simp] theorem linkBytes_length (w : Word) : (linkBytes w).length = 4 := rfl

/-- Four bytes of a link for each word. -/
theorem linkBytesOf_length (ws : List Word) : (linkBytesOf ws).length = 4 * ws.length := by
  induction ws with
  | nil => rfl
  | cons w ws ih =>
    simp only [linkBytesOf_cons, List.length_append, linkBytes_length, List.length_cons, ih]
    omega

namespace Machine

@[simp] theorem State.takeObs_obs (s : State) : s.takeObs.2.obs = s.obs.tail := rfl
@[simp] theorem State.takeOps_ops (s : State) : s.takeOps.2.ops = s.ops.tail := rfl
@[simp] theorem State.takeRsp_rsp (s : State) : s.takeRsp.2.rsp = s.rsp.tail := rfl
@[simp] theorem State.assertReset_port (s : State) : s.assertReset.port = s.port := rfl

/-- A take over a byte-wide link changes what the same take of whole words changes (R58). -/
@[simp] theorem State.takeRspLink_state (s : State) : s.takeRspLink.2 = s.takeRsp.2 := rfl
@[simp] theorem State.takeOpsLink_state (s : State) : s.takeOpsLink.2 = s.takeOps.2 := rfl

/-- A stream fits when nothing was appended or its new length is within the depth (R66). -/
theorem streamFits_iff (depth : Option Nat) (before after : Nat) :
    streamFits depth before after = true ↔ ∀ n, depth = some n → after = before ∨ after ≤ n := by
  cases depth with
  | none => simp [streamFits]
  | some d => simp [streamFits]

/-- A command fits when both its streams do. -/
theorem depthsFit_iff (d : Depths) (s t : State) :
    depthsFit d s t = true ↔
      (∀ n, d.obs = some n → t.obs.length = s.obs.length ∨ t.obs.length ≤ n) ∧
      (∀ n, d.ops = some n → t.ops.length = s.ops.length ∨ t.ops.length ≤ n) := by
  simp [depthsFit, streamFits_iff]

end Machine

end Sys2Proof
end

