-- ==== Sys2Proof/Laws/Narrow.lean ====
section
/-! SUPPORT. What packing, the two conversions, the NaN channel and the f32 addition can answer, each said once. -/

namespace Sys2Proof.Machine

/-! ### The f32 fields of a packed pattern -/

/-- The three fields of a packed f32 pattern. -/
theorem f32Pack_extract (x : BitVec 1) (y : BitVec 8) (z : BitVec 23) :
    (x ++ y ++ z : Word).extractLsb' 31 1 = x ∧ (x ++ y ++ z : Word).extractLsb' 23 8 = y ∧
      (x ++ y ++ z : Word).extractLsb' 0 23 = z := by
  refine ⟨?_, ?_, ?_⟩ <;> apply BitVec.eq_of_getLsbD_eq <;> intro i hi <;>
    simp only [BitVec.getLsbD_append, BitVec.getLsbD_extractLsb'] <;> grind

@[simp] theorem f32Sign_pack (s e f : Nat) : f32Sign (f32Pack s e f) = s % 2 := by
  rw [f32Sign, f32Pack, (f32Pack_extract _ _ _).1, BitVec.toNat_ofNat, Nat.pow_one]

@[simp] theorem f32Exp_pack (s e f : Nat) : f32Exp (f32Pack s e f) = e % 256 := by
  rw [f32Exp, f32Pack, (f32Pack_extract _ _ _).2.1, BitVec.toNat_ofNat]

@[simp] theorem f32Frac_pack (s e f : Nat) : f32Frac (f32Pack s e f) = f % 2 ^ 23 := by
  rw [f32Frac, f32Pack, (f32Pack_extract _ _ _).2.2, BitVec.toNat_ofNat]

/-- An f32 pattern is its three fields (R11). -/
theorem f32Pack_fields (a : Word) : f32Pack (f32Sign a) (f32Exp a) (f32Frac a) = a := by
  apply BitVec.eq_of_getLsbD_eq
  intro i hi
  simp only [f32Pack, f32Sign, f32Exp, f32Frac, BitVec.ofNat_toNat, BitVec.getLsbD_append,
    BitVec.getLsbD_extractLsb', BitVec.getLsbD_setWidth]
  grind

/-! ### The fields of a packed narrow pattern -/

/-- A packed pattern fits the format's width (R12). -/
theorem narrowPack_lt (F : Format) (s e m : Nat) : narrowPack F s e m < 2 ^ formatWidth F := by
  have h1 : s % 2 < 2 := Nat.mod_lt _ (by decide)
  have h2 : e % 2 ^ F.E < 2 ^ F.E := Nat.mod_lt _ (Nat.two_pow_pos _)
  have h3 : m % 2 ^ F.M < 2 ^ F.M := Nat.mod_lt _ (Nat.two_pow_pos _)
  have hp : 2 ^ formatWidth F = 2 * (2 ^ F.E * 2 ^ F.M) := by
    simp only [formatWidth, Nat.pow_add, Nat.pow_one]
    exact Nat.mul_assoc _ _ _
  rw [hp, narrowPack, Nat.pow_add]
  have h4 : (e % 2 ^ F.E) * 2 ^ F.M + 2 ^ F.M ≤ 2 ^ F.E * 2 ^ F.M := by
    have := Nat.mul_le_mul_right (2 ^ F.M) (Nat.succ_le_of_lt h2)
    rw [Nat.succ_mul] at this
    exact this
  have h5 : (s % 2) * (2 ^ F.E * 2 ^ F.M) ≤ 1 * (2 ^ F.E * 2 ^ F.M) := Nat.mul_le_mul_right _ (by omega)
  omega

/-- Everything `FromFloat` can answer: the NaN of the sign, the infinity of the sign, a pattern of the denormal branch,
or a normal value (R101). -/
theorem fromFloat_cases (F : Format) (mode : DenormMode) (a : Word) :
    let r := f32Frac a + 2 ^ (22 - F.M)
    let e0 : Int := (f32Exp a : Int) - 127 + bias F
    let e : Int := if r ≥ 2 ^ 23 then e0 + 1 else e0
    let mant := (r >>> (23 - F.M)) % 2 ^ F.M
    ((f32Exp a = 255 ∧ f32Frac a ≠ 0) ∧
      fromFloat F mode a = narrowPack F (f32Sign a) (allOnes F) F.nanMant) ∨
    (¬(f32Exp a = 255 ∧ f32Frac a ≠ 0) ∧ e ≥ allOnes F ∧ fromFloat F mode a = narrowPack F (f32Sign a) (allOnes F) 0) ∨
    (¬(f32Exp a = 255 ∧ f32Frac a ≠ 0) ∧ e < allOnes F ∧ e ≤ 0 ∧
      fromFloat F mode a = match mode with
        | .truncateAfterRound => denormTruncate F (f32Sign a) e mant
        | .roundAtDenormalCut => denormRound F (f32Sign a) e0 (f32Frac a)) ∨
    (¬(f32Exp a = 255 ∧ f32Frac a ≠ 0) ∧ e < allOnes F ∧ 0 < e ∧
      fromFloat F mode a = narrowPack F (f32Sign a) e.toNat mant) := by
  intro r e0 e mant
  by_cases hn : f32Exp a = 255 ∧ f32Frac a ≠ 0
  · exact .inl ⟨hn, by unfold fromFloat; exact if_pos hn⟩
  · have hu : fromFloat F mode a =
        if e ≥ allOnes F then narrowPack F (f32Sign a) (allOnes F) 0
        else if e ≤ 0 then
          match mode with
          | .truncateAfterRound => denormTruncate F (f32Sign a) e mant
          | .roundAtDenormalCut => denormRound F (f32Sign a) e0 (f32Frac a)
        else narrowPack F (f32Sign a) e.toNat mant := by
      unfold fromFloat
      exact if_neg hn
    by_cases hi : e ≥ allOnes F
    · exact .inr (.inl ⟨hn, hi, by rw [hu, if_pos hi]⟩)
    · by_cases hd : e ≤ 0
      · exact .inr (.inr (.inl ⟨hn, by omega, hd, by rw [hu, if_neg hi, if_pos hd]⟩))
      · exact .inr (.inr (.inr ⟨hn, by omega, by omega, by rw [hu, if_neg hi, if_neg hd]⟩))

/-- What `FromFloat` answers fits the format's width (R12). -/
theorem fromFloat_lt (F : Format) (mode : DenormMode) (a : Word) : fromFloat F mode a < 2 ^ formatWidth F := by
  obtain ⟨-, h⟩ | ⟨-, -, h⟩ | ⟨-, -, -, h⟩ | ⟨-, -, -, h⟩ := fromFloat_cases F mode a <;> rw [h]
  · exact narrowPack_lt ..
  · exact narrowPack_lt ..
  · cases mode with
    | truncateAfterRound => exact narrowPack_lt ..
    | roundAtDenormalCut =>
      simp only [denormRound]
      split <;> exact narrowPack_lt ..
  · exact narrowPack_lt ..

@[simp] theorem qFromFloat_toNat (a : Word) :
    (qFromFloat a).toNat = fromFloat Config.quarter Config.denormMode a := by
  rw [qFromFloat, BitVec.toNat_ofNat]
  exact Nat.mod_eq_of_lt (fromFloat_lt _ _ _)

@[simp] theorem hFromFloat_toNat (a : Word) : (hFromFloat a).toNat = fromFloat Config.half Config.denormMode a := by
  rw [hFromFloat, BitVec.toNat_ofNat]
  exact Nat.mod_eq_of_lt (fromFloat_lt _ _ _)

/-- Everything `ToFloat` can answer, by the class of its operand (R110). -/
theorem toFloat_cases (F : Format) (n : Nat) :
    (narrowIsZero F n = true ∧ toFloat F n = f32Pack (narrowSign F n) 0 0) ∨
    (narrowIsZero F n = false ∧ narrowExp F n = allOnes F ∧
      toFloat F n = f32Pack (narrowSign F n) 255 (narrowMant F n <<< (23 - F.M))) ∨
    (narrowIsZero F n = false ∧ narrowExp F n ≠ allOnes F ∧ narrowExp F n = 0 ∧
      toFloat F n =
        f32Pack (narrowSign F n) ((renormalise F.M F.M (narrowMant F n) 1).2 - bias F + 127).toNat
          (((renormalise F.M F.M (narrowMant F n) 1).1 % 2 ^ F.M) <<< (23 - F.M))) ∨
    (narrowIsZero F n = false ∧ narrowExp F n ≠ allOnes F ∧ narrowExp F n ≠ 0 ∧
      toFloat F n =
        f32Pack (narrowSign F n) ((narrowExp F n : Int) - bias F + 127).toNat (narrowMant F n <<< (23 - F.M))) := by
  by_cases hz : narrowExp F n = 0 ∧ narrowMant F n = 0
  · exact .inl ⟨by simp [narrowIsZero, hz.1, hz.2], by unfold toFloat; exact if_pos hz⟩
  · have hz' : narrowIsZero F n = false := by
      simp only [narrowIsZero, Bool.and_eq_false_iff, beq_eq_false_iff_ne]
      by_cases h : narrowExp F n = 0
      · exact .inr fun hm => hz ⟨h, hm⟩
      · exact .inl h
    by_cases ha : narrowExp F n = allOnes F
    · exact .inr (.inl ⟨hz', ha, by unfold toFloat; exact (if_neg hz).trans (if_pos ha)⟩)
    · by_cases h0 : narrowExp F n = 0
      · exact .inr (.inr (.inl ⟨hz', ha, h0, by
          unfold toFloat; exact (if_neg hz).trans ((if_neg ha).trans (if_pos h0))⟩))
      · exact .inr (.inr (.inr ⟨hz', ha, h0, by
          unfold toFloat; exact (if_neg hz).trans ((if_neg ha).trans (if_neg h0))⟩))

/-- `EncodeNaN` refuses exactly the codes whose sign part would exceed one bit (R133, R134). -/
theorem encodeNaN_eq_none (F : Format) (code : Nat) : encodeNaN F code = none ↔ 1 < (code + 1) >>> F.M := by
  simp [encodeNaN]

/-- `DecodeNaN` answers for exactly the NaN patterns (R136). -/
theorem decodeNaN_isSome (F : Format) (n : Nat) : (decodeNaN F n).isSome = narrowIsNaN F n := by
  cases h : narrowIsNaN F n <;> simp [decodeNaN, h]

/-! ### The f32 addition -/

/-- Everything `F32Add` can answer, by the classes of its operands (R115, R117). -/
theorem f32Add_cases (a b : Word) :
    ((f32IsNaN a = true ∨ f32IsNaN b = true) ∧ f32Add a b = f32NanRule a b) ∨
    (f32IsNaN a = false ∧ f32IsNaN b = false ∧ f32IsInf a = true ∧
      f32Add a b = if f32IsInf b && f32Sign a != f32Sign b then f32NanRule a b else a) ∨
    (f32IsNaN a = false ∧ f32IsNaN b = false ∧ f32IsInf a = false ∧ f32IsInf b = true ∧ f32Add a b = b) ∨
    (f32IsNaN a = false ∧ f32IsNaN b = false ∧ f32IsInf a = false ∧ f32IsInf b = false ∧
      f32Add a b =
        roundToF32 (if f32Sign a = 1 ∧ f32Sign b = 1 then 1 else 0) (f32Scaled a + f32Scaled b)) := by
  cases hna : f32IsNaN a <;> cases hnb : f32IsNaN b <;> cases hia : f32IsInf a <;> cases hib : f32IsInf b <;>
    simp [f32Add, f32AddWith, hna, hnb, hia, hib]

/-- `F32Sub` is `F32Add` of the operand with its sign flipped, but for a NaN operand (R116). -/
theorem f32Sub_cases (a b : Word) :
    ((f32IsNaN a = true ∨ f32IsNaN b = true) ∧ f32Sub a b = f32NanRule a b) ∨
    (f32IsNaN a = false ∧ f32IsNaN b = false ∧ f32Sub a b = f32Add a (b ^^^ 0x80000000#32)) := by
  cases hna : f32IsNaN a <;> cases hnb : f32IsNaN b <;> simp [f32Sub, f32SubWith, f32Add, hna, hnb]

/-! ### The session operations -/

@[simp] theorem finishRecord_ops (k : RecKind) (B : Point) (s : State) : (finishRecord k B s).ops = s.ops ++ [B] := rfl
@[simp] theorem finishRecord_decBase (k : RecKind) (B : Point) (s : State) : (finishRecord k B s).decBase = B := rfl
@[simp] theorem finishRecord_decPhase (k : RecKind) (B : Point) (s : State) : (finishRecord k B s).decPhase = .tag := rfl
@[simp] theorem finishRecord_decK (k : RecKind) (B : Point) (s : State) : (finishRecord k B s).decK = 0 := rfl
@[simp] theorem finishRecord_decFail (k : RecKind) (B : Point) (s : State) :
    (finishRecord k B s).decFail = s.decFail := rfl
@[simp] theorem finishRecord_decBuf (k : RecKind) (B : Point) (s : State) : (finishRecord k B s).decBuf = s.decBuf := rfl
@[simp] theorem emitPoint_obs (P : Point) (hdr : Bool) (s : State) :
    (emitPoint P hdr s).obs = s.obs ++ ((if hdr then lePoint s.encBase else []) ++ (encodeRecord s.encBase P).bytes) := rfl
@[simp] theorem emitPoint_encBase (P : Point) (hdr : Bool) (s : State) :
    (emitPoint P hdr s).encBase = (encodeRecord s.encBase P).base := rfl
@[simp] theorem emitPoint_encPhase (P : Point) (hdr : Bool) (s : State) : (emitPoint P hdr s).encPhase = .run := rfl
@[simp] theorem emitPoint_encNPts (P : Point) (hdr : Bool) (s : State) :
    (emitPoint P hdr s).encNPts = satAdd s.encNPts 1 := rfl

/-- Every point of an open session leaves the decoder session alone (R248). -/
theorem emitPoint_sameDecoder (P : Point) (hdr : Bool) (s : State) : SameDecoder s (emitPoint P hdr s) :=
  ⟨rfl, rfl, rfl, rfl, rfl, rfl, rfl, rfl⟩

/-- A completed record leaves the encoder session alone (R248). -/
theorem finishRecord_sameEncoder (k : RecKind) (B : Point) (s : State) : SameEncoder s (finishRecord k B s) :=
  ⟨rfl, rfl, rfl, rfl, rfl⟩

end Sys2Proof.Machine
end

