-- ==== Sys2Proof/Laws/PerInstr.lean ====
section
/-! SUPPORT. The per-instruction family `EncodedLegal`: what `encode` writes is a well-formed raw command, by the rows of
the opcode table, of the length its header asks for (R84, R88, R90). -/

namespace Sys2Proof.Laws

/-- The encoding of a command is a well-formed raw command of the length its header fixes. -/
def EncodedLegal.Statement (i : Instr) : Prop :=
  commandWellFormed (encode i) = true ∧ (encode i).length = commandLength ((encode i).headD 0)

/-- A header whose opcode and immediate a row of the opcode table covers. -/
theorem row_covers_header {r : HeaderRow} (hr : r ∈ headerRows) (o : Opcode) (imm : BitVec 16) (ops : List Word)
    (hc : (0#8 ++ imm ++ o.code : Word) &&& r.maskWord = r.matchWord) (hl : r.words = ops.length + 1) :
    commandWellFormed (header o imm :: ops) = true := by
  simp only [commandWellFormed, List.any_eq_true]
  exact ⟨r, hr, by simp [HeaderRow.covers, header, hc, hl]⟩

/-- The length of a header's command is one word and its opcode's operand words. -/
theorem commandLength_header (o : Opcode) (imm : BitVec 16) : commandLength (header o imm) = 1 + o.operandWords := by
  simp [commandLength, headerOpc_header, Opcode.ofCode_code]

/-- The mask of a row without a must-be-zero bit keeps only `OPC` and `RSV`. -/
theorem mask_imm16 (c : Byte) (imm : BitVec 16) :
    (0#8 ++ imm ++ c : Word) &&& 0xFF0000FF#32 = 0#8 ++ 0#16 ++ c := by
  apply BitVec.eq_of_getLsbD_eq
  intro i hi
  have h : (0xFF0000FF#32 : Word) = 0xFF#8 ++ 0#16 ++ 0xFF#8 := by decide
  rw [h]
  have ho : (0xFF#8).getLsbD (i : Nat) = decide (i < 8) := by
    have : (0xFF#8) = BitVec.allOnes 8 := by decide
    rw [this, BitVec.getLsbD_allOnes]
  simp only [BitVec.getLsbD_and, BitVec.getLsbD_append, ho, BitVec.getLsbD_zero]
  grind

/-- The mask of a row with an 8-bit operand drops that operand. -/
theorem mask_imm8 (c : Byte) (q : Byte) :
    (0#8 ++ q.setWidth 16 ++ c : Word) &&& 0xFFFF00FF#32 = 0#8 ++ 0#16 ++ c := by
  apply BitVec.eq_of_getLsbD_eq
  intro i hi
  have h : (0xFFFF00FF#32 : Word) = 0xFFFF#16 ++ 0#8 ++ 0xFF#8 := by decide
  rw [h]
  have ho : (0xFF#8).getLsbD (i : Nat) = decide (i < 8) := by
    have : (0xFF#8) = BitVec.allOnes 8 := by decide
    rw [this, BitVec.getLsbD_allOnes]
  have ho' : (0xFFFF#16).getLsbD (i - 8 - 8) = decide (i - 8 - 8 < 16) := by
    have : (0xFFFF#16) = BitVec.allOnes 16 := by decide
    rw [this, BitVec.getLsbD_allOnes]
  simp only [BitVec.getLsbD_and, BitVec.getLsbD_append, ho, BitVec.getLsbD_zero, BitVec.getLsbD_setWidth]
  grind

theorem EncodedLegal.qFromF32 (a : Word) : EncodedLegal.Statement (.qFromF32 a) :=
  ⟨row_covers_header (r := ⟨0x00000001, 0xFFFFFFFF, 2⟩) (by decide) _ _ _ (by decide) rfl, by
    simp [encode, commandLength_header, Opcode.operandWords]⟩

theorem EncodedLegal.hFromF32 (a : Word) : EncodedLegal.Statement (.hFromF32 a) :=
  ⟨row_covers_header (r := ⟨0x00000002, 0xFFFFFFFF, 2⟩) (by decide) _ _ _ (by decide) rfl, by
    simp [encode, commandLength_header, Opcode.operandWords]⟩

theorem EncodedLegal.qToF32 (q : Byte) : EncodedLegal.Statement (.qToF32 q) :=
  ⟨row_covers_header (r := ⟨0x00000003, 0xFFFF00FF, 1⟩) (by decide) _ _ _ (mask_imm8 _ _) rfl, by
    simp [encode, commandLength_header, Opcode.operandWords]⟩

theorem EncodedLegal.hToF32 (h : Half) : EncodedLegal.Statement (.hToF32 h) :=
  ⟨row_covers_header (r := ⟨0x00000004, 0xFF0000FF, 1⟩) (by decide) _ _ _ (mask_imm16 _ _) rfl, by
    simp [encode, commandLength_header, Opcode.operandWords]⟩

theorem EncodedLegal.qClass (q : Byte) : EncodedLegal.Statement (.qClass q) :=
  ⟨row_covers_header (r := ⟨0x00000005, 0xFFFF00FF, 1⟩) (by decide) _ _ _ (mask_imm8 _ _) rfl, by
    simp [encode, commandLength_header, Opcode.operandWords]⟩

theorem EncodedLegal.hClass (h : Half) : EncodedLegal.Statement (.hClass h) :=
  ⟨row_covers_header (r := ⟨0x00000006, 0xFF0000FF, 1⟩) (by decide) _ _ _ (mask_imm16 _ _) rfl, by
    simp [encode, commandLength_header, Opcode.operandWords]⟩

theorem EncodedLegal.qEncNan (code : BitVec 16) : EncodedLegal.Statement (.qEncNan code) :=
  ⟨row_covers_header (r := ⟨0x00000007, 0xFF0000FF, 1⟩) (by decide) _ _ _ (mask_imm16 _ _) rfl, by
    simp [encode, commandLength_header, Opcode.operandWords]⟩

theorem EncodedLegal.hEncNan (code : BitVec 16) : EncodedLegal.Statement (.hEncNan code) :=
  ⟨row_covers_header (r := ⟨0x00000008, 0xFF0000FF, 1⟩) (by decide) _ _ _ (mask_imm16 _ _) rfl, by
    simp [encode, commandLength_header, Opcode.operandWords]⟩

theorem EncodedLegal.qDecNan (q : Byte) : EncodedLegal.Statement (.qDecNan q) :=
  ⟨row_covers_header (r := ⟨0x00000009, 0xFFFF00FF, 1⟩) (by decide) _ _ _ (mask_imm8 _ _) rfl, by
    simp [encode, commandLength_header, Opcode.operandWords]⟩

theorem EncodedLegal.hDecNan (h : Half) : EncodedLegal.Statement (.hDecNan h) :=
  ⟨row_covers_header (r := ⟨0x0000000A, 0xFF0000FF, 1⟩) (by decide) _ _ _ (mask_imm16 _ _) rfl, by
    simp [encode, commandLength_header, Opcode.operandWords]⟩

theorem EncodedLegal.encStart : EncodedLegal.Statement .encStart :=
  ⟨row_covers_header (r := ⟨0x00000010, 0xFFFFFFFF, 1⟩) (by decide) _ _ _ (by decide) rfl, by
    simp [encode, commandLength_header, Opcode.operandWords]⟩

theorem EncodedLegal.encPoint (x y z : Word) : EncodedLegal.Statement (.encPoint x y z) :=
  ⟨row_covers_header (r := ⟨0x00000011, 0xFFFFFFFF, 4⟩) (by decide) _ _ _ (by decide) rfl, by
    simp [encode, commandLength_header, Opcode.operandWords]⟩

theorem EncodedLegal.encEnd : EncodedLegal.Statement .encEnd :=
  ⟨row_covers_header (r := ⟨0x00000012, 0xFFFFFFFF, 1⟩) (by decide) _ _ _ (by decide) rfl, by
    simp [encode, commandLength_header, Opcode.operandWords]⟩

theorem EncodedLegal.decStart : EncodedLegal.Statement .decStart :=
  ⟨row_covers_header (r := ⟨0x00000018, 0xFFFFFFFF, 1⟩) (by decide) _ _ _ (by decide) rfl, by
    simp [encode, commandLength_header, Opcode.operandWords]⟩

theorem EncodedLegal.decByte (b : Byte) : EncodedLegal.Statement (.decByte b) :=
  ⟨row_covers_header (r := ⟨0x00000019, 0xFFFF00FF, 1⟩) (by decide) _ _ _ (mask_imm8 _ _) rfl, by
    simp [encode, commandLength_header, Opcode.operandWords]⟩

theorem EncodedLegal.decEnd : EncodedLegal.Statement .decEnd :=
  ⟨row_covers_header (r := ⟨0x0000001A, 0xFFFFFFFF, 1⟩) (by decide) _ _ _ (by decide) rfl, by
    simp [encode, commandLength_header, Opcode.operandWords]⟩

theorem EncodedLegal.rdCsr (n : BitVec 16) : EncodedLegal.Statement (.rdCsr n) :=
  ⟨row_covers_header (r := ⟨0x00000020, 0xFF0000FF, 1⟩) (by decide) _ _ _ (mask_imm16 _ _) rfl, by
    simp [encode, commandLength_header, Opcode.operandWords]⟩

end Sys2Proof.Laws
end

