-- ==== Sys2Proof/Laws/Step.lean ====
section
/-! SUPPORT. Everything a step can do, and everything the operations of the two sessions can do. -/

namespace Sys2Proof.Machine

/-- With the unbounded streams of this model no command is held (R66). -/
@[simp] theorem holdUnless_unbounded (s : State) (r : Host.Outcome State Fault Refusal) :
    holdUnless Config.depths s r = r := by
  cases r <;> simp [holdUnless, depthsFit, Config.depths, streamFits]

/-- A hold answers what the command answers, or leaves the state as it was. -/
theorem holdUnless_cases (d : Depths) (s : State) (r : Host.Outcome State Fault Refusal) :
    holdUnless d s r = r ∨ ∃ t, r = .next t ∧ depthsFit d s t = false ∧ holdUnless d s r = .next s := by
  cases r with
  | next t =>
    cases h : depthsFit d s t with
    | true => exact .inl (by simp [holdUnless, h])
    | false => exact .inr ⟨t, rfl, h, by simp [holdUnless, h]⟩
  | fault f => exact .inl rfl
  | refused f => exact .inl rfl

/-- Everything a step can do: wait for words, raise `E_ILLEGAL`, or run a decoded command. -/
theorem step_cases (s : State) :
    (decode s.words = .waiting ∧ step s = .next s.absorb) ∨
    (∃ c rest, decode s.words = .illegal c rest ∧ step s = .next ((s.consume rest).raise (.illegal c))) ∨
    (∃ i rest, decode s.words = .command i rest ∧ step s = exec i (s.consume rest)) := by
  cases h : decode s.words with
  | waiting => exact .inl ⟨rfl, by simp [step, issue, h]⟩
  | illegal c rest => exact .inr (.inl ⟨c, rest, rfl, by simp [step, issue, h]⟩)
  | command i rest => exact .inr (.inr ⟨i, rest, rfl, by simp [step, issue, h]⟩)

/-- Everything `encodeRecord` can answer, with the test that chose it (R153). -/
theorem encodeRecord_cases (B P : Point) :
    (deltaZero (pointDelta B P) = true ∧ encodeRecord B P = ⟨.elided, [], B⟩) ∨
    (deltaZero (pointDelta B P) = false ∧ quarterOverflows (pointDelta B P) = false ∧
      encodeRecord B P = ⟨.quarter, quarterRecord (pointDelta B P), quarterAdvance B (pointDelta B P)⟩) ∨
    (deltaZero (pointDelta B P) = false ∧ quarterOverflows (pointDelta B P) = true ∧
      halfOverflows (pointDelta B P) = false ∧
      encodeRecord B P = ⟨.half, halfRecord (pointDelta B P), halfAdvance B (pointDelta B P)⟩) ∨
    (deltaZero (pointDelta B P) = false ∧ quarterOverflows (pointDelta B P) = true ∧
      halfOverflows (pointDelta B P) = true ∧ encodeRecord B P = ⟨.absolute, absoluteRecord P, P⟩) := by
  cases hz : deltaZero (pointDelta B P) <;> cases hq : quarterOverflows (pointDelta B P) <;>
    cases hh : halfOverflows (pointDelta B P) <;> simp [encodeRecord, hz, hq, hh]

/-- Everything one byte of a record body can do: finish the record, or only be collected (R181). -/
theorem bodyByte_cases (need : Nat) (k : RecKind) (base : Point → Vector Byte 12 → Point) (b : Byte) (s : State) :
    (s.decK + 1 = need ∧
      bodyByte need k base b s = finishRecord k (base s.decBase (s.decBuf.setIfInBounds s.decK b)) (s.collect b)) ∨
    (s.decK + 1 ≠ need ∧ bodyByte need k base b s = (s.collect b).complete (byteResult .none)) := by
  by_cases h : s.decK + 1 = need
  · exact .inl ⟨h, by simp [bodyByte, h]⟩
  · exact .inr ⟨h, by simp [bodyByte, h]⟩

/-- Everything a tag byte can do: start a record of one of the three kinds, or fail the session (R184, R185). -/
theorem tagByte_cases (b : Byte) (s : State) :
    (qDecodeNaN b = none ∧
      tagByte b s =
        State.complete { s with decBuf := s.decBuf.set 0 b, decK := 1, decPhase := .qrec } (byteResult .none)) ∨
    (qDecodeNaN b = some 1 ∧
      tagByte b s = State.complete { s with decK := 0, decPhase := .arec } (byteResult .none)) ∨
    (qDecodeNaN b = some 2 ∧
      tagByte b s = State.complete { s with decK := 0, decPhase := .hrec } (byteResult .none)) ∨
    (∃ c, qDecodeNaN b = some c ∧ c ≠ 1 ∧ c ≠ 2 ∧
      tagByte b s = State.raise { s with decPhase := .failed, decFail := .badEscape } (.corrupt .badEscape)) := by
  unfold tagByte
  split
  next h => exact .inl ⟨h, rfl⟩
  next h => exact .inr (.inl ⟨h, rfl⟩)
  next h => exact .inr (.inr (.inl ⟨h, rfl⟩))
  next c h1 h2 h => exact .inr (.inr (.inr ⟨c, h, h1, h2, rfl⟩))

/-- The escape bytes are `Q.EncodeNaN` of codes 1 and 2 (R78). -/
theorem escape_bytes : qEncodeNaN 1 = some escAbs ∧ qEncodeNaN 2 = some escHalf := by decide

/-- A CSR read answers for exactly the numbers below 16 (R34, R211). -/
theorem csrRead_isSome (s : State) (n : BitVec 16) : (csrRead s n).isSome = decide (n.toNat < 16) := by
  unfold csrRead
  split <;> simp_all
  omega

/-- A word carried over a byte-wide link is read back (R58). -/
theorem rd32_le32 (v : Word) :
    rd32 (v.extractLsb' 0 8) (v.extractLsb' 8 8) (v.extractLsb' 16 8) (v.extractLsb' 24 8) = v := by
  apply BitVec.eq_of_getLsbD_eq
  intro i hi
  simp only [rd32, BitVec.getLsbD_append, BitVec.getLsbD_extractLsb']
  grind

/-- A Half field is read back from its two bytes (R56). -/
theorem rd16_le16 (h : Half) : rd16 (h.extractLsb' 0 8) (h.extractLsb' 8 8) = h := by
  apply BitVec.eq_of_getLsbD_eq
  intro i hi
  simp only [rd16, BitVec.getLsbD_append, BitVec.getLsbD_extractLsb']
  grind

end Sys2Proof.Machine
end

