-- ==== Sys2Proof/Tests/Slice0.lean ====
section
/-! SUPPORT. Tests: expected values are read from the spec's encodings and from spec/95_test_vectors.md, whose section
each test names; then one witness for each obligation with hypotheses, a concrete input that meets them together. -/

open Sys2Proof Sys2Proof.Machine

namespace Sys2Proof.Tests

/-- The `STATUS` and `RESULT` a command leaves. -/
def answerOf (i : Instr) (s : State) : Option (Word × Word) :=
  match exec i s with
  | .next t => some (t.status, t.result)
  | .fault _ => none
  | .refused _ => none

/-- The state a command leaves; the given one where it stops. -/
def after (i : Instr) (s : State) : State :=
  match exec i s with
  | .next t => t
  | .fault _ => s
  | .refused _ => s

/-- The state an outcome carries. -/
def stateOf (o : Host.Outcome State Fault Refusal) : Option State :=
  match o with
  | .next t => some t
  | .fault _ => none
  | .refused _ => none

/-- An encoder session in phase `RUN` with this baseline, after the header was emitted. -/
def runState (x y z : Word) : State :=
  { State.reset with encPhase := .run, encBase := ⟨x, y, z⟩, encNPts := 2#32, encNBytes := 12#32 }

/-- A decoder session in this phase with this many bytes collected, all of them zero, after its header. -/
def decState (p : DecPhase) (k : Nat) : State :=
  { State.reset with decPhase := p, decK := k, decNPts := 1#32, decNBytes := 13#32 }

/-- A state with these words on the command port. -/
def portState (ws : List Word) : State := { State.reset with port := ws }

/-! ### WellFormed: each check refuses an ill-formed header (R90) -/

theorem test_wf_accepts : commandWellFormed [0x00000001#32, 0x3FC00000#32] = true := by decide
theorem test_wf_refuses_rsv : headerLegal 0x01000019#32 = false := by decide
theorem test_wf_refuses_opc : headerLegal 0x0000000B#32 = false := by decide
theorem test_wf_refuses_imm : headerLegal 0x00010019#32 = false := by decide
theorem test_wf_refuses_imm_of_no_operand : headerLegal 0x00000110#32 = false := by decide
theorem test_wf_refuses_missing_operand : commandWellFormed [0x00000011#32, 0#32, 0#32] = false := by decide
theorem test_wf_refuses_extra_operand : commandWellFormed [0x00000012#32, 0#32] = false := by decide
theorem test_wf_refuses_nothing : commandWellFormed [] = false := by decide

/-! ### Decode: a word for each constructor, written out from the opcode map (R88) -/

theorem test_decode_qFromF32 :
    decode [0x00000001#32, 0xDEADBEEF#32] = .command (.qFromF32 0xDEADBEEF#32) [] := by decide
theorem test_decode_hFromF32 :
    decode [0x00000002#32, 0x3C7FF800#32] = .command (.hFromF32 0x3C7FF800#32) [] := by decide
theorem test_decode_qToF32 : decode [0x0000A103#32] = .command (.qToF32 0xA1#8) [] := by decide
theorem test_decode_hToF32 : decode [0x00B80104#32] = .command (.hToF32 0xB801#16) [] := by decide
theorem test_decode_qClass : decode [0x00009F05#32] = .command (.qClass 0x9F#8) [] := by decide
theorem test_decode_hClass : decode [0x00F80006#32] = .command (.hClass 0xF800#16) [] := by decide
theorem test_decode_qEncNan : decode [0x00003E07#32] = .command (.qEncNan 62#16) [] := by decide
theorem test_decode_hEncNan : decode [0x000FFE08#32] = .command (.hEncNan 4094#16) [] := by decide
theorem test_decode_qDecNan : decode [0x0000E109#32] = .command (.qDecNan 0xE1#8) [] := by decide
theorem test_decode_hDecNan : decode [0x0078010A#32] = .command (.hDecNan 0x7801#16) [] := by decide
theorem test_decode_encStart : decode [0x00000010#32] = .command .encStart [] := by decide
theorem test_decode_encPoint :
    decode [0x00000011#32, 0x3F800000#32, 0x40000000#32, 0x40400000#32, 0x00000012#32] =
      .command (.encPoint 0x3F800000#32 0x40000000#32 0x40400000#32) [0x00000012#32] := by decide
theorem test_decode_encEnd : decode [0x00000012#32] = .command .encEnd [] := by decide
theorem test_decode_decStart : decode [0x00000018#32] = .command .decStart [] := by decide
theorem test_decode_decByte : decode [0x00006319#32] = .command (.decByte 0x63#8) [] := by decide
theorem test_decode_decEnd : decode [0x0000001A#32] = .command .decEnd [] := by decide
theorem test_decode_rdCsr : decode [0x00FFFF20#32] = .command (.rdCsr 0xFFFF#16) [] := by decide

/-- Section 6.2: which cause wins, and that an illegal `ENC_POINT` takes its operand words. -/
theorem test_decode_illegal :
    decode [0x01000000#32] = .illegal .badRsv [] ∧ decode [0x000000FF#32] = .illegal .badOpc [] ∧
    decode [0x00010003#32] = .illegal .badImm [] ∧
    decode [0x00000111#32, 0x3F800000#32, 0#32, 0#32, 7#32] = .illegal .badImm [7#32] := by decide

theorem test_encode_decByte : encode (.decByte 0x63#8) = [0x00006319#32] := by decide
theorem test_encode_encPoint : encode (.encPoint 1#32 2#32 3#32) = [0x00000011#32, 1#32, 2#32, 3#32] := by decide

theorem test_decodeTableWord :
    decodeTableWord 64 0x3FC0000000000001 = some (.qFromF32 0x3FC00000#32) ∧
    decodeTableWord 32 0x00000011 = some (.encPoint 0#32 0#32 0#32) ∧
    decodeTableWord 32 0x00FFFF20 = some (.rdCsr 0xFFFF#16) ∧ decodeTableWord 32 0x0000000B = none := by decide

/-! ### Converters (sections 3.2 to 3.4) -/

theorem test_qFromF32_tie_away :
    answerOf (.qFromF32 0x3F820000#32) State.reset = some (0#32, 0x21#32) := by decide
theorem test_qFromF32_saturates :
    answerOf (.qFromF32 0xC07E0000#32) State.reset = some (0#32, 0xE0#32) := by decide
theorem test_hFromF32_denormal :
    answerOf (.hFromF32 0x3C23D70A#32) State.reset = some (0#32, 0x051E#32) := by decide
theorem test_hFromF32_half_way :
    answerOf (.hFromF32 0x3C7FF000#32) State.reset = some (0#32, 0x07FF#32) := by decide
theorem test_qToF32_denormal : answerOf (.qToF32 0x83#8) State.reset = some (0#32, 0xBDC00000#32) := by decide
theorem test_qToF32_nan : answerOf (.qToF32 0xE1#8) State.reset = some (0#32, 0xFF840000#32) := by decide
theorem test_hToF32_denormal : answerOf (.hToF32 0x8001#16) State.reset = some (0#32, 0xB7000000#32) := by decide
theorem test_hToF32_largest : answerOf (.hToF32 0xF7FF#16) State.reset = some (0#32, 0xC37FF000#32) := by decide

/-- Section 3.3, the column `ROUND_AT_DENORMAL_CUT` (R105). -/
theorem test_round_at_denormal_cut :
    fromFloat Config.half .roundAtDenormalCut 0x3C7FF000#32 = 0x0800 ∧
    fromFloat Config.half .roundAtDenormalCut 0x3C23D70A#32 = 0x051F ∧
    fromFloat Config.half .roundAtDenormalCut 0x36FFF7FF#32 = 0x0001 := by decide

/-! ### Predicates and the NaN channel (sections 3.4 and 3.6) -/

theorem test_qClass : answerOf (.qClass 0xE0#8) State.reset = some (0#32, 0x28#32) := by decide
theorem test_hClass : answerOf (.hClass 0x07FF#16) State.reset = some (0#32, 0x80#32) := by decide
theorem test_qEncNan_hole : answerOf (.qEncNan 31#16) State.reset = some (0#32, 0xE0#32) := by decide
theorem test_qEncNan_range : answerOf (.qEncNan 63#16) State.reset = some (0x01#32, 0#32) := by decide
theorem test_hEncNan_negative : answerOf (.hEncNan 2048#16) State.reset = some (0#32, 0xF801#32) := by decide
theorem test_hEncNan_range : answerOf (.hEncNan 4095#16) State.reset = some (0x01#32, 0#32) := by decide
theorem test_qDecNan_negative : answerOf (.qDecNan 0xF0#8) State.reset = some (0#32, 0x2F#32) := by decide
theorem test_qDecNan_state : answerOf (.qDecNan 0xE0#8) State.reset = some (0x02#32, 0#32) := by decide
theorem test_hDecNan : answerOf (.hDecNan 0xFFFF#16) State.reset = some (0#32, 0xFFE#32) := by decide
theorem test_hDecNan_state : answerOf (.hDecNan 0x07FF#16) State.reset = some (0x02#32, 0#32) := by decide

/-! ### The f32 primitives (section 3.5) -/

theorem test_f32Add :
    f32Add 0x3E99999A#32 0x3E900000#32 = 0x3F14CCCD#32 ∧ f32Add 0x7F61B1E6#32 0x7F61B1E6#32 = 0x7F800000#32 ∧
    f32Add 0x80000000#32 0x80000000#32 = 0x80000000#32 ∧ f32Add 0x3F800000#32 0xFF800001#32 = 0xFFC00001#32 := by decide
/-- The last value is the delta of section 1.2, rounded by R115: log entry 10. -/
theorem test_f32Sub :
    f32Sub 0x3E99999A#32 0x3E900000#32 = 0x3C9999A0#32 ∧ f32Sub 0x80000000#32 0x80000000#32 = 0x00000000#32 ∧
    f32Sub 0x00000001#32 0x00000001#32 = 0x00000000#32 ∧ f32Sub 0x3C23D70A#32 0x47C35000#32 = 0xC7C34FFF#32 := by decide

/-! ### The encoder (sections 4.1, 4.2 and 4.4) -/

theorem test_encStart : answerOf .encStart (runState 1#32 2#32 3#32) = some (0#32, 0#32) := by decide
/-- The second point of a session: header and Quarter record. -/
theorem test_encPoint_second :
    let t := after (.encPoint 0x3F800000#32 0#32 0#32) { runState 0#32 0#32 0#32 with encPhase := .held }
    t.result = 0x0F0A#32 ∧ t.obs = List.replicate 12 0#8 ++ [0x20#8, 0#8, 0#8] ∧
    t.encBase = ⟨0x3F800000#32, 0#32, 0#32⟩ := by decide
/-- A Half record in phase `RUN`. -/
theorem test_encPoint_half :
    let t := after (.encPoint 0x42C80000#32 0x3F000000#32 0#32) (runState 0#32 0#32 0#32)
    t.result = 0x0703#32 ∧ t.obs = [0x63#8, 0x80#8, 0x6C#8, 0x00#8, 0x30#8, 0x00#8, 0x00#8] ∧
    t.encBase = ⟨0x42C80000#32, 0x3F000000#32, 0#32⟩ := by decide
theorem test_encEnd_result :
    answerOf .encEnd { runState 0#32 0#32 0#32 with encNBytes := 15#32 } = some (0#32, 0x0F#32) := by decide
theorem test_encEnd_idle : answerOf .encEnd State.reset = some (0x15#32, 0#32) := by decide

/-! ### The decoder (sections 5.1 and 5.2) -/

theorem test_decStart : (after .decStart State.reset).decPhase = .base := by decide
/-- The last byte of a Half record of (4.0, -4.0, 0). -/
theorem test_decByte_half :
    let s := { decState .hrec 5 with decBuf := ⟨#[0x00, 0x48, 0x00, 0xC8, 0, 0, 0, 0, 0, 0, 0, 0], rfl⟩ }
    let t := after (.decByte 0x00#8) s
    t.result = 0x07#32 ∧ t.ops = [⟨0x40800000#32, 0xC0800000#32, 0x00000000#32⟩] := by decide
theorem test_decByte_bad_escape : answerOf (.decByte 0x61#8) (decState .tag 0) = some (0x13#32, 0#32) := by decide
theorem test_decEnd_truncated : answerOf .decEnd (decState .hrec 5) = some (0x23#32, 0#32) := by decide
theorem test_decEnd_result : answerOf .decEnd (decState .tag 0) = some (0#32, 0x01#32) := by decide

/-! ### Registers, steps, the host's port (sections 5.2, 6.1 and 6.2) -/

theorem test_rdCsr_decState : answerOf (.rdCsr 9#16) (decState .hrec 5) = some (0#32, 0x054#32) := by decide
theorem test_rdCsr_config : answerOf (.rdCsr 15#16) State.reset = some (0#32, 0x00080010#32) := by decide
theorem test_withFetchWord :
    (stateOf (step (State.reset.withFetchWord 32 0x00006209))).map (fun t => (t.status, t.result, t.port)) =
      some (0#32, 0x01#32, []) := by decide
/-- An `ENC_POINT` whose operands have not arrived is collected and not answered. -/
theorem test_step_waits :
    (stateOf (step (portState [0x00000011#32, 1#32]))).map (fun t => (t.cmdBuf, t.port, t.rsp)) =
      some ([0x00000011#32, 1#32], [], []) := by decide
/-- A realisation with room for no byte holds the command and leaves the state. -/
theorem test_issue_holds :
    let s := { runState 0#32 0#32 0#32 with port := [0x00000011#32, 0x3F800000#32, 0#32, 0#32] }
    stateOf (issue ⟨some 0, none⟩ s) = some s := by decide
/-- The same realisation runs a command that appends nothing. -/
theorem test_issue_runs_without_append :
    (stateOf (issue ⟨some 0, some 0⟩ { portState [0x00000020#32] with obs := [1#8] })).map (·.result) =
      some 0x4E464331#32 := by decide
/-- The response of section 6.1's `RD_CSR 0x000`, and the point of section 5.1's `H0 20 00 00`, over a byte-wide link. -/
theorem test_link_out :
    ({ State.reset with rsp := [⟨0#32, 0x4E464331#32⟩] }).takeRspLink.1 =
      [0#8, 0#8, 0#8, 0#8, 0x31#8, 0x43#8, 0x46#8, 0x4E#8] ∧
    ({ State.reset with ops := [⟨0x3F800000#32, 0#32, 0#32⟩] }).takeOpsLink.1 =
      [0#8, 0#8, 0x80#8, 0x3F#8, 0#8, 0#8, 0#8, 0#8, 0#8, 0#8, 0#8, 0#8] := by decide
/-- Log entry 19: a reset keeps the words of a command held for room. -/
theorem test_reset_keeps_held_words :
    let s := { runState 0#32 0#32 0#32 with port := [0x00000011#32, 0x3F800000#32, 0#32, 0#32] }
    ((stateOf (issue ⟨some 0, none⟩ s)).map State.assertReset).map (·.port) =
      some [0x00000011#32, 0x3F800000#32, 0#32, 0#32] := by decide
theorem test_link_bytes : linkWords [0x19#8, 0x63#8, 0#8, 0#8, 0x1A#8] = ([0x00006319#32], [0x1A#8]) := by decide

/-! ### The assembler's literals and lines (R91, R92, section 1.2) -/

theorem test_assemble_float :
    assemble .qFromF32 [.float false 1 2] = some (.qFromF32 0x3C23D70A#32) ∧
    assemble .hFromF32 [.float true 100000 0] = some (.hFromF32 0xC7C35000#32) := by decide
theorem test_assemble_refuses : assemble .decByte [.number 256] = none ∧ assemble .encStart [.number 0] = none := by
  decide
theorem test_nop : expandPseudo .nop = [.rdCsr 0#16] := by decide

/-! ### Witnesses: inputs that meet every hypothesis of an obligation -/

theorem witness_EncodeOfDecodedCommand :
    decode [0x0000A103#32, 5#32] = .command (.qToF32 0xA1#8) [5#32] := by decide

/-- One header for each clause: `RSV`, `OPC`, `IMM`, legal; the first three operand words are consumed. -/
theorem witness_HeaderChecksInOrder :
    ([1#32, 2#32, 3#32].length + 1 = commandLength 0x01000011#32 ∧ (0x01000011#32).extractLsb' 24 8 ≠ 0#8) ∧
    (([] : List Word).length + 1 = commandLength 0x000000FF#32 ∧ (0x000000FF#32).extractLsb' 24 8 = 0#8 ∧
      ∀ r ∈ headerRows, r.matchWord.extractLsb' 0 8 ≠ (0x000000FF#32).extractLsb' 0 8) ∧
    ([1#32].length + 1 = commandLength 0x00000101#32 ∧ (0x00000101#32).extractLsb' 24 8 = 0#8 ∧
      (∃ r ∈ headerRows, r.matchWord.extractLsb' 0 8 = (0x00000101#32).extractLsb' 0 8) ∧
      headerLegal 0x00000101#32 = false) ∧
    (([] : List Word).length + 1 = commandLength 0x00FFFF20#32 ∧ headerLegal 0x00FFFF20#32 = true) := by decide

theorem witness_CommandLengthByOpcode :
    (∃ r ∈ headerRows, r.matchWord.extractLsb' 0 8 = (0xFFFFFF11#32).extractLsb' 0 8 ∧ r.words = 4) ∧
    (∀ r ∈ headerRows, r.matchWord.extractLsb' 0 8 ≠ (0x00000000#32).extractLsb' 0 8) := by decide

theorem witness_StepRunsDecodedCommand :
    let s := { portState [2#32, 3#32, 9#32] with cmdBuf := [0x00000011#32, 1#32] }
    decode (s.cmdBuf ++ s.port) = .command (.encPoint 1#32 2#32 3#32) [9#32] := by decide

theorem witness_IllegalHeaderRaises :
    decode (portState [0x0000000B#32, 9#32]).port = .illegal .badOpc [9#32] ∧
    decode (portState [0x01000019#32]).port = .illegal .badRsv [] ∧
    decode (portState [0x00000101#32, 0x3F800000#32]).port = .illegal .badImm [] := by decide

theorem witness_IncompleteCommandWaits :
    (portState [0x00000011#32, 1#32, 2#32]).cmdBuf ++ (portState [0x00000011#32, 1#32, 2#32]).port =
      0x00000011#32 :: [1#32, 2#32] ∧ [1#32, 2#32].length + 1 < commandLength 0x00000011#32 ∧
    State.reset.cmdBuf = [] ∧ State.reset.port = [] := by decide

theorem witness_PiecewiseDeliverySameEffect :
    decode ((portState [0x00000011#32]).words ++ [1#32, 2#32]) = .waiting ∧
    decode (State.reset.words ++ []) = .waiting := by decide

theorem witness_FetchWordRunsInstruction :
    decodeTableWord 64 0x3F80000000000001 = some (.qFromF32 0x3F800000#32) := by decide

/-- The bounds of each clause: NaN, overflow, flush to zero, finite. -/
theorem witness_QuarterFromF32Completes :
    let m := fun a : Word => (a.extractLsb' 0 31).toNat
    0x7F800000 < m 0xFF800001#32 ∧ 0x407E0000 ≤ m 0x407E0000#32 ∧ m 0x7F800000#32 ≤ 0x7F800000 ∧
    m 0xBCFDFFFF#32 < 0x3CFE0000 ∧ 0x3CFE0000 ≤ m 0x3CFE0000#32 ∧ m 0xC07DFFFF#32 < 0x407E0000 ∧
    [0xFF800001#32, 0x407E0000#32, 0xBCFDFFFF#32, 0x3CFE0000#32, 0xC07DFFFF#32].map qFromFloat =
      [0xF0#8, 0x60#8, 0x80#8, 0x01#8, 0xDF#8] := by decide

theorem witness_HalfFromF32Completes :
    let m := fun a : Word => (a.extractLsb' 0 31).toNat
    0x7F800000 < m 0x7F800001#32 ∧ 0x437FF800 ≤ m 0x437FF800#32 ∧ m 0xFF800000#32 ≤ 0x7F800000 ∧
    m 0x36FFF7FF#32 < 0x36FFF800 ∧ 0x36FFF800 ≤ m 0xB6FFF800#32 ∧ m 0x437FF7FF#32 < 0x437FF800 ∧
    [0x7F800001#32, 0x437FF800#32, 0x36FFF7FF#32, 0xB6FFF800#32, 0x437FF7FF#32].map hFromFloat =
      [0x7C00#16, 0x7800#16, 0x0000#16, 0x8001#16, 0x77FF#16] := by decide

theorem witness_QuarterRoundsNearestAway :
    0x3F7E0000 ≤ ((0x3F7E0000#32).extractLsb' 0 31).toNat ∧ ((0x407DFFFF#32).extractLsb' 0 31).toNat < 0x407E0000 ∧
    narrowExp Config.quarter (0x5F#8).toNat ≠ 3 ∧
    qFromFloat 0x3F7E0000#32 = 0x20#8 ∧ qFromFloat 0x407DFFFF#32 = 0x5F#8 := by decide

theorem witness_HalfRoundsNearestAway :
    0x3C7FF800 ≤ ((0x3C7FF800#32).extractLsb' 0 31).toNat ∧ ((0x437FF7FF#32).extractLsb' 0 31).toNat < 0x437FF800 ∧
    narrowExp Config.half (0x77FF#16).toNat ≠ 15 ∧
    hFromFloat 0x3C7FF800#32 = 0x0800#16 ∧ hFromFloat 0x437FF7FF#32 = 0x77FF#16 := by decide

/-- The last magnitudes of the two denormal ranges, and the flush bounds (section 3.3). -/
theorem witness_DenormalResultsTruncate :
    ((0x3F7DFFFF#32).extractLsb' 0 31).toNat < 0x3F7E0000 ∧ qFromFloat 0x3F7DFFFF#32 = 0x1F#8 ∧
    qFromFloat 0x3CFE0000#32 = 0x01#8 ∧
    ((0x3C7FF7FF#32).extractLsb' 0 31).toNat < 0x3C7FF800 ∧ hFromFloat 0x3C7FF7FF#32 = 0x07FF#16 := by decide

theorem witness_QuantizationErrorBounded :
    ((0x407DFFFF#32).extractLsb' 0 31).toNat < 0x407E0000 ∧
    1 ≤ narrowExp Config.quarter (qFromFloat 0x407DFFFF#32).toNat ∧
    ((0x437FF7FF#32).extractLsb' 0 31).toNat < 0x437FF800 ∧
    1 ≤ narrowExp Config.half (hFromFloat 0x437FF7FF#32).toNat := by decide

theorem witness_ToF32Completes :
    ((0x5F#8).extractLsb' 5 2).toNat < 3 ∧ ((0x60#8).extractLsb' 5 2).toNat = 3 ∧
    ((0x77FF#16).extractLsb' 11 4).toNat < 15 ∧ ((0x7800#16).extractLsb' 11 4).toNat = 15 := by decide

/-- The class bounds of both formats: the first and the last pattern of each range. -/
theorem witness_ClassCommandsComplete :
    [0x61#8, 0xFF#8, 0x01#8, 0x9F#8, 0x20#8, 0xDF#8].map (fun q => (classBits Config.quarter q.toNat).toNat) =
      [0x40, 0x40, 0x80, 0x80, 0, 0] ∧
    [0x7801#16, 0xFFFF#16, 0x0001#16, 0x87FF#16, 0x0800#16, 0xF7FF#16].map
      (fun h => (classBits Config.half h.toNat).toNat) = [0x40, 0x40, 0x80, 0x80, 0, 0] := by decide

theorem witness_EncNanCommandsComplete :
    (62#16).toNat < 63 ∧ (30#16).toNat ≤ 30 ∧ 31 ≤ (31#16).toNat ∧
    (4094#16).toNat < 4095 ∧ (2046#16).toNat ≤ 2046 ∧ 2047 ≤ (2047#16).toNat ∧
    [30, 31, 62].map qEncodeNaN = [some 0x7F#8, some 0xE0#8, some 0xFF#8] ∧
    [2046, 2047, 4094].map hEncodeNaN = [some 0x7FFF#16, some 0xF800#16, some 0xFFFF#16] := by decide

theorem witness_DecNanCommandsComplete :
    0x61 ≤ (0x61#8).toNat ∧ (0x7F#8).toNat ≤ 0x7F ∧ 0xE1 ≤ (0xE1#8).toNat ∧
    0x7801 ≤ (0x7801#16).toNat ∧ (0x7FFF#16).toNat ≤ 0x7FFF ∧ 0xF801 ≤ (0xF801#16).toNat ∧
    qDecodeNaN 0xE1#8 = some 32 ∧ hDecodeNaN 0xF801#16 = some 2048 := by decide

theorem witness_NanChannelErrors :
    63 ≤ (63#16).toNat ∧ 4095 ≤ (4095#16).toNat ∧ (0xE0#8).toNat % 0x80 ≤ 0x60 ∧
    (0xF800#16).toNat % 0x8000 ≤ 0x7800 ∧
    (62#16).toNat < 63 ∧ (4094#16).toNat < 4095 ∧ 0x60 < (0x61#8).toNat % 0x80 ∧
    0x7800 < (0xF801#16).toNat % 0x8000 := by decide

theorem witness_NanChannelRoundTrip :
    (62 < 63 ∧ 62 ≠ 31) ∧ (4094 < 4095 ∧ 4094 ≠ 2047) ∧ qIsNaN 0xE1#8 = true ∧
    narrowIsNaN Config.half (0x7FFF#16).toNat = true := by decide

theorem witness_SessionCommandsNeedSession : State.reset.encPhase = .idle ∧ State.reset.decPhase = .idle := by decide

theorem witness_FirstPointHeld : (after .encStart State.reset).encPhase = .empty := by decide

/-- A negative zero point at a positive zero baseline. -/
theorem witness_EncPointElided :
    (runState 0#32 0#32 0#32).encPhase = .run ∧ (f32Sub 0x80000000#32 0#32).extractLsb' 0 31 = 0#31 := by decide

/-- The last delta of the Quarter tier. -/
theorem witness_EncPointQuarterTier :
    (runState 0#32 0#32 0#32).encPhase = .run ∧ (f32Sub 0x407DFFFF#32 0#32).extractLsb' 0 31 ≠ 0#31 ∧
    ∀ q ∈ [qFromFloat (f32Sub 0x407DFFFF#32 0#32), qFromFloat (f32Sub 0#32 0#32), qFromFloat (f32Sub 0#32 0#32)],
      q ≠ 0x60#8 ∧ q ≠ 0xE0#8 := by decide

/-- The first and the last delta of the Half tier, quantized. -/
theorem test_half_tier_bounds :
    qFromFloat (f32Sub 0x407E0000#32 0#32) = 0x60#8 ∧
    hFromFloat (f32Sub 0x407E0000#32 0#32) = 0x47E0#16 ∧ hFromFloat (f32Sub 0xC37FF7FF#32 0#32) = 0xF7FF#16 ∧
    hFromFloat (f32Sub 0#32 0#32) = 0x0000#16 := by decide

theorem witness_EncPointHalfTier :
    qFromFloat (f32Sub 0x407E0000#32 0#32) = 0x60#8 ∧
    ∀ h ∈ [hFromFloat (f32Sub 0x407E0000#32 0#32), hFromFloat (f32Sub 0xC37FF7FF#32 0#32), hFromFloat (f32Sub 0#32 0#32)],
      h ≠ 0x7800#16 ∧ h ≠ 0xF800#16 := by
  obtain ⟨hq, h0, h1, h2⟩ := test_half_tier_bounds
  simp [hq, h0, h1, h2]

/-- The first delta past the Half tier, of either sign. -/
theorem witness_EncPointAbsoluteTier :
    hFromFloat (f32Sub 0x437FF800#32 0#32) = 0x7800#16 ∧ hFromFloat (f32Sub 0xC37FF800#32 0#32) = 0xF800#16 := by decide

theorem witness_SecondPointEmitsHeader :
    (after (.encPoint 1#32 2#32 3#32) (after .encStart State.reset)).encPhase = .held := by decide

theorem witness_EncPointResultTable : (runState 0#32 0#32 0#32).encPhase ≠ .idle := by decide

/-- Deltas at the bounds of the four outcomes, none a NaN. -/
theorem witness_TierByDeltaMagnitude :
    [0x80000000#32, 0x407DFFFF#32, 0x407E0000#32, 0x437FF7FF#32, 0x437FF800#32, 0x7F800000#32].map
      (fun x => ((f32Sub x 0#32).extractLsb' 0 31).toNat) =
      [0, 0x407DFFFF, 0x407E0000, 0x437FF7FF, 0x437FF800, 0x7F800000] := by decide

theorem witness_EncEndReportsByteCount : (after .encStart State.reset).encPhase ≠ .idle := by decide

/-- A tag of each kind, at the bounds of the ranges. -/
theorem witness_DecByteTag :
    (decState .tag 0).decPhase = .tag ∧ (0x60#8).toNat % 0x80 ≤ 0x60 ∧ (0xE0#8).toNat % 0x80 ≤ 0x60 ∧
    (0x61 ≤ (0x61#8).toNat % 0x80 ∧ 0x61#8 ≠ 0x62#8 ∧ 0x61#8 ≠ 0x63#8) ∧
    (0x61 ≤ (0xE2#8).toNat % 0x80 ∧ 0xE2#8 ≠ 0x62#8 ∧ 0xE2#8 ≠ 0x63#8) := by decide

/-- The last byte of each body that is not the record's last. -/
theorem witness_DecByteCollects :
    ∀ p ∈ [(DecPhase.base, 12), (DecPhase.qrec, 3), (DecPhase.hrec, 6), (DecPhase.arec, 12)],
      (decState p.1 (p.2 - 2)).decK + 1 < p.2 ∧ ((decState p.1 (p.2 - 2)).decPhase, p.2) ∈
        [(DecPhase.base, 12), (DecPhase.qrec, 3), (DecPhase.hrec, 6), (DecPhase.arec, 12)] := by decide

theorem witness_DecByteCompletesRecord :
    ((decState .base 11).decPhase = .base ∧ (decState .base 11).decK = 11) ∧
    ((decState .qrec 2).decPhase = .qrec ∧ (decState .qrec 2).decK = 2) ∧
    ((decState .hrec 5).decPhase = .hrec ∧ (decState .hrec 5).decK = 5) ∧
    ((decState .arec 11).decPhase = .arec ∧ (decState .arec 11).decK = 11) := by decide

theorem witness_DecByteAfterFailure : (after (.decByte 0x61#8) (decState .tag 0)).decPhase = .failed := by decide

/-- A state for each outcome: a record boundary, an empty stream, inside a header, inside a record, failed. -/
theorem witness_DecEndOutcomes :
    (decState .tag 0).decPhase ≠ .idle ∧ (after .decStart State.reset).decK = 0 ∧
    ((decState .base 11).decPhase = .base ∧ (decState .base 11).decK ≠ 0) ∧
    (decState .arec 0).decPhase ∈ [DecPhase.qrec, DecPhase.hrec, DecPhase.arec] ∧
    (decState .failed 0).decPhase = .failed := by decide

/-- A stream for each outcome of the source decoder. -/
theorem witness_DecoderSessionMatchesSource :
    (sourceDecode (List.replicate 12 0#8 ++ [0x20#8, 0#8, 0#8])).toOption.isSome = true ∧
    (sourceDecode (List.replicate 12 0#8 ++ [0x61#8, 0#8])).toOption.isSome = false ∧
    (sourceDecode (List.replicate 11 0#8)).toOption.isSome = false := by decide

theorem witness_BaselinesStayEqual :
    let s := { runState 0x3F800000#32 0#32 0#32 with decPhase := .tag, decBase := ⟨0x3F800000#32, 0#32, 0#32⟩ }
    s.encPhase = .run ∧ s.decPhase = .tag ∧ s.decBase = s.encBase ∧
    f32IsNaN (f32Sub 0x447A0000#32 s.encBase.x) = false := by decide

theorem witness_FiniteRoundTrip :
    [Point.mk 0x3F800000#32 0#32 0#32] ≠ [] ∧
    ∀ q ∈ [Point.mk 0#32 0#32 0#32, ⟨0xFF7FFFFF#32, 0#32, 0x00000001#32⟩],
      f32Exp q.x ≠ 255 ∧ f32Exp q.y ≠ 255 ∧ f32Exp q.z ≠ 255 := by decide

theorem witness_RdCsrReadsRegister : (15#16).toNat < 16 ∧ (decState .hrec 5).decK < 16 := by decide

theorem witness_RdCsrReservedRaises : 16 ≤ (16#16).toNat ∧ 16 ≤ (0xFFFF#16).toNat := by decide

theorem witness_OneResponsePerCommand :
    decode ((portState [0x0000000B#32]).cmdBuf ++ (portState [0x0000000B#32]).port) ≠ .waiting ∧
    stateOf (step (portState [0x0000000B#32])) = some (State.raise State.reset (.illegal .badOpc)) := by decide

/-- A step that appends both a header and an absolute record, and one that appends a point. -/
theorem witness_StreamsOnlyAppended :
    let s := { runState 0#32 0#32 0#32 with encPhase := .held }
    (after (.encPoint 0x47C35000#32 0#32 0#32) s).obs.length = 25 ∧
    (after (.decByte 0#8) (decState .base 11)).ops.length = 1 := by decide

/-- A command in error with `E_CORRUPT`, and one with another error. -/
theorem witness_ErrorsChangeNothingElse :
    (after (.decByte 0x61#8) (decState .tag 0)).status = 0x13#32 ∧ (after .encEnd State.reset).status = 0x15#32 := by
  decide

theorem witness_SessionsAreIndependent :
    SameEncoder State.reset (decState .hrec 5) ∧ SameDecoder State.reset (runState 1#32 2#32 3#32) :=
  ⟨⟨rfl, rfl, rfl, rfl, rfl⟩, ⟨rfl, rfl, rfl, rfl, rfl, rfl, rfl, rfl⟩⟩

/-- Depths with just enough room, and a step of them. -/
theorem witness_FiniteDepthHoldsOrSteps :
    State.reset.obs.length + 25 ≤ 25 ∧ State.reset.ops.length + 1 ≤ 1 ∧ State.reset.obs.length ≤ 25 ∧
    stateOf (issue ⟨some 25, some 1⟩ State.reset) = some State.reset := by decide

/-- A step whose next state fits depths of 3 bytes and does not fit depths of 2, and one that appends nothing to a stream
longer than its depth. -/
theorem witness_FiniteDepthHoldsOrSteps_room :
    let s := { runState 0#32 0#32 0#32 with port := [0x00000011#32, 0x3F800000#32, 0#32, 0#32] }
    let r := { portState [0x00000020#32] with obs := [1#8] }
    (stateOf (step s)).map (·.obs.length) = some 3 ∧
    (stateOf (issue ⟨some 3, none⟩ s)).map (·.obs.length) = some 3 ∧ stateOf (issue ⟨some 2, none⟩ s) = some s ∧
    (stateOf (step r)).map (·.obs) = some r.obs := by decide

/-- A waiting response, a waiting point, and empty streams. -/
theorem witness_LinkBytesCarryWords :
    ({ State.reset with rsp := [⟨0x13#32, 0#32⟩] }).rsp = ⟨0x13#32, 0#32⟩ :: [] ∧
    ({ State.reset with ops := [⟨1#32, 2#32, 3#32⟩] }).ops = ⟨1#32, 2#32, 3#32⟩ :: [] ∧
    State.reset.rsp = [] ∧ State.reset.ops = [] := by decide

theorem witness_ResetValues :
    State.reset ∈ [State.reset, (decState .hrec 5).assertReset] ∧ (decState .hrec 5).assertReset = State.reset := by
  decide

/-- A state with both sessions open that meets the invariant, and a step from it. -/
def openState : State := { runState 0#32 0#32 0#32 with decPhase := .hrec, decK := 5, decNPts := 1#32, decNBytes := 13#32 }

theorem openState_inv : openState.Inv where
  status_legal := by decide
  error_result := by decide
  last_response := by intro r h; cases h
  cmdBuf_waits := by decide
  dec_k := (by decide : 5 < 6)
  dec_fail := rfl
  enc_session := (by decide : 2 ≤ (2#32).toNat ∧ 12 ≤ (12#32).toNat)
  dec_session := (by decide : 1 ≤ (1#32).toNat ∧ 13 ≤ (13#32).toNat)

theorem witness_StepKeepsInvariant : openState.Inv ∧ ∃ t, step openState = .next t := ⟨openState_inv, openState, rfl⟩

theorem witness_HostActionsKeepInvariant : openState.Inv := openState_inv

/-- A finite sum at each of its outcomes: inexact, and the first that overflows. -/
theorem witness_F32AddRoundsNearestEven :
    f32Exp 0x7F7FFFFF#32 ≠ 255 ∧ f32Exp 0x73000000#32 ≠ 255 ∧ f32Exp 0x72FFFFFF#32 ≠ 255 ∧
    f32Add 0x7F7FFFFF#32 0x73000000#32 = 0x7F800000#32 ∧ f32Add 0x7F7FFFFF#32 0x72FFFFFF#32 = 0x7F7FFFFF#32 := by decide

theorem witness_F32SpecialOperands :
    (f32Exp 0xFF800000#32 ≠ 255 ∨ f32Frac 0xFF800000#32 = 0) ∧
    (f32Exp 0x3F800000#32 ≠ 255 ∧ f32Scaled 0x3F800000#32 + f32Scaled 0xBF800000#32 = 0) ∧
    (f32Exp 0xFF800000#32 = 255 ∧ f32Frac 0xFF800000#32 = 0) ∧
    (f32Exp 0x7F800001#32 = 255 ∧ f32Frac 0x7F800001#32 ≠ 0) := by decide

end Sys2Proof.Tests
end

section
/-! SUPPORT. The step by what the words decode to, and where the words of a command may lie. -/

namespace Sys2Proof.Machine

theorem step_of_waiting {s : State} (h : decode s.words = .waiting) : step s = .next s.absorb := by
  simp [step, issue, h]

theorem step_of_illegal {s : State} {c : IllegalCause} {rest : List Word} (h : decode s.words = .illegal c rest) :
    step s = .next ((s.consume rest).raise (.illegal c)) := by
  simp [step, issue, h]

theorem step_of_command {s : State} {i : Instr} {rest : List Word} (h : decode s.words = .command i rest) :
    step s = exec i (s.consume rest) := by
  simp [step, issue, h]

theorem decode_short {h : Word} {ws : List Word} (hlen : ws.length + 1 < commandLength h) :
    decode (h :: ws) = .waiting := by
  obtain ⟨-, hd⟩ | ⟨hle, -⟩ := decode_cons h ws
  · exact hd
  · omega

/-- With no word delivered there is nothing to take (R250). -/
theorem State.absorb_of_no_words {s : State} (hb : s.cmdBuf = []) (hp : s.port = []) : s.absorb = s := by
  cases s
  simp_all [State.absorb, State.words]

/-- Taking the words early, before more are delivered, takes the same words (R36). -/
theorem State.absorb_deliver_absorb (s : State) (vs : List Word) :
    (s.absorb.deliver vs).absorb = (s.deliver vs).absorb := by
  simp [State.absorb, State.deliver, State.words]

theorem State.consume_absorb_deliver (s : State) (vs rest : List Word) :
    (s.absorb.deliver vs).consume rest = (s.deliver vs).consume rest := rfl

theorem State.deliver_append (s : State) (ws vs : List Word) : s.deliver (ws ++ vs) = (s.deliver ws).deliver vs := by
  simp [State.deliver]

/-- A step does not see which of its words were already in `CMDBUF` (R36). -/
theorem step_absorb_deliver (s : State) (vs : List Word) : step (s.absorb.deliver vs) = step (s.deliver vs) := by
  have hwords : (s.absorb.deliver vs).words = (s.deliver vs).words := by simp
  cases h : decode (s.deliver vs).words with
  | waiting => rw [step_of_waiting h, step_of_waiting (hwords ▸ h), s.absorb_deliver_absorb]
  | illegal c rest => rw [step_of_illegal h, step_of_illegal (hwords ▸ h), s.consume_absorb_deliver]
  | command i rest => rw [step_of_command h, step_of_command (hwords ▸ h), s.consume_absorb_deliver]

/-- Settles O8: words too few for their header wait, and no word at all is the idle block. -/
theorem incompleteCommandWaits : Obligations.IncompleteCommandWaits := by
  constructor
  · intro s h ws hwords hlen
    exact step_of_waiting (show decode (s.cmdBuf ++ s.port) = .waiting from hwords ▸ decode_short hlen)
  · intro s hbuf hport
    have hwait : decode s.words = .waiting := by simp [State.words, hbuf, hport, decode]
    rw [step_of_waiting hwait, State.absorb_of_no_words hbuf hport]

/-- Settles O9: the first step takes the words into `CMDBUF`, and the next step does not see that they lie there. -/
theorem piecewiseDeliverySameEffect : Obligations.PiecewiseDeliverySameEffect := by
  intro s ws vs hwait
  refine ⟨(s.deliver ws).absorb, step_of_waiting (by simpa using hwait), ?_⟩
  rw [step_absorb_deliver, s.deliver_append]

end Sys2Proof.Machine
end

section
/-! SUPPORT. The sixteen registers as one table (R33, R34), and `RD_CSR` as a look-up in it. -/

namespace Sys2Proof.Machine

/-- The registers in the order of their numbers (R33, R34). -/
def State.csrs (s : State) : List Word :=
  [Config.idWord, s.status, s.result, encStateWord s, s.encBase.x, s.encBase.y, s.encBase.z, s.encNPts, s.encNBytes,
   decStateWord s, s.decBase.x, s.decBase.y, s.decBase.z, s.decNPts, s.decNBytes, configWord]

/-- `csrRead` is the look-up in the table; the numbers past its end are the reserved ones (R211). -/
theorem csrRead_eq_getElem? (s : State) (n : BitVec 16) : csrRead s n = s.csrs[n.toNat]? := by
  by_cases h : n.toNat < 16
  · unfold csrRead
    generalize n.toNat = m at h ⊢
    interval_cases m <;> rfl
  · have hnone : csrRead s n = none := by simpa [h] using csrRead_isSome s n
    rw [hnone, List.getElem?_eq_none (by simpa [State.csrs] using h)]

/-- `RD_CSR` of a number below 16 answers `OK` with the register's value in the state before it (R35, R210). -/
theorem exec_rdCsr_of_lt (s : State) (n : BitVec 16) (h : n.toNat < s.csrs.length) :
    exec (.rdCsr n) s = .next (s.complete s.csrs[n.toNat]) := by
  have hread : csrRead s n = some s.csrs[n.toNat] := by rw [csrRead_eq_getElem?, List.getElem?_eq_getElem h]
  change execRdCsr n s = _
  simp [execRdCsr, hread]

theorem encStateWord_eq (s : State) : encStateWord s = BitVec.ofNat 32 (encPhaseCode s.encPhase) := by
  unfold encStateWord
  cases s.encPhase <;> rfl

/-- The fields of a `DEC_STATE` word as one sum (R34). -/
theorem decState_fields {p k f : Nat} (hp : p < 8) (hk : k < 16) (hf : f < 16) :
    (BitVec.ofNat 4 f ++ BitVec.ofNat 4 k ++ 0#1 ++ BitVec.ofNat 3 p).setWidth 32 =
      BitVec.ofNat 32 (p + 16 * k + 256 * f) := by
  apply BitVec.eq_of_toNat_eq
  simp only [BitVec.toNat_setWidth, BitVec.toNat_append, BitVec.toNat_ofNat, Nat.zero_mod, Nat.or_zero]
  rw [← Nat.shiftLeft_add_eq_or_of_lt (by omega), ← Nat.shiftLeft_add_eq_or_of_lt (by omega)]
  simp only [Nat.shiftLeft_eq]
  omega

theorem decPhaseCode_lt (p : DecPhase) : decPhaseCode p < 8 := by cases p <;> decide

theorem decFailCode_lt (f : DecFail) : decFailCode f < 16 := by cases f <;> decide

theorem decStateWord_eq (s : State) (hk : s.decK < 16) :
    decStateWord s = BitVec.ofNat 32 (decPhaseCode s.decPhase + 16 * s.decK + 256 * decFailCode s.decFail) :=
  decState_fields (decPhaseCode_lt _) hk (decFailCode_lt _)

theorem configWord_eq : configWord = 0x00080010#32 := by decide

/-- Settles O46: a look-up in the table of registers, whose two packed words are sums of their fields. -/
theorem rdCsrReadsRegister : Obligations.RdCsrReadsRegister := by
  intro s n h hk
  refine ⟨_, exec_rdCsr_of_lt s n h, s.complete_only _, ?_⟩
  refine getElem_congr_coll ?_
  rw [State.csrs, encStateWord_eq, decStateWord_eq s hk, configWord_eq]
  cases s.encPhase <;> rfl

end Sys2Proof.Machine
end

section
/-! SUPPORT. The invariant of the block, taken apart: what the two sessions and `CMDBUF` must satisfy inside a command,
what the decoder's part says in each phase, and how a command's end makes the whole invariant of it. -/

namespace Sys2Proof.Machine

/-- The decoder's part of the invariant (R31, R32). -/
def DecoderOk (s : State) : Prop := decKOk s.decPhase s.decK ∧ decFailOk s.decPhase s.decFail ∧ decSessionOk s

theorem decoderOk_idle {s : State} (h : s.decPhase = .idle) : DecoderOk s ↔ s.decK = 0 := by
  simp [DecoderOk, decKOk, decFailOk, decSessionOk, h]

theorem decoderOk_base {s : State} (h : s.decPhase = .base) :
    DecoderOk s ↔ s.decK < 12 ∧ s.decFail = .none ∧ s.decNPts = 0#32 ∧ s.decNBytes.toNat = s.decK := by
  simp [DecoderOk, decKOk, decFailOk, decSessionOk, h]

theorem decoderOk_tag {s : State} (h : s.decPhase = .tag) :
    DecoderOk s ↔ s.decK = 0 ∧ s.decFail = .none ∧ 1 ≤ s.decNPts.toNat ∧ 12 ≤ s.decNBytes.toNat := by
  simp [DecoderOk, decKOk, decFailOk, decSessionOk, h]

/-- The phases of a record after its tag, with the fewest bytes collected in each and the bytes it needs (R31). -/
def recordPhases : List (DecPhase × Nat × Nat) := [(.qrec, 1, 3), (.hrec, 0, 6), (.arec, 0, 12)]

theorem decoderOk_record {s : State} {least need : Nat} (h : (s.decPhase, least, need) ∈ recordPhases) :
    DecoderOk s ↔ (least ≤ s.decK ∧ s.decK < need) ∧ s.decFail = .none ∧ 1 ≤ s.decNPts.toNat ∧
      13 ≤ s.decNBytes.toNat := by
  simp only [recordPhases, List.mem_cons, Prod.mk.injEq, List.not_mem_nil, or_false] at h
  obtain ⟨h, rfl, rfl⟩ | ⟨h, rfl, rfl⟩ | ⟨h, rfl, rfl⟩ := h <;> simp [DecoderOk, decKOk, decFailOk, decSessionOk, h]

theorem decoderOk_failed {s : State} (h : s.decPhase = .failed) :
    DecoderOk s ↔ s.decK = 0 ∧ s.decFail = .badEscape ∧ 1 ≤ s.decNPts.toNat ∧ 13 ≤ s.decNBytes.toNat := by
  simp [DecoderOk, decKOk, decFailOk, decSessionOk, h]

theorem encSessionOk_idle {s : State} (h : s.encPhase = .idle) : encSessionOk s := by simp [encSessionOk, h]

theorem encSessionOk_held {s : State} (h : s.encPhase = .held) :
    encSessionOk s ↔ s.encNPts = 1#32 ∧ s.encNBytes = 0#32 := by
  simp [encSessionOk, h]

theorem encSessionOk_empty {s : State} (h : s.encPhase = .empty) :
    encSessionOk s ↔ s.encBase = ⟨0#32, 0#32, 0#32⟩ ∧ s.encNPts = 0#32 ∧ s.encNBytes = 0#32 := by
  simp [encSessionOk, h]

theorem encSessionOk_run {s : State} (h : s.encPhase = .run) :
    encSessionOk s ↔ 2 ≤ s.encNPts.toNat ∧ 12 ≤ s.encNBytes.toNat := by
  simp [encSessionOk, h]

theorem SameDecoder.decoderOk {s t : State} (h : SameDecoder s t) (hs : DecoderOk s) : DecoderOk t := by
  obtain ⟨hphase, hk, -, hfail, -, hpts, hbytes, -⟩ := h
  simpa only [DecoderOk, decSessionOk, hphase, hk, hfail, hpts, hbytes] using hs

theorem SameEncoder.encSessionOk {s t : State} (h : SameEncoder s t) (hs : encSessionOk s) : encSessionOk t := by
  obtain ⟨hphase, hbase, hpts, hbytes, -⟩ := h
  simpa only [Machine.encSessionOk, hphase, hbase, hpts, hbytes] using hs

/-- The invariant without the answer of the last command: what holds also inside a command, before it ends. -/
structure State.SessionsOk (s : State) : Prop where
  cmdBuf_waits : decode s.cmdBuf = .waiting
  decoder : DecoderOk s
  encoder : encSessionOk s

/-- An operation of the encoder session has only the encoder's part to keep (R248). -/
theorem State.SessionsOk.of_encoder {s u : State} (h : s.SessionsOk) (henc : encSessionOk u)
    (hport : SamePort s u := by exact ⟨rfl, rfl⟩)
    (hdec : SameDecoder s u := by exact ⟨rfl, rfl, rfl, rfl, rfl, rfl, rfl, rfl⟩) : u.SessionsOk :=
  ⟨hport.1 ▸ h.cmdBuf_waits, hdec.decoderOk h.decoder, henc⟩

/-- An operation of the decoder session has only the decoder's part to keep (R248). -/
theorem State.SessionsOk.of_decoder {s u : State} (h : s.SessionsOk) (hdec : DecoderOk u)
    (hport : SamePort s u := by exact ⟨rfl, rfl⟩)
    (henc : SameEncoder s u := by exact ⟨rfl, rfl, rfl, rfl, rfl⟩) : u.SessionsOk :=
  ⟨hport.1 ▸ h.cmdBuf_waits, hdec, henc.encSessionOk h.encoder⟩

/-- After the words of a complete command are consumed, `CMDBUF` is empty and the sessions are as they were. -/
theorem State.Inv.consume {s : State} (h : s.Inv) (rest : List Word) : (s.consume rest).SessionsOk :=
  ⟨rfl, ⟨h.dec_k, h.dec_fail, h.dec_session⟩, h.enc_session⟩

/-- Collecting the words of an incomplete command changes only where they lie (R36). -/
theorem State.Inv.absorb {s : State} (h : s.Inv) (hwait : decode s.words = .waiting) : s.absorb.Inv :=
  ⟨h.status_legal, h.error_result, h.last_response, hwait, h.dec_k, h.dec_fail, h.enc_session, h.dec_session⟩

/-- An answer with a legal status, and result 0 unless `OK`, makes the invariant whole (R55, R231, R232). -/
theorem State.SessionsOk.answer {u : State} (h : u.SessionsOk) {st r : Word} (hlegal : st ∈ legalStatuses)
    (hresult : st ≠ 0#32 → r = 0#32) : (u.answer st r).Inv where
  status_legal := hlegal
  error_result := hresult
  last_response := by simp
  cmdBuf_waits := h.cmdBuf_waits
  dec_k := h.decoder.1
  dec_fail := h.decoder.2.1
  enc_session := h.encoder
  dec_session := h.decoder.2.2

/-- The outcomes of a command that keep the invariant: it ends normally, or with an error that has a cause, from a state
whose sessions are in order. -/
inductive EndsInOrder : Host.Outcome State Fault Refusal → Prop where
  | complete {u : State} (h : u.SessionsOk) (r : Word) : EndsInOrder (.next (u.complete r))
  | raise {u : State} (h : u.SessionsOk) {e : Err} (he : e ≠ .corrupt .none) : EndsInOrder (.next (u.raise e))

theorem EndsInOrder.inv {t : State} (h : EndsInOrder (.next t)) : t.Inv := by
  cases h with
  | complete hu r => exact hu.answer (by decide) (fun hne => absurd statusOk_eq hne)
  | raise hu he => exact hu.answer (errStatus_mem _ he) (fun _ => rfl)

end Sys2Proof.Machine
end

section
/-! SUPPORT. Every command ends in order: the encoder's, the decoder's, and those without a session. -/

namespace Sys2Proof.Machine

variable {s : State}

/-! ### Lengths and counts -/

theorem lePoint_length (p : Point) : (lePoint p).length = 12 := rfl

/-- A bound below saturation holds of the saturating count when it holds of the exact one (R30). -/
theorem le_satAdd {c : Word} {m n : Nat} (h : m ≤ c.toNat + n) (hm : m ≤ 0xFFFFFFFF) : m ≤ (satAdd c n).toNat := by
  rw [satAdd_toNat]
  exact le_min h hm

/-! ### The encoder session -/

theorem execEncStart_endsInOrder (h : s.SessionsOk) : EndsInOrder (execEncStart s) := by
  refine .complete ?_ _
  exact h.of_encoder ((encSessionOk_empty rfl).mpr ⟨rfl, rfl, rfl⟩)

/-- The first point of a session leaves it with one point counted and no byte (R152). -/
theorem holdPoint_endsInOrder (h : s.SessionsOk) (hp : s.encPhase = .empty) (P : Point) :
    EndsInOrder (.next (holdPoint P s)) := by
  obtain ⟨-, hpts, hbytes⟩ := (encSessionOk_empty hp).mp h.encoder
  have hone : satAdd s.encNPts 1 = 1#32 := by
    rw [hpts]
    decide
  refine .complete ?_ _
  exact h.of_encoder ((encSessionOk_held rfl).mpr ⟨hone, hbytes⟩)

/-- A later point is at least the second, and its session has at least the bytes of the header: those were counted
before, or are appended now (R163). -/
theorem emitPoint_endsInOrder (h : s.SessionsOk) (P : Point) {hdr : Bool} (hpts : 1 ≤ s.encNPts.toNat)
    (hbytes : hdr = true ∨ 12 ≤ s.encNBytes.toNat) : EndsInOrder (.next (emitPoint P hdr s)) := by
  have hlen : 12 ≤ s.encNBytes.toNat +
      ((if hdr then lePoint s.encBase else []) ++ (encodeRecord s.encBase P).bytes).length := by
    rw [List.length_append]
    obtain rfl | hcounted := hbytes
    · rw [if_pos rfl, lePoint_length]
      omega
    · omega
  refine .complete ?_ _
  exact h.of_encoder ((encSessionOk_run rfl).mpr ⟨le_satAdd (by omega) (by decide), le_satAdd hlen (by decide)⟩)

theorem execEncPoint_endsInOrder (h : s.SessionsOk) (x y z : Word) : EndsInOrder (execEncPoint x y z s) := by
  unfold execEncPoint
  split
  next => exact .raise h nofun
  next hp => exact holdPoint_endsInOrder h hp _
  next hp =>
    obtain ⟨hpts, -⟩ := (encSessionOk_held hp).mp h.encoder
    exact emitPoint_endsInOrder h _ (by simp [hpts]) (.inl rfl)
  next hp =>
    obtain ⟨hpts, hbytes⟩ := (encSessionOk_run hp).mp h.encoder
    exact emitPoint_endsInOrder h _ (by omega) (.inr hbytes)

theorem execEncEnd_endsInOrder (h : s.SessionsOk) : EndsInOrder (execEncEnd s) := by
  have hidle : State.SessionsOk { s with encPhase := .idle } := h.of_encoder (encSessionOk_idle rfl)
  unfold execEncEnd
  split
  · exact .raise h nofun
  all_goals exact .complete hidle _

/-! ### The decoder session -/

theorem execDecStart_endsInOrder (h : s.SessionsOk) : EndsInOrder (execDecStart s) := by
  refine .complete ?_ _
  exact h.of_decoder ((decoderOk_base rfl).mpr ⟨Nat.zero_lt_succ _, rfl, rfl, rfl⟩)

/-- A byte of a record body ends in order when a byte that is only collected leaves the decoder in order, and the last
byte of a record is at least the twelfth of the stream. -/
theorem bodyByte_endsInOrder (h : s.SessionsOk) {need : Nat} (k : RecKind) (base : Point → Vector Byte 12 → Point)
    (b : Byte) (hfail : s.decFail = .none)
    (hcollected : s.decK + 1 ≠ need → DecoderOk (s.countByte.collect b))
    (hlast : s.decK + 1 = need → 11 ≤ s.decNBytes.toNat) :
    EndsInOrder (.next (bodyByte need k base b s.countByte)) := by
  obtain ⟨hk, hbody⟩ | ⟨hk, hbody⟩ := bodyByte_cases need k base b s.countByte
  · rw [hbody]
    have hbytes : 12 ≤ (satAdd s.decNBytes 1).toNat := le_satAdd (Nat.succ_le_succ (hlast hk)) (by decide)
    have hpts : 1 ≤ (satAdd s.decNPts 1).toNat := le_satAdd (Nat.le_add_left _ _) (by decide)
    refine .complete ?_ _
    exact h.of_decoder ((decoderOk_tag rfl).mpr ⟨rfl, hfail, hpts, hbytes⟩)
  · rw [hbody]
    refine .complete ?_ _
    exact h.of_decoder (hcollected hk)

/-- A tag byte is at least the thirteenth byte of the stream, after one point or more (R184, R185). -/
theorem tagByte_endsInOrder (h : s.SessionsOk) (hp : s.decPhase = .tag) (b : Byte) :
    EndsInOrder (.next (tagByte b s.countByte)) := by
  obtain ⟨hk, hfail, hpts, hbytes⟩ := (decoderOk_tag hp).mp h.decoder
  have hcount : 13 ≤ (satAdd s.decNBytes 1).toNat := le_satAdd (Nat.succ_le_succ hbytes) (by decide)
  obtain ⟨-, htag⟩ | ⟨-, htag⟩ | ⟨-, htag⟩ | ⟨c, -, -, -, htag⟩ := tagByte_cases b s.countByte <;> rw [htag]
  · refine .complete ?_ _
    exact h.of_decoder ((decoderOk_record (least := 1) (need := 3) (by simp [recordPhases])).mpr
      ⟨by simp, hfail, hpts, hcount⟩)
  · refine .complete ?_ _
    exact h.of_decoder ((decoderOk_record (least := 0) (need := 12) (by simp [recordPhases])).mpr
      ⟨by simp, hfail, hpts, hcount⟩)
  · refine .complete ?_ _
    exact h.of_decoder ((decoderOk_record (least := 0) (need := 6) (by simp [recordPhases])).mpr
      ⟨by simp, hfail, hpts, hcount⟩)
  · refine .raise ?_ nofun
    exact h.of_decoder ((decoderOk_failed rfl).mpr ⟨hk, rfl, hpts, hcount⟩)

/-- A byte of a record after its tag is collected or completes the record (R182, R186 to R188). -/
theorem recordByte_endsInOrder (h : s.SessionsOk) {least need : Nat}
    (hp : (s.decPhase, least, need) ∈ recordPhases) (k : RecKind) (base : Point → Vector Byte 12 → Point) (b : Byte) :
    EndsInOrder (.next (bodyByte need k base b s.countByte)) := by
  obtain ⟨⟨hleast, hk⟩, hfail, hpts, hbytes⟩ := (decoderOk_record hp).mp h.decoder
  refine bodyByte_endsInOrder h k base b hfail (fun hmore => ?_) (fun _ => by omega)
  have hk' : least ≤ s.decK + 1 ∧ s.decK + 1 < need := by omega
  exact (decoderOk_record (s := s.countByte.collect b) hp).mpr
    ⟨hk', hfail, hpts, le_satAdd (by omega) (by decide)⟩

theorem execDecByte_endsInOrder (h : s.SessionsOk) (b : Byte) : EndsInOrder (execDecByte b s) := by
  unfold execDecByte
  split
  next => exact .raise h nofun
  next hp =>
    obtain ⟨hk, hfail, hpts, hbytes⟩ := (decoderOk_failed hp).mp h.decoder
    have hcounted : DecoderOk s.countByte :=
      (decoderOk_failed (s := s.countByte) hp).mpr ⟨hk, hfail, hpts, le_satAdd (by omega) (by decide)⟩
    refine .raise ?_ (by simp [hfail])
    exact h.of_decoder hcounted
  next hp =>
    obtain ⟨hk, hfail, hpts, hbytes⟩ := (decoderOk_base hp).mp h.decoder
    refine bodyByte_endsInOrder h _ _ b hfail (fun hmore => ?_) (fun _ => by omega)
    have hk' : s.decK + 1 < 12 := by omega
    have hbytes' : (satAdd s.decNBytes 1).toNat = s.decK + 1 := by
      rw [satAdd_toNat]
      omega
    exact (decoderOk_base (s := s.countByte.collect b) hp).mpr ⟨hk', hfail, hpts, hbytes'⟩
  next hp => exact tagByte_endsInOrder h hp b
  next hp => exact recordByte_endsInOrder (least := 1) h (by simp [recordPhases, hp]) _ _ b
  next hp => exact recordByte_endsInOrder (least := 0) h (by simp [recordPhases, hp]) _ _ b
  next hp => exact recordByte_endsInOrder (least := 0) h (by simp [recordPhases, hp]) _ _ b

/-- `DEC_END` closes the session whatever it answers; a failed session has a cause to answer with (R190). -/
theorem execDecEnd_endsInOrder (h : s.SessionsOk) : EndsInOrder (execDecEnd s) := by
  have hclosed (f : DecFail) : State.SessionsOk { s with decFail := f, decPhase := .idle, decK := 0 } :=
    h.of_decoder ((decoderOk_idle rfl).mpr rfl)
  unfold execDecEnd
  split
  next => exact .raise h nofun
  next hp =>
    obtain ⟨-, hfail, -, -⟩ := (decoderOk_failed hp).mp h.decoder
    exact .raise (hclosed s.decFail) (by simp [hfail])
  next => exact .complete (hclosed s.decFail) _
  next =>
    split
    · exact .complete (hclosed s.decFail) _
    · exact .raise (hclosed .truncated) nofun
  all_goals exact .raise (hclosed .truncated) nofun

/-! ### Every command, every step -/

/-- A command without a session answers from the state it is given; the others are the lemmas above. -/
theorem exec_endsInOrder (h : s.SessionsOk) (i : Instr) : EndsInOrder (exec i s) := by
  cases i with
  | qFromF32 _ | hFromF32 _ | qToF32 _ | hToF32 _ | qClass _ | hClass _ => exact .complete h _
  | qEncNan _ | hEncNan _ | qDecNan _ | hDecNan _ | rdCsr _ =>
    simp only [exec, execQEncNan, execHEncNan, execQDecNan, execHDecNan, execRdCsr]
    split
    · exact .complete h _
    · exact .raise h nofun
  | encStart => exact execEncStart_endsInOrder h
  | encPoint x y z => exact execEncPoint_endsInOrder h x y z
  | encEnd => exact execEncEnd_endsInOrder h
  | decStart => exact execDecStart_endsInOrder h
  | decByte b => exact execDecByte_endsInOrder h b
  | decEnd => exact execDecEnd_endsInOrder h

end Sys2Proof.Machine
end

section
/-! SUPPORT. The invariant of the block is kept by every step. -/

namespace Sys2Proof.Machine

/-- Settles O57: a step waits, and moves words only; or it ends a command, legal or not, in order. -/
theorem stepKeepsInvariant : Obligations.StepKeepsInvariant := by
  intro s t hinv hstep
  obtain ⟨hwait, hs⟩ | ⟨c, rest, -, hs⟩ | ⟨i, rest, -, hs⟩ := step_cases s
  · obtain rfl : s.absorb = t := by simpa [hs] using hstep
    exact hinv.absorb hwait
  · have hend : EndsInOrder (step s) := hs ▸ .raise (hinv.consume rest) nofun
    exact (hstep ▸ hend).inv
  · have hend : EndsInOrder (step s) := hs ▸ exec_endsInOrder (hinv.consume rest) i
    exact (hstep ▸ hend).inv

end Sys2Proof.Machine
end

section
/-! SUPPORT. What a command appends to the three streams: its bytes, its points and its one response (R51, R53, R55). -/

namespace Sys2Proof.Machine

/-- The outcomes of a command that, started in `s`, appends `bs` to `OBS` and `ps` to `OPS` and ends with its answer. -/
inductive Emits (s : State) (bs : List Byte) (ps : List Point) : Host.Outcome State Fault Refusal → Prop where
  | answer {u : State} (st r : Word) (hobs : u.obs = s.obs ++ bs) (hops : u.ops = s.ops ++ ps) (hrsp : u.rsp = s.rsp) :
      Emits s bs ps (.next (u.answer st r))

/-- A command that only answers, or changes no stream before it does. -/
theorem Emits.nothing {s u : State} (st r : Word) (hobs : u.obs = s.obs := by exact rfl)
    (hops : u.ops = s.ops := by exact rfl) (hrsp : u.rsp = s.rsp := by exact rfl) :
    Emits s [] [] (.next (u.answer st r)) :=
  .answer st r (by simp [hobs]) (by simp [hops]) hrsp

theorem Emits.next {s : State} {bs : List Byte} {ps : List Point} {o : Host.Outcome State Fault Refusal}
    (h : Emits s bs ps o) :
    ∃ t, o = .next t ∧ t.obs = s.obs ++ bs ∧ t.ops = s.ops ++ ps ∧ t.rsp = s.rsp ++ [⟨t.status, t.result⟩] := by
  obtain ⟨st, r, hobs, hops, hrsp⟩ := h
  exact ⟨_, rfl, hobs, hops, congrArg (· ++ [_]) hrsp⟩

/-- The lengths a command may append to `OBS` (R60, R168). -/
def pointWidths : List Nat := [0, 3, 7, 12, 13, 15, 19, 25]

/-- What a command may append, and which command it must be to do so (R51, R53, R60). -/
structure MayAppend (i : Instr) (bs : List Byte) (ps : List Point) : Prop where
  width : bs.length ∈ pointWidths
  onePoint : ps.length ≤ 1
  bytesOfPoint : bs ≠ [] → ∃ x y z, i = .encPoint x y z
  pointOfByte : ps ≠ [] → ∃ b, i = .decByte b

theorem MayAppend.nothing (i : Instr) : MayAppend i [] [] :=
  ⟨by decide, by decide, fun h => absurd rfl h, fun h => absurd rfl h⟩

/-! ### The encoder's bytes -/

/-- The lengths of an elided point, a Quarter, a Half and an absolute record (R60). -/
theorem encodeRecord_length (B P : Point) : (encodeRecord B P).bytes.length ∈ [0, 3, 7, 13] := by
  obtain ⟨-, h⟩ | ⟨-, -, h⟩ | ⟨-, -, -, h⟩ | ⟨-, -, -, h⟩ := encodeRecord_cases B P <;> rw [h]
  · simp
  · simp [quarterRecord]
  · simp [halfRecord, le16]
  · simp [absoluteRecord, lePoint_length]

/-- A point's bytes are its record, after the 12 bytes of the header when that is emitted (R163). -/
theorem emitPoint_emits (P : Point) (hdr : Bool) (s : State) :
    ∃ bs, bs.length ∈ pointWidths ∧ Emits s bs [] (.next (emitPoint P hdr s)) := by
  refine ⟨(if hdr then lePoint s.encBase else []) ++ (encodeRecord s.encBase P).bytes, ?_,
    .answer _ _ rfl (List.append_nil _).symm rfl⟩
  have hwidth : ∀ n ∈ [0, 3, 7, 13], n ∈ pointWidths ∧ 12 + n ∈ pointWidths := by decide
  obtain ⟨halone, hafter⟩ := hwidth _ (encodeRecord_length s.encBase P)
  cases hdr with
  | false => simpa using halone
  | true => simpa [lePoint_length] using hafter

theorem execEncPoint_emits (x y z : Word) (s : State) :
    ∃ bs, bs.length ∈ pointWidths ∧ Emits s bs [] (execEncPoint x y z s) := by
  unfold execEncPoint
  split
  next => exact ⟨[], by decide, .nothing _ _⟩
  next => exact ⟨[], by decide, .nothing _ _⟩
  next => exact emitPoint_emits _ _ _
  next => exact emitPoint_emits _ _ _

/-! ### The decoder's points -/

/-- A byte of a record body appends the new baseline when it completes the record, and else nothing (R181). -/
theorem bodyByte_emits (need : Nat) (k : RecKind) (base : Point → Vector Byte 12 → Point) (b : Byte) (s : State) :
    ∃ ps, ps.length ≤ 1 ∧ Emits s [] ps (.next (bodyByte need k base b s.countByte)) := by
  obtain ⟨-, hbody⟩ | ⟨-, hbody⟩ := bodyByte_cases need k base b s.countByte <;> rw [hbody]
  · exact ⟨[_], le_rfl, .answer _ _ (List.append_nil _).symm rfl rfl⟩
  · exact ⟨[], Nat.zero_le _, .nothing _ _⟩

theorem tagByte_emits (b : Byte) (s : State) : Emits s [] [] (.next (tagByte b s.countByte)) := by
  obtain ⟨-, htag⟩ | ⟨-, htag⟩ | ⟨-, htag⟩ | ⟨c, -, -, -, htag⟩ := tagByte_cases b s.countByte <;> rw [htag]
  all_goals exact .nothing _ _

theorem execDecByte_emits (b : Byte) (s : State) : ∃ ps, ps.length ≤ 1 ∧ Emits s [] ps (execDecByte b s) := by
  unfold execDecByte
  split
  next => exact ⟨[], Nat.zero_le _, .nothing _ _⟩
  next => exact ⟨[], Nat.zero_le _, .nothing _ _⟩
  next => exact bodyByte_emits _ _ _ b s
  next => exact ⟨[], Nat.zero_le _, tagByte_emits b s⟩
  next => exact bodyByte_emits _ _ _ b s
  next => exact bodyByte_emits _ _ _ b s
  next => exact bodyByte_emits _ _ _ b s

/-! ### Every command, every step -/

theorem execEncEnd_emits (s : State) : Emits s [] [] (execEncEnd s) := by
  unfold execEncEnd
  split <;> exact .nothing _ _

theorem execDecEnd_emits (s : State) : Emits s [] [] (execDecEnd s) := by
  unfold execDecEnd
  split
  next => exact .nothing _ _
  next => exact .nothing _ _
  next => exact .nothing _ _
  next => split <;> exact .nothing _ _
  all_goals exact .nothing _ _

/-- Every command ends with its answer, and appends no more than it may before that. -/
theorem exec_emits (i : Instr) (s : State) : ∃ bs ps, MayAppend i bs ps ∧ Emits s bs ps (exec i s) := by
  cases i with
  | qFromF32 _ | hFromF32 _ | qToF32 _ | hToF32 _ | qClass _ | hClass _ | encStart | decStart =>
    exact ⟨[], [], .nothing _, .nothing _ _⟩
  | qEncNan _ | hEncNan _ | qDecNan _ | hDecNan _ | rdCsr _ =>
    refine ⟨[], [], .nothing _, ?_⟩
    simp only [exec, execQEncNan, execHEncNan, execQDecNan, execHDecNan, execRdCsr]
    split <;> exact .nothing _ _
  | encPoint x y z =>
    obtain ⟨bs, hwidth, hemits⟩ := execEncPoint_emits x y z s
    exact ⟨bs, [], ⟨hwidth, Nat.zero_le _, fun _ => ⟨x, y, z, rfl⟩, fun h => absurd rfl h⟩, hemits⟩
  | encEnd => exact ⟨[], [], .nothing _, execEncEnd_emits s⟩
  | decByte b =>
    obtain ⟨ps, hone, hemits⟩ := execDecByte_emits b s
    exact ⟨[], ps, ⟨by decide, hone, fun h => absurd rfl h, fun _ => ⟨b, rfl⟩⟩, hemits⟩
  | decEnd => exact ⟨[], [], .nothing _, execDecEnd_emits s⟩

/-- Settles O50: the bytes and points are those `exec_emits` gives. -/
theorem streamsOnlyAppended : Obligations.StreamsOnlyAppended := by
  intro i s t hexec
  obtain ⟨bs, ps, hmay, hemits⟩ := exec_emits i s
  obtain ⟨t', hnext, hobs, hops, -⟩ := hemits.next
  obtain rfl : t' = t := by simpa [hexec] using hnext.symm
  exact ⟨bs, ps, hobs, hops, hmay.width, hmay.onePoint, hmay.bytesOfPoint, hmay.pointOfByte⟩

/-- Settles O48: a complete command that is illegal raises, and a legal one ends with its answer. -/
theorem oneResponsePerCommand : Obligations.OneResponsePerCommand := by
  intro s t hcomplete hstep
  obtain ⟨hwait, -⟩ | ⟨c, rest, -, hs⟩ | ⟨i, rest, -, hs⟩ := step_cases s
  · exact absurd hwait hcomplete
  · obtain rfl : (s.consume rest).raise (.illegal c) = t := by simpa [hs] using hstep
    rfl
  · obtain ⟨bs, ps, -, hemits⟩ := exec_emits i (s.consume rest)
    obtain ⟨t', hnext, -, -, hrsp⟩ := hemits.next
    obtain rfl : t' = t := by simpa [hs, hnext] using hstep
    exact hrsp

end Sys2Proof.Machine
end

section
/-! SUPPORT. A realisation with finite streams: its step is the unbounded one, held for want of room (R66). -/

namespace Sys2Proof.Machine

/-- Every step answers a next state, whose two output streams are the old ones with at most 25 bytes and at most one
point appended (R60). -/
theorem step_appends (s : State) :
    ∃ t bs ps, step s = .next t ∧ t.obs = s.obs ++ bs ∧ t.ops = s.ops ++ ps ∧ bs.length ≤ 25 ∧ ps.length ≤ 1 := by
  obtain ⟨-, hs⟩ | ⟨c, rest, -, hs⟩ | ⟨i, rest, -, hs⟩ := step_cases s
  · exact ⟨_, [], [], hs, by simp, by simp, by simp, by simp⟩
  · exact ⟨_, [], [], hs, by simp, by simp, by simp, by simp⟩
  · obtain ⟨bs, ps, hmay, hemits⟩ := exec_emits i (s.consume rest)
    obtain ⟨t, hnext, hobs, hops, -⟩ := hemits.next
    have hwidth : ∀ n ∈ pointWidths, n ≤ 25 := by decide
    exact ⟨t, bs, ps, hs.trans hnext, hobs, hops, hwidth _ hmay.width, hmay.onePoint⟩

/-- A stream has room for what takes it from `xs` to `ys`: the words of R66, where `streamFits` compares lengths. -/
def RoomFor {α : Type} (depth : Option Nat) (xs ys : List α) : Prop := ∀ n, depth = some n → ys = xs ∨ ys.length ≤ n

section
variable {α : Type} {depth : Option Nat} {xs ys zs : List α} {m n : Nat}

/-- A stream within its depth stays within it. -/
theorem RoomFor.length_le (h : RoomFor depth xs ys) (hn : depth = some n) (hle : xs.length ≤ n) : ys.length ≤ n :=
  (h n hn).elim (fun hsame => hsame ▸ hle) id

theorem roomFor_append (h : ∀ n, depth = some n → xs.length + m ≤ n) (hm : zs.length ≤ m) :
    RoomFor depth xs (xs ++ zs) := by
  refine fun n hn => .inr ?_
  have := h n hn
  rw [List.length_append]
  omega

/-- For a stream that is only appended to, an unchanged length is an unchanged stream. -/
theorem streamFits_iff_roomFor (h : ys = xs ++ zs) :
    streamFits depth xs.length ys.length = true ↔ RoomFor depth xs ys := by
  simp [streamFits_iff, RoomFor, h]

end

/-- Both streams have room for what the step from `s` to `t` appends to them (R66). -/
def HasRoom (d : Depths) (s t : State) : Prop := RoomFor d.obs s.obs t.obs ∧ RoomFor d.ops s.ops t.ops

theorem depthsFit_iff_hasRoom (d : Depths) {s t : State} {bs : List Byte} {ps : List Point}
    (hobs : t.obs = s.obs ++ bs) (hops : t.ops = s.ops ++ ps) : depthsFit d s t = true ↔ HasRoom d s t := by
  rw [depthsFit, Bool.and_eq_true, streamFits_iff_roomFor hobs, streamFits_iff_roomFor hops, HasRoom]

theorem depthsFit_of_same_streams (d : Depths) {s t : State} (hobs : t.obs = s.obs) (hops : t.ops = s.ops) :
    depthsFit d s t = true := by
  simp [depthsFit_iff, hobs, hops]

/-- A realisation's step is the unbounded one under the hold: only a decoded command can need room. -/
theorem issue_eq_holdUnless_step (d : Depths) (s : State) : issue d s = holdUnless d s (step s) := by
  cases h : decode s.words with
  | waiting =>
    have hfit : depthsFit d s s.absorb = true := depthsFit_of_same_streams d rfl rfl
    simp [issue, h, step_of_waiting h, holdUnless, hfit]
  | illegal c rest =>
    have hfit : depthsFit d s ((s.consume rest).raise (.illegal c)) = true := depthsFit_of_same_streams d rfl rfl
    simp [issue, h, step_of_illegal h, holdUnless, hfit]
  | command i rest => simp [issue, h, step_of_command h]

/-- Everything a realisation's step can do: go where the unbounded step goes, with room, or hold, without (R66). -/
theorem issue_cases (d : Depths) {s t : State} (hstep : step s = .next t) :
    (HasRoom d s t ∧ issue d s = .next t) ∨ (¬HasRoom d s t ∧ issue d s = .next s) := by
  obtain ⟨t', bs, ps, hstep', hobs, hops, -⟩ := step_appends s
  obtain rfl : t' = t := by simpa [hstep] using hstep'.symm
  have hroom := depthsFit_iff_hasRoom d hobs hops
  rw [issue_eq_holdUnless_step, hstep]
  by_cases h : HasRoom d s t'
  · exact .inl ⟨h, by simp [holdUnless, hroom.mpr h]⟩
  · exact .inr ⟨h, by simp [holdUnless, mt hroom.mp h]⟩

/-- Settles O53: the realisation's step goes where the unbounded step goes or holds, by whether there is room; 25 bytes
and one point are room for any step. -/
theorem finiteDepthHoldsOrSteps : Obligations.FiniteDepthHoldsOrSteps := by
  intro d s
  obtain ⟨t, bs, ps, hstep, hobs, hops, hbs, hps⟩ := step_appends s
  have hissue := issue_cases d hstep
  refine ⟨fun t' hstep' => ?_, ?_, fun hobsRoom hopsRoom => ?_, fun t' n hnext hn hle => ?_,
    fun t' n hnext hn hle => ?_⟩
  · obtain ⟨hroom, h⟩ | ⟨hroom, h⟩ := issue_cases d hstep'
    · exact ⟨fun _ => h, fun hnot => absurd hroom hnot⟩
    · exact ⟨fun hyes => absurd hyes hroom, fun _ => h⟩
  · rw [hstep]
    exact hissue.imp And.right And.right
  · have hroom : HasRoom d s t := ⟨hobs ▸ roomFor_append hobsRoom hbs, hops ▸ roomFor_append hopsRoom hps⟩
    obtain ⟨-, h⟩ | ⟨hnot, -⟩ := hissue
    · exact h.trans hstep.symm
    · exact absurd hroom hnot
  · obtain ⟨⟨hroom, -⟩, h⟩ | ⟨-, h⟩ := hissue <;> obtain rfl := Host.Outcome.next.inj (h.symm.trans hnext)
    · exact hroom.length_le hn hle
    · exact hle
  · obtain ⟨⟨-, hroom⟩, h⟩ | ⟨-, h⟩ := hissue <;> obtain rfl := Host.Outcome.next.inj (h.symm.trans hnext)
    · exact hroom.length_le hn hle
    · exact hle

end Sys2Proof.Machine
end

section
/-! SUPPORT. The byte-wide link in both directions (R58). -/

namespace Sys2Proof.Machine

/-- Each word of a link is read back from its four bytes, and none is left over. -/
theorem linkWords_linkBytesOf (ws : List Word) : linkWords (linkBytesOf ws) = (ws, []) := by
  induction ws with
  | nil => rfl
  | cons w ws ih =>
    have hword : linkWords (linkBytes w ++ linkBytesOf ws) =
        (rd32 (w.extractLsb' 0 8) (w.extractLsb' 8 8) (w.extractLsb' 16 8) (w.extractLsb' 24 8) ::
          (linkWords (linkBytesOf ws)).1, (linkWords (linkBytesOf ws)).2) := rfl
    rw [linkBytesOf_cons, hword, rd32_le32, ih]

theorem State.takeRspLink_cons {s : State} {r : Response} {rs : List Response} (h : s.rsp = r :: rs) :
    s.takeRspLink = (linkBytesOf (responseWords r), { s with rsp := rs }) := by
  simp [State.takeRspLink, State.takeRsp, h]

theorem State.takeOpsLink_cons {s : State} {p : Point} {ps : List Point} (h : s.ops = p :: ps) :
    s.takeOpsLink = (linkBytesOf (pointWords p), { s with ops := ps }) := by
  simp [State.takeOpsLink, State.takeOps, h]

theorem State.takeRspLink_nil {s : State} (h : s.rsp = []) : s.takeRspLink = ([], s) := by
  cases s
  simp_all [State.takeRspLink, State.takeRsp]

theorem State.takeOpsLink_nil {s : State} (h : s.ops = []) : s.takeOpsLink = ([], s) := by
  cases s
  simp_all [State.takeOpsLink, State.takeOps]

/-- Settles O54: the statement's `bytes` is `linkBytesOf`. -/
theorem linkBytesCarryWords : Obligations.LinkBytesCarryWords := by
  refine ⟨fun ws s => ?_, fun s r rs h => State.takeRspLink_cons h, fun s p ps h => State.takeOpsLink_cons h,
    fun s h => State.takeRspLink_nil h, fun s h => State.takeOpsLink_nil h⟩
  change s.deliverLink (linkBytesOf ws) = (s.deliver ws, [])
  rw [State.deliverLink, linkWords_linkBytesOf]

end Sys2Proof.Machine
end

section
/-! SUPPORT. The invariant of the block is kept by the host (R67). -/

namespace Sys2Proof.Machine

/-- The invariant does not depend on the port, `OBS` or `OPS`, and of `RSP` it reads only the last response. -/
theorem State.Inv.with_host_side {s : State} (h : s.Inv) (ws : List Word) (bs : List Byte) (ps : List Point)
    {rs : List Response} (hlast : ∀ r, rs.getLast? = some r → s.rsp.getLast? = some r) :
    State.Inv { s with port := ws, obs := bs, ops := ps, rsp := rs } where
  status_legal := h.status_legal
  error_result := h.error_result
  last_response := fun r hr => h.last_response r (hlast r hr)
  cmdBuf_waits := h.cmdBuf_waits
  dec_k := h.dec_k
  dec_fail := h.dec_fail
  enc_session := h.enc_session
  dec_session := h.dec_session

/-- Taking the front of a stream leaves its last element the last, unless it was the only one. -/
theorem getLast?_of_tail {α : Type} {xs : List α} {x : α} (h : xs.tail.getLast? = some x) : xs.getLast? = some x := by
  rw [List.getLast?_tail] at h
  split at h
  · cases h
  · exact h

theorem State.reset_inv : State.reset.Inv where
  status_legal := by decide
  error_result := fun _ => rfl
  last_response := nofun
  cmdBuf_waits := rfl
  dec_k := rfl
  dec_fail := trivial
  enc_session := trivial
  dec_session := trivial

/-- Settles O58: the host reaches only the port and the fronts of the streams, or resets the block. -/
theorem hostActionsKeepInvariant : Obligations.HostActionsKeepInvariant := by
  intro s a hinv
  cases a with
  | deliver ws => exact hinv.with_host_side (s.port ++ ws) s.obs s.ops fun _ => id
  | takeObs => exact hinv.with_host_side s.port s.obs.tail s.ops fun _ => id
  | takeOps => exact hinv.with_host_side s.port s.obs s.ops.tail fun _ => id
  | takeRsp => exact hinv.with_host_side s.port s.obs s.ops fun _ => getLast?_of_tail
  | reset => exact State.reset_inv.with_host_side s.port [] [] fun _ => id

end Sys2Proof.Machine
end

section
/-! SUPPORT. A command as one header word and its operand words, and the decoder as the inverse of the encoder
(R83 to R88). -/

namespace Sys2Proof

/-! ### The words of a command by its three parts -/

/-- The opcode of a command's header (R88). -/
def Instr.opcode : Instr → Opcode
  | .qFromF32 _ => .qFromF32
  | .hFromF32 _ => .hFromF32
  | .qToF32 _ => .qToF32
  | .hToF32 _ => .hToF32
  | .qClass _ => .qClass
  | .hClass _ => .hClass
  | .qEncNan _ => .qEncNan
  | .hEncNan _ => .hEncNan
  | .qDecNan _ => .qDecNan
  | .hDecNan _ => .hDecNan
  | .encStart => .encStart
  | .encPoint _ _ _ => .encPoint
  | .encEnd => .encEnd
  | .decStart => .decStart
  | .decByte _ => .decByte
  | .decEnd => .decEnd
  | .rdCsr _ => .rdCsr

/-- The immediate of a command's header (R85). -/
def Instr.imm : Instr → BitVec 16
  | .qToF32 q | .qClass q | .qDecNan q | .decByte q => q.setWidth 16
  | .hToF32 h | .hClass h | .qEncNan h | .hEncNan h | .hDecNan h | .rdCsr h => h
  | .qFromF32 _ | .hFromF32 _ | .encStart | .encPoint _ _ _ | .encEnd | .decStart | .decEnd => 0#16

/-- The operand words after a command's header (R86). -/
def Instr.operands : Instr → List Word
  | .qFromF32 a | .hFromF32 a => [a]
  | .encPoint x y z => [x, y, z]
  | .qToF32 _ | .hToF32 _ | .qClass _ | .hClass _ | .qEncNan _ | .hEncNan _ | .qDecNan _ | .hDecNan _
  | .encStart | .encEnd | .decStart | .decByte _ | .decEnd | .rdCsr _ => []

theorem encode_eq_header_cons (i : Instr) : encode i = header i.opcode i.imm :: i.operands := by
  cases i <;> rfl

theorem Instr.operands_length (i : Instr) : i.operands.length = i.opcode.operandWords := by
  cases i <;> rfl

/-! ### The immediate -/

/-- An 8-bit operand is read back from the immediate that carries it (R85). -/
@[simp] theorem immLow_setWidth (q : Byte) : immLow (q.setWidth 16) = q := by
  apply BitVec.eq_of_getLsbD_eq
  intro k hk
  simp only [immLow, BitVec.getLsbD_extractLsb', BitVec.getLsbD_setWidth]
  grind

/-- The upper half of an immediate is clear exactly when its lower half is all of it (R213). -/
theorem and_high_eq_zero_iff (imm : BitVec 16) : imm &&& 0xFF00#16 = 0#16 ↔ (immLow imm).setWidth 16 = imm := by
  have hparts : imm = imm.extractLsb' 8 8 ++ immLow imm :=
    (BitVec.extractLsb'_append_extractLsb' (w := 8) (len := 8)).symm
  have hhigh : imm &&& 0xFF00#16 = imm.extractLsb' 8 8 ++ 0#8 := by
    conv_lhs => rw [hparts, show (0xFF00#16) = BitVec.allOnes 8 ++ 0#8 by decide, BitVec.and_append,
      BitVec.and_allOnes, BitVec.and_zero]
  have hlow : (immLow imm).setWidth 16 = 0#8 ++ immLow imm := BitVec.setWidth_eq_append (by decide)
  calc imm &&& 0xFF00#16 = 0#16
      ↔ imm.extractLsb' 8 8 ++ 0#8 = 0#8 ++ 0#8 := by rw [hhigh]; rfl
    _ ↔ 0#8 ++ immLow imm = imm.extractLsb' 8 8 ++ immLow imm := by
      rw [BitVec.append_left_inj, BitVec.append_left_inj, eq_comm]
    _ ↔ (immLow imm).setWidth 16 = imm := by rw [← hparts, hlow]

theorem and_full_eq_zero_iff (imm : BitVec 16) : imm &&& 0xFFFF#16 = 0#16 ↔ imm = 0#16 := by
  rw [show (0xFFFF#16) = BitVec.allOnes 16 by decide, BitVec.and_allOnes]

/-- A command's own immediate sets no bit that must be 0 (R213). -/
theorem Instr.imm_and_mustBeZero (i : Instr) : i.imm &&& i.opcode.mustBeZero = 0#16 := by
  cases i with
  | qToF32 q | qClass q | qDecNan q | decByte q => exact (and_high_eq_zero_iff _).2 (by simp [Instr.imm])
  | _ => simp [Instr.imm, Instr.opcode, Opcode.mustBeZero]

/-- The decoder builds a command from its parts (R85, R86). -/
theorem buildInstr_parts (i : Instr) : buildInstr i.opcode i.imm i.operands = i := by
  cases i with
  | qToF32 q | qClass q | qDecNan q | decByte q => simp [Instr.opcode, Instr.imm, buildInstr]
  | _ => rfl

/-- The parts of a command that the decoder builds are those it was built from (R85, R86, R213). -/
theorem encode_buildInstr {o : Opcode} {imm : BitVec 16} {ops : List Word} (hlen : ops.length = o.operandWords)
    (himm : imm &&& o.mustBeZero = 0#16) : encode (buildInstr o imm ops) = header o imm :: ops := by
  cases o with
  | qFromF32 | hFromF32 =>
    obtain ⟨a, rfl⟩ := List.length_eq_one_iff.1 hlen
    obtain rfl := (and_full_eq_zero_iff imm).1 himm
    rfl
  | encPoint =>
    obtain ⟨x, y, z, rfl⟩ := List.length_eq_three.1 hlen
    obtain rfl := (and_full_eq_zero_iff imm).1 himm
    rfl
  | qToF32 | qClass | qDecNan | decByte =>
    obtain rfl := List.length_eq_zero_iff.1 hlen
    simp [buildInstr, encode, (and_high_eq_zero_iff imm).1 himm]
  | hToF32 | hClass | qEncNan | hEncNan | hDecNan | rdCsr =>
    obtain rfl := List.length_eq_zero_iff.1 hlen
    rfl
  | encStart | encEnd | decStart | decEnd =>
    obtain rfl := List.length_eq_zero_iff.1 hlen
    obtain rfl := (and_full_eq_zero_iff imm).1 himm
    rfl

/-! ### The decoder on a complete command -/

/-- What the decoder answers for a complete command, by the checks on it, with `rest` after it. -/
def Decoded.ofChecks (rest : List Word) : Except IllegalCause Instr → Decoded
  | .error c => .illegal c rest
  | .ok i => .command i rest

theorem decode_of_complete {h : Word} {ops : List Word} (hlen : ops.length + 1 = commandLength h) (rest : List Word) :
    decode (h :: ops ++ rest) = .ofChecks rest (decodeComplete h ops) := by
  have hops : commandLength h - 1 = ops.length := by omega
  obtain ⟨hshort, -⟩ | ⟨-, ⟨c, hc, hd⟩ | ⟨i, hi, hd⟩⟩ := decode_cons h (ops ++ rest)
  · simp at hshort
    omega
  · rw [hops, List.take_left] at hc
    rw [hops, List.drop_left] at hd
    rw [List.cons_append, hd, hc, Decoded.ofChecks]
  · rw [hops, List.take_left] at hi
    rw [hops, List.drop_left] at hd
    rw [List.cons_append, hd, hi, Decoded.ofChecks]

/-- Words that decode to a command are a header, exactly its operand words, and the rest (R84). -/
theorem complete_of_decode {ws rest : List Word} {i : Instr} (hdec : decode ws = .command i rest) :
    ∃ h ops, ws = h :: ops ++ rest ∧ ops.length + 1 = commandLength h ∧ decodeComplete h ops = .ok i := by
  cases ws with
  | nil => simp [decode] at hdec
  | cons h ws =>
    obtain ⟨-, hd⟩ | ⟨hlen, ⟨c, -, hd⟩ | ⟨j, hj, hd⟩⟩ := decode_cons h ws <;> rw [hd] at hdec <;> cases hdec
    have hpos : 1 ≤ commandLength h := Nat.le_add_right ..
    refine ⟨h, ws.take (commandLength h - 1), by simp, ?_, hj⟩
    rw [List.length_take]
    omega

theorem commandLength_of_ofCode {h : Word} {o : Opcode} (ho : Opcode.ofCode (headerOpc h) = some o) :
    commandLength h = 1 + o.operandWords := by
  simp [commandLength, ho]

theorem eq_header_iff (h : Word) (o : Opcode) (imm : BitVec 16) :
    h = header o imm ↔ headerRsv h = 0#8 ∧ headerImm h = imm ∧ headerOpc h = o.code := by
  constructor
  · rintro rfl
    exact ⟨headerRsv_header o imm, headerImm_header o imm, headerOpc_header o imm⟩
  · rintro ⟨hrsv, himm, hopc⟩
    rw [header_fields h, hrsv, himm, hopc, header]

theorem decodeComplete_header {o : Opcode} {imm : BitVec 16} (himm : imm &&& o.mustBeZero = 0#16) (ops : List Word) :
    decodeComplete (header o imm) ops = .ok (buildInstr o imm ops) := by
  simp [decodeComplete, headerRsv_header, headerOpc_header, headerImm_header, Opcode.ofCode_code, himm]

/-- The checks accept only a header of an assigned opcode whose immediate is free of must-be-zero bits (R212). -/
theorem decodeComplete_eq_ok {h : Word} {ops : List Word} {i : Instr} (hok : decodeComplete h ops = .ok i) :
    ∃ o imm, h = header o imm ∧ imm &&& o.mustBeZero = 0#16 ∧ i = buildInstr o imm ops := by
  obtain ⟨-, hc⟩ | ⟨-, -, hc⟩ | ⟨o, -, -, -, hc⟩ | ⟨o, hrsv, hopc, himm, hc⟩ := decodeComplete_cases h ops <;>
    rw [hc] at hok <;> cases hok
  exact ⟨o, headerImm h, (eq_header_iff h o _).2 ⟨hrsv, rfl, (Opcode.code_of_ofCode hopc).symm⟩, himm, rfl⟩

/-- Settles O1: the parts of a command pass the checks, and the decoder builds the command from them. -/
theorem decodeOfEncodedCommand : Obligations.DecodeOfEncodedCommand := by
  intro i rest
  have hlen : i.operands.length + 1 = commandLength (header i.opcode i.imm) := by
    rw [Laws.commandLength_header, i.operands_length, Nat.add_comm]
  rw [encode_eq_header_cons, decode_of_complete hlen, decodeComplete_header i.imm_and_mustBeZero, buildInstr_parts]
  rfl

/-- Settles O2: a command is built only from a header and operands that are its own encoding. -/
theorem encodeOfDecodedCommand : Obligations.EncodeOfDecodedCommand := by
  intro ws i rest hdec
  obtain ⟨h, ops, rfl, hlen, hok⟩ := complete_of_decode hdec
  obtain ⟨o, imm, rfl, himm, rfl⟩ := decodeComplete_eq_ok hok
  rw [Laws.commandLength_header] at hlen
  rw [encode_buildInstr (by omega) himm]

end Sys2Proof
end

section
/-! SUPPORT. The opcode table's rows as the opcodes (R88), and the decoder's checks by them (R90, R212, R240). -/

namespace Sys2Proof

/-- The row an opcode has in the opcode table: the mask keeps `RSV`, `OPC` and the must-be-zero bits (R88, R213). -/
def Opcode.row (o : Opcode) : HeaderRow := ⟨header o 0#16, 0xFF#8 ++ o.mustBeZero ++ 0xFF#8, 1 + o.operandWords⟩

theorem headerRows_eq_map_row : headerRows = Opcode.all.map Opcode.row := by decide

theorem Opcode.mem_all (o : Opcode) : o ∈ Opcode.all := by cases o <;> decide

theorem forall_headerRows_iff {p : HeaderRow → Prop} : (∀ r ∈ headerRows, p r) ↔ ∀ o : Opcode, p o.row := by
  simp [headerRows_eq_map_row, Opcode.mem_all]

theorem exists_headerRows_iff {p : HeaderRow → Prop} : (∃ r ∈ headerRows, p r) ↔ ∃ o : Opcode, p o.row := by
  simp [headerRows_eq_map_row, Opcode.mem_all]

/-- The opcode of a row's match word. -/
theorem Opcode.row_opc (o : Opcode) : o.row.matchWord.extractLsb' 0 8 = o.code := headerOpc_header o 0#16

theorem Opcode.ofCode_eq_some_iff {c : Byte} {o : Opcode} : Opcode.ofCode c = some o ↔ o.code = c :=
  ⟨Opcode.code_of_ofCode, fun h => h ▸ o.ofCode_code⟩

theorem Opcode.ofCode_eq_none_iff {c : Byte} : Opcode.ofCode c = none ↔ ∀ o : Opcode, o.code ≠ c := by
  simp [Option.eq_none_iff_forall_ne_some, Opcode.ofCode_eq_some_iff]

theorem Opcode.row_mask_fields (o : Opcode) :
    headerRsv o.row.maskWord = 0xFF#8 ∧ headerImm o.row.maskWord = o.mustBeZero ∧
      headerOpc o.row.maskWord = 0xFF#8 := by
  cases o <;> decide

/-- A row covers exactly the headers that pass the three checks with its opcode (R90, R212). -/
theorem Opcode.row_covers_iff (o : Opcode) (h : Word) :
    o.row.covers h = true ↔ headerRsv h = 0#8 ∧ headerImm h &&& o.mustBeZero = 0#16 ∧ headerOpc h = o.code := by
  obtain ⟨hrsv, himm, hopc⟩ := o.row_mask_fields
  have hall : (0xFF#8) = BitVec.allOnes 8 := by decide
  have hfields : headerRsv (h &&& o.row.maskWord) = headerRsv h &&& headerRsv o.row.maskWord ∧
      headerImm (h &&& o.row.maskWord) = headerImm h &&& headerImm o.row.maskWord ∧
      headerOpc (h &&& o.row.maskWord) = headerOpc h &&& headerOpc o.row.maskWord :=
    ⟨BitVec.extractLsb'_and, BitVec.extractLsb'_and, BitVec.extractLsb'_and⟩
  rw [hrsv, himm, hopc, hall, BitVec.and_allOnes, BitVec.and_allOnes] at hfields
  obtain ⟨hrsv', himm', hopc'⟩ := hfields
  rw [HeaderRow.covers, beq_iff_eq, show o.row.matchWord = header o 0#16 from rfl, eq_header_iff, hrsv', himm', hopc']

theorem headerLegal_iff (h : Word) :
    headerLegal h = true ↔
      ∃ o, headerRsv h = 0#8 ∧ headerImm h &&& o.mustBeZero = 0#16 ∧ Opcode.ofCode (headerOpc h) = some o := by
  simp only [headerLegal, List.any_eq_true, exists_headerRows_iff, Opcode.row_covers_iff, Opcode.ofCode_eq_some_iff,
    eq_comm (a := headerOpc h)]

/-- Settles O4: the rows of the table are the opcodes, and the length looks at nothing else. -/
theorem commandLengthByOpcode : Obligations.CommandLengthByOpcode := by
  intro h
  rw [forall_headerRows_iff, forall_headerRows_iff]
  simp only [Opcode.row_opc]
  constructor
  · intro o ho
    exact commandLength_of_ofCode (Opcode.ofCode_eq_some_iff.2 ho)
  · intro hnone
    simp [commandLength, headerOpc, Opcode.ofCode_eq_none_iff.2 hnone]

/-- Settles O3: each clause is one case of the checks, its premise read in the rows of the table. -/
theorem headerChecksInOrder : Obligations.HeaderChecksInOrder := by
  intro h ops rest hlen
  simp only [decode_of_complete hlen, forall_headerRows_iff, exists_headerRows_iff, Opcode.row_opc]
  refine ⟨fun hrsv => ?_, fun hrsv hnone => ?_, fun hrsv ⟨o, ho⟩ hillegal => ?_, fun hlegal => ?_⟩
  · simp [decodeComplete, headerRsv, hrsv, Decoded.ofChecks]
  · simp [decodeComplete, headerRsv, hrsv, headerOpc, Opcode.ofCode_eq_none_iff.2 hnone, Decoded.ofChecks]
  · have hcode : Opcode.ofCode (headerOpc h) = some o := Opcode.ofCode_eq_some_iff.2 ho
    have himm : headerImm h &&& o.mustBeZero ≠ 0#16 := fun himm =>
      absurd ((headerLegal_iff h).2 ⟨o, hrsv, himm, hcode⟩) (by simp [hillegal])
    simp [decodeComplete, headerRsv, hrsv, hcode, himm, Decoded.ofChecks]
  · obtain ⟨o, hrsv, himm, hcode⟩ := (headerLegal_iff h).1 hlegal
    exact ⟨buildInstr o (headerImm h) ops, by simp [decodeComplete, hrsv, hcode, himm, Decoded.ofChecks]⟩

/-- Settles O5: each list is closed and decodes by evaluation. -/
theorem sampleWordsDecode : Obligations.SampleWordsDecode := by
  unfold Obligations.SampleWordsDecode
  decide

end Sys2Proof

namespace Sys2Proof.Machine

/-- Settles O7: the step is a raise after the words are consumed, and neither touches the sessions. -/
theorem illegalHeaderRaises : Obligations.IllegalHeaderRaises := by
  intro s c rest hdec
  refine ⟨_, step_of_illegal hdec, SameEncoder.refl s, SameDecoder.refl s, rfl, rfl, ?_⟩
  cases c <;> exact ⟨errStatus_eq _, rfl, by simp [errStatus_eq]⟩

end Sys2Proof.Machine
end

section
/-! SUPPORT. `ToFloat` is exact on every finite pattern, and left-aligns the mantissa of the others (R72, R110 to
R112), for every format whose values are normal f32 values. -/

namespace Sys2Proof.Machine

/-- The formats whose finite values other than zero are all normal f32 values, as both of R6 are. -/
structure WithinF32 (F : Format) : Prop where
  exp_pos : 0 < allOnes F
  mant_le : F.M ≤ 23
  least_normal : F.M + bias F ≤ 127
  greatest_finite : allOnes F ≤ bias F + 128

theorem quarter_withinF32 : WithinF32 Config.quarter := ⟨by decide, by decide, by decide, by decide⟩

theorem half_withinF32 : WithinF32 Config.half := ⟨by decide, by decide, by decide, by decide⟩

/-! ### The f32 side -/

theorem two_pow_mul_leftAlign {M : Nat} (hM : M ≤ 23) : 2 ^ M * 2 ^ (23 - M) = 2 ^ 23 := by
  rw [← Nat.pow_add, Nat.add_sub_cancel' hM]

/-- A mantissa of `M` bits, left-aligned, fits the fraction field (R11). -/
theorem leftAligned_lt {M w : Nat} (hM : M ≤ 23) (hw : w < 2 ^ M) : w * 2 ^ (23 - M) < 2 ^ 23 :=
  two_pow_mul_leftAlign hM ▸ Nat.mul_lt_mul_of_pos_right hw (Nat.two_pow_pos _)

/-- The magnitude of the normal f32 whose significand is `1.w` for a left-aligned mantissa `w` of `M` bits (R11). -/
theorem f32Mag_pack_normal {M w X : Nat} (s : Nat) (hM : M ≤ 23) (hw : w < 2 ^ M) (hpos : 1 ≤ X) (hX : X < 255) :
    f32Mag (f32Pack s X (w <<< (23 - M))) = (2 ^ M + w) <<< (23 - M + (X - 1)) := by
  have hsig : f32Sig (f32Pack s X (w <<< (23 - M))) = (2 ^ M + w) * 2 ^ (23 - M) := by
    rw [f32Sig, f32Exp_pack, f32Frac_pack, Nat.shiftLeft_eq, Nat.mod_eq_of_lt (leftAligned_lt hM hw),
      if_neg (by omega), Nat.add_mul, two_pow_mul_leftAlign hM]
  rw [f32Mag, hsig, f32Exp_pack, Nat.mod_eq_of_lt (by omega), Nat.max_eq_left hpos, Nat.shiftLeft_eq, Nat.shiftLeft_eq,
    Nat.pow_add, Nat.mul_assoc]

/-! ### The renormalising loop (R110) -/

/-- The loop shifts a mantissa that is not 0 until its leading bit is bit `M`, and counts the shifts. -/
theorem renormalise_spec {M fuel m : Nat} (ew : Int) (hlow : 2 ^ M ≤ m * 2 ^ fuel) (hhigh : m < 2 ^ (M + 1)) :
    ∃ k w, k ≤ fuel ∧ w < 2 ^ M ∧ m * 2 ^ k = 2 ^ M + w ∧ renormalise M fuel m ew = (2 ^ M + w, ew - k) := by
  induction fuel generalizing m ew with
  | zero =>
    obtain ⟨w, rfl⟩ := Nat.exists_eq_add_of_le (show 2 ^ M ≤ m by simpa using hlow)
    exact ⟨0, w, le_rfl, by omega, by simp, by simp [renormalise]⟩
  | succ fuel ih =>
    by_cases hm : 2 ^ M ≤ m
    · obtain ⟨w, rfl⟩ := Nat.exists_eq_add_of_le hm
      have hw : w < 2 ^ M := by omega
      have hbit : (2 ^ M + w).testBit M = true := by
        rw [Nat.testBit_two_pow_add_eq, Nat.testBit_lt_two_pow hw, Bool.not_false]
      exact ⟨0, w, Nat.zero_le _, hw, by simp, by simp [renormalise, hbit]⟩
    · have hbit : m.testBit M = false := Nat.testBit_lt_two_pow (by omega)
      have hshift : m <<< 1 = m * 2 := Nat.shiftLeft_eq m 1
      obtain ⟨k, w, hk, hw, hmul, hr⟩ := ih (m := m <<< 1) (ew - 1)
        (by rw [hshift, Nat.mul_assoc, ← Nat.pow_succ']; exact hlow) (by omega)
      refine ⟨k + 1, w, by omega, hw, by rw [Nat.pow_succ', ← Nat.mul_assoc, ← hshift, hmul], ?_⟩
      simp only [renormalise, hbit, Bool.false_eq_true, if_false, hr]
      congr 1
      omega

/-! ### The fields of a narrow pattern (R12), and its conversion -/

theorem narrowSign_lt (F : Format) (n : Nat) : narrowSign F n < 2 := Nat.mod_lt _ (by decide)

theorem narrowExp_le (F : Format) (n : Nat) : narrowExp F n ≤ allOnes F :=
  Nat.le_sub_one_of_lt (Nat.mod_lt _ (Nat.two_pow_pos _))

theorem narrowMant_lt (F : Format) (n : Nat) : narrowMant F n < 2 ^ F.M := Nat.mod_lt _ (Nat.two_pow_pos _)

@[simp] theorem f32Sign_toFloat (F : Format) (n : Nat) : f32Sign (toFloat F n) = narrowSign F n := by
  have hs := Nat.mod_eq_of_lt (narrowSign_lt F n)
  obtain ⟨-, h⟩ | ⟨-, -, h⟩ | ⟨-, -, -, h⟩ | ⟨-, -, -, h⟩ := toFloat_cases F n <;> rw [h, f32Sign_pack, hs]

/-- A finite pattern that is not zero becomes the normal f32 of its magnitude, a denormal one after its mantissa is
shifted up to a leading bit. -/
theorem toFloat_normal {F : Format} (hF : WithinF32 F) {n : Nat} (hfin : narrowExp F n < allOnes F)
    (hz : narrowIsZero F n = false) :
    ∃ w X, w < 2 ^ F.M ∧ 1 ≤ X ∧ X < 255 ∧ toFloat F n = f32Pack (narrowSign F n) X (w <<< (23 - F.M)) ∧
      narrowMag F n = (2 ^ F.M + w) <<< (23 - F.M + (X - 1)) := by
  obtain ⟨-, hmant, hleast, hgreatest⟩ := hF
  obtain ⟨hz', -⟩ | ⟨-, hall, -⟩ | ⟨-, -, hexp, h⟩ | ⟨-, -, hexp, h⟩ := toFloat_cases F n
  · simp [hz] at hz'
  · omega
  · have hpos : 1 ≤ narrowMant F n := by
      have : narrowMant F n ≠ 0 := by simpa [narrowIsZero, hexp] using hz
      omega
    obtain ⟨k, w, hk, hw, hmul, hr⟩ := renormalise_spec (M := F.M) (fuel := F.M) 1
      (Nat.le_mul_of_pos_left _ hpos) ((narrowMant_lt F n).trans (Nat.pow_lt_pow_succ (by decide)))
    have hX : ((1 : Int) - k - bias F + 127).toNat = 128 - k - bias F := by omega
    rw [hr, hX, Nat.add_mod_left, Nat.mod_eq_of_lt hw] at h
    refine ⟨w, 128 - k - bias F, hw, by omega, by omega, h, ?_⟩
    have hshift : 150 - bias F - F.M = k + (23 - F.M + (128 - k - bias F - 1)) := by omega
    rw [narrowMag, if_pos hexp, hshift, Nat.shiftLeft_eq, Nat.shiftLeft_eq, ← hmul, Nat.pow_add, Nat.mul_assoc]
  · have hX : ((narrowExp F n : Int) - bias F + 127).toNat = narrowExp F n + 127 - bias F := by omega
    rw [hX] at h
    refine ⟨narrowMant F n, narrowExp F n + 127 - bias F, narrowMant_lt F n, by omega, by omega, h, ?_⟩
    have hshift : 149 + narrowExp F n - bias F - F.M = 23 - F.M + (narrowExp F n + 127 - bias F - 1) := by omega
    rw [narrowMag, if_neg hexp, hshift]

/-- `ToFloat` of a finite pattern has exactly its value, and is never a subnormal (R72, R111). -/
theorem toFloat_of_finite {F : Format} (hF : WithinF32 F) {n : Nat} (hfin : narrowExp F n < allOnes F) :
    f32Exp (toFloat F n) < 255 ∧ f32Scaled (toFloat F n) = narrowScaled F n ∧
      (f32Exp (toFloat F n) = 0 → f32Frac (toFloat F n) = 0) := by
  have hscaled : f32Mag (toFloat F n) = narrowMag F n → f32Scaled (toFloat F n) = narrowScaled F n := fun hmag => by
    rw [f32Scaled, narrowScaled, f32Sign_toFloat, hmag]
  cases hz : narrowIsZero F n with
  | true =>
    obtain ⟨hexp, hmant⟩ : narrowExp F n = 0 ∧ narrowMant F n = 0 := by simpa [narrowIsZero] using hz
    have h : toFloat F n = f32Pack (narrowSign F n) 0 0 := by simp [toFloat, hexp, hmant]
    refine ⟨by simp [h], hscaled ?_, by simp [h]⟩
    simp [h, f32Mag, f32Sig, narrowMag, hexp, hmant]
  | false =>
    obtain ⟨w, X, hw, hpos, hX, h, hmag⟩ := toFloat_normal hF hfin hz
    have hexp : f32Exp (toFloat F n) = X := by rw [h, f32Exp_pack, Nat.mod_eq_of_lt (by omega)]
    refine ⟨by omega, hscaled ?_, by omega⟩
    rw [hmag, h, f32Mag_pack_normal _ hF.mant_le hw hpos hX]

/-- `ToFloat` of an infinity or a NaN left-aligns its mantissa (R112). -/
theorem toFloat_of_allOnes {F : Format} (hF : WithinF32 F) {n : Nat} (hexp : narrowExp F n = allOnes F) :
    f32Exp (toFloat F n) = 255 ∧ f32Frac (toFloat F n) = narrowMant F n * 2 ^ (23 - F.M) := by
  have h : toFloat F n = f32Pack (narrowSign F n) 255 (narrowMant F n <<< (23 - F.M)) := by
    simp [toFloat, hexp, hF.exp_pos.ne']
  rw [h, f32Exp_pack, f32Frac_pack, Nat.shiftLeft_eq, Nat.mod_eq_of_lt (leftAligned_lt hF.mant_le (narrowMant_lt F n))]
  exact ⟨rfl, rfl⟩

/-! ### The two commands -/

/-- Settles O17: the fields of a Quarter pattern are those of `Config.quarter`, and `Q_TO_F32` only answers. -/
theorem quarterToF32Completes : Obligations.QuarterToF32Completes := by
  intro q s
  refine ⟨_, rfl, s.complete_only _, rfl, ?_, fun he => ?_, fun he => ?_⟩
  · exact f32Sign_toFloat Config.quarter q.toNat
  · exact toFloat_of_finite quarter_withinF32 he
  · exact toFloat_of_allOnes quarter_withinF32 he

/-- Settles O18: the fields of a Half pattern are those of `Config.half`, and `H_TO_F32` only answers. -/
theorem halfToF32Completes : Obligations.HalfToF32Completes := by
  intro h s
  refine ⟨_, rfl, s.complete_only _, rfl, ?_, fun he => ?_, fun he => ?_⟩
  · exact f32Sign_toFloat Config.half h.toNat
  · exact toFloat_of_finite half_withinF32 he
  · exact toFloat_of_allOnes half_withinF32 he

end Sys2Proof.Machine
end

section
/-! SUPPORT. The predicate bits of a narrow pattern by the range its magnitude lies in (R73, R74, R131, R132). -/

namespace Sys2Proof.Machine

/-! ### The predicate bits by the two fields (R131) -/

/-- For a pattern that is neither a zero nor an infinity only two predicates are left to ask. -/
theorem classBits_of_not_zero_not_inf {F : Format} {n : Nat} (hzero : narrowIsZero F n = false)
    (hinf : narrowIsInf F n = false) :
    classBits F n = BitVec.ofBool (narrowIsDenorm F n) ++ BitVec.ofBool (narrowIsNaN F n) ++ 0#6 := by
  simp only [classBits, narrowIsPosZero, narrowIsNegZero, narrowIsPosInf, narrowIsNegInf, hzero, hinf, Bool.false_and]
  cases narrowIsDenorm F n <;> cases narrowIsNaN F n <;> rfl

theorem classBits_of_nan {F : Format} {n : Nat} (hall : 0 < allOnes F) (hexp : narrowExp F n = allOnes F)
    (hmant : narrowMant F n ≠ 0) : classBits F n = 0x40#8 := by
  have hdenorm : narrowIsDenorm F n = false := by simp [narrowIsDenorm, hexp, hall.ne']
  have hnan : narrowIsNaN F n = true := by simp [narrowIsNaN, hexp, hmant]
  rw [classBits_of_not_zero_not_inf (by simp [narrowIsZero, hmant]) (by simp [narrowIsInf, hmant]), hdenorm, hnan]
  rfl

theorem classBits_of_denorm {F : Format} {n : Nat} (hall : 0 < allOnes F) (hexp : narrowExp F n = 0)
    (hmant : narrowMant F n ≠ 0) : classBits F n = 0x80#8 := by
  have hdenorm : narrowIsDenorm F n = true := by simp [narrowIsDenorm, hexp, hmant]
  have hnan : narrowIsNaN F n = false := by simp [narrowIsNaN, hexp, hall.ne]
  rw [classBits_of_not_zero_not_inf (by simp [narrowIsZero, hmant]) (by simp [narrowIsInf, hmant]), hdenorm, hnan]
  rfl

theorem classBits_of_normal {F : Format} {n : Nat} (hpos : 0 < narrowExp F n) (hfin : narrowExp F n < allOnes F) :
    classBits F n = 0#8 := by
  have hdenorm : narrowIsDenorm F n = false := by simp [narrowIsDenorm, hpos.ne']
  have hnan : narrowIsNaN F n = false := by simp [narrowIsNaN, hfin.ne]
  rw [classBits_of_not_zero_not_inf (by simp [narrowIsZero, hpos.ne']) (by simp [narrowIsInf, hfin.ne]), hdenorm, hnan]
  rfl

/-! ### The two fields by the magnitude (R12) -/

/-- A pattern without its sign is its exponent above its mantissa. -/
theorem magnitude_eq_fields (F : Format) (n : Nat) :
    n % 2 ^ (F.M + F.E) = narrowMant F n + 2 ^ F.M * narrowExp F n := by
  rw [Nat.pow_add, Nat.mod_mul, narrowMant, narrowExp, Nat.shiftRight_eq_div_pow]

section
variable {F : Format} {n : Nat}

/-- The patterns above the infinity are the NaNs. -/
theorem classBits_above_inf (hall : 0 < allOnes F) (h : 2 ^ F.M * allOnes F < n % 2 ^ (F.M + F.E)) :
    classBits F n = 0x40#8 := by
  rw [magnitude_eq_fields] at h
  have hmant := narrowMant_lt F n
  have hexp : narrowExp F n = allOnes F := by
    refine (narrowExp_le F n).antisymm (Nat.le_of_lt_succ (Nat.lt_of_mul_lt_mul_left (a := 2 ^ F.M) ?_))
    rw [Nat.mul_succ]
    omega
  rw [hexp] at h
  exact classBits_of_nan hall hexp (by omega)

/-- The patterns between the zero and the first normal value are the denormals. -/
theorem classBits_below_normal (hall : 0 < allOnes F) (hpos : 0 < n % 2 ^ (F.M + F.E))
    (h : n % 2 ^ (F.M + F.E) < 2 ^ F.M) : classBits F n = 0x80#8 := by
  rw [magnitude_eq_fields] at hpos h
  have hexp : narrowExp F n = 0 := by
    refine Nat.lt_one_iff.1 (Nat.lt_of_mul_lt_mul_left (a := 2 ^ F.M) ?_)
    omega
  rw [hexp] at hpos
  exact classBits_of_denorm hall hexp (by omega)

/-- The patterns from the first normal value up to the infinity are the normals. -/
theorem classBits_normal_range (hpos : 2 ^ F.M ≤ n % 2 ^ (F.M + F.E))
    (hlt : n % 2 ^ (F.M + F.E) < 2 ^ F.M * allOnes F) : classBits F n = 0#8 := by
  rw [magnitude_eq_fields] at hpos hlt
  have hmant := narrowMant_lt F n
  refine classBits_of_normal (Nat.pos_of_ne_zero fun h => ?_) (Nat.lt_of_mul_lt_mul_left (a := 2 ^ F.M) (by omega))
  rw [h] at hpos
  omega

end

/-- Settles O20: the zeros and the infinities by evaluation, the other classes by the range of the magnitude. -/
theorem classCommandsComplete : Obligations.ClassCommandsComplete := by
  constructor
  · intro q s
    refine ⟨_, rfl, s.complete_only _, ?_, ?_, ?_, ?_, fun hm => ?_, fun hpos hm => ?_, fun hpos hm => ?_⟩
    iterate 4 · rintro rfl; rfl
    · exact congrArg (·.setWidth 32) (classBits_above_inf quarter_withinF32.exp_pos hm)
    · exact congrArg (·.setWidth 32) (classBits_below_normal quarter_withinF32.exp_pos hpos (Nat.lt_succ_of_le hm))
    · exact congrArg (·.setWidth 32) (classBits_normal_range (F := Config.quarter) hpos (Nat.lt_succ_of_le hm))
  · intro h s
    refine ⟨_, rfl, s.complete_only _, ?_, ?_, ?_, ?_, fun hm => ?_, fun hpos hm => ?_, fun hpos hm => ?_⟩
    iterate 4 · rintro rfl; rfl
    · exact congrArg (·.setWidth 32) (classBits_above_inf half_withinF32.exp_pos hm)
    · exact congrArg (·.setWidth 32) (classBits_below_normal half_withinF32.exp_pos hpos (Nat.lt_succ_of_le hm))
    · exact congrArg (·.setWidth 32) (classBits_normal_range (F := Config.half) hpos (Nat.lt_succ_of_le hm))

end Sys2Proof.Machine
end

section
/-! SUPPORT. The magnitudes of a binary floating-point format as a function of the pattern: increasing, and linear
between the neighbours of a narrower format (R11, R12, R72, R102). -/

namespace Sys2Proof.Machine

/-- The magnitude of pattern `x` of a binary format with `M` mantissa bits and gradual underflow, its sign left out, in
units of its smallest subnormal: exponent field `x / 2^M`, mantissa field `x % 2^M` (R11, R12, R72). -/
def gridMag (M x : Nat) : Nat := if x < 2 ^ M then x else (2 ^ M + x % 2 ^ M) * 2 ^ (x / 2 ^ M - 1)

theorem gridMag_of_lt {M x : Nat} (hx : x < 2 ^ M) : gridMag M x = x := if_pos hx

/-- The magnitude by its significand `q` and the exponent `k` of its last place; `q` may have carried to `2^(M+1)`. -/
theorem gridMag_significand {M q : Nat} (k : Nat) (hlow : 2 ^ M ≤ q) (hhigh : q ≤ 2 ^ (M + 1)) :
    gridMag M (k * 2 ^ M + q) = q * 2 ^ k := by
  obtain ⟨w, rfl⟩ := Nat.exists_eq_add_of_le hlow
  have hbit := Nat.two_pow_pos M
  have hge : ¬k * 2 ^ M + (2 ^ M + w) < 2 ^ M := by omega
  rw [gridMag, if_neg hge]
  obtain hw | rfl : w < 2 ^ M ∨ w = 2 ^ M := by omega
  · have hdiv : (k * 2 ^ M + (2 ^ M + w)) / 2 ^ M = k + 1 := by
      rw [← Nat.add_assoc, ← Nat.succ_mul, Nat.mul_comm, Nat.mul_add_div hbit, Nat.div_eq_of_lt hw, Nat.add_zero]
    have hmod : (k * 2 ^ M + (2 ^ M + w)) % 2 ^ M = w := by
      rw [← Nat.add_assoc, ← Nat.succ_mul, Nat.mul_add_mod', Nat.mod_eq_of_lt hw]
    rw [hdiv, hmod, Nat.add_sub_cancel]
  · have hsum : k * 2 ^ M + (2 ^ M + 2 ^ M) = (k + 2) * 2 ^ M := by ring
    rw [hsum, Nat.mul_div_cancel _ hbit, Nat.mul_mod_left]
    simp only [Nat.add_zero, Nat.add_succ_sub_one, Nat.pow_succ]
    ring

/-- A pattern that is not subnormal, by its significand and the exponent of its last place. -/
theorem eq_significand {M x : Nat} (hx : 2 ^ M ≤ x) :
    x = (x / 2 ^ M - 1) * 2 ^ M + (2 ^ M + x % 2 ^ M) := by
  have hpos : 1 ≤ x / 2 ^ M := Nat.div_pos hx (Nat.two_pow_pos M)
  rw [← Nat.add_assoc, ← Nat.succ_mul, Nat.succ_eq_add_one, Nat.sub_add_cancel hpos, Nat.div_add_mod']

/-- The step to the next magnitude is one unit in the last place. -/
theorem gridMag_succ (M x : Nat) : gridMag M (x + 1) = gridMag M x + 2 ^ (x / 2 ^ M - 1) := by
  by_cases hx : x < 2 ^ M
  · rw [gridMag_of_lt hx, Nat.div_eq_of_lt hx]
    obtain hlt | heq : x + 1 < 2 ^ M ∨ x + 1 = 2 ^ M := by omega
    · exact gridMag_of_lt hlt
    · rw [heq]
      simpa [heq] using gridMag_significand (M := M) 0 le_rfl (Nat.pow_le_pow_right (by decide) M.le_succ)
  · have hx' := eq_significand (Nat.le_of_not_lt hx)
    have hstep := gridMag_significand (M := M) (x / 2 ^ M - 1) (q := 2 ^ M + x % 2 ^ M + 1) (by omega) (by omega)
    rw [← Nat.add_assoc, ← hx', Nat.succ_mul] at hstep
    rw [hstep, gridMag, if_neg hx]

theorem gridMag_strictMono (M : Nat) : StrictMono (gridMag M) :=
  strictMono_nat_of_lt_succ fun x => by simp [gridMag_succ]

theorem gridMag_of_le {M x : Nat} (hx : x ≤ 2 ^ (M + 1)) : gridMag M x = x := by
  by_cases hlt : x < 2 ^ M
  · exact gridMag_of_lt hlt
  · simpa using gridMag_significand (M := M) 0 (Nat.le_of_not_lt hlt) hx

/-- Every magnitude is a whole number of units in its last place. -/
theorem ulp_dvd_gridMag (M x : Nat) : 2 ^ (x / 2 ^ M - 1) ∣ gridMag M x := by
  rw [gridMag]
  split
  next hx => simp [Nat.div_eq_of_lt hx]
  next => exact Nat.dvd_mul_left _ _

/-- Adding `D` to the exponent field of a normal pattern multiplies its magnitude by `2^D`. -/
theorem gridMag_add_exponent {M x : Nat} (hx : 2 ^ M ≤ x) (D : Nat) :
    gridMag M (x + D * 2 ^ M) = gridMag M x * 2 ^ D := by
  have hsig (k : Nat) : gridMag M (k * 2 ^ M + (2 ^ M + x % 2 ^ M)) = (2 ^ M + x % 2 ^ M) * 2 ^ k :=
    gridMag_significand k (by omega) (by omega)
  have hsum : x + D * 2 ^ M = (x / 2 ^ M - 1 + D) * 2 ^ M + (2 ^ M + x % 2 ^ M) := by
    rw [Nat.add_mul, Nat.add_right_comm, ← eq_significand hx]
  rw [hsum, hsig, gridMag, if_neg (Nat.not_lt.2 hx), Nat.pow_add, Nat.mul_assoc]

/-- A pattern of a narrower format, its mantissa left-aligned in a wider one, has the same significand. -/
theorem gridMag_leftAlign (M k x : Nat) : gridMag (M + k) (x * 2 ^ k) = gridMag M x * 2 ^ k := by
  have hk := Nat.two_pow_pos k
  simp only [gridMag, Nat.pow_add, Nat.mul_lt_mul_right hk, Nat.mul_div_mul_right _ _ hk, Nat.mul_mod_mul_right]
  split
  · rfl
  · ring

/-- Between two neighbours of a narrower format a wider one is linear. -/
theorem gridMag_between {M k x j : Nat} (hj : j ≤ 2 ^ k) :
    gridMag (M + k) (x * 2 ^ k + j) = gridMag M x * 2 ^ k + j * 2 ^ (x / 2 ^ M - 1) := by
  induction j with
  | zero => simp [gridMag_leftAlign]
  | succ j ih =>
    have hband : (x * 2 ^ k + j) / 2 ^ (M + k) = x / 2 ^ M := by
      rw [Nat.add_comm M k, Nat.pow_add, ← Nat.div_div_eq_div_mul, Nat.mul_comm x, Nat.mul_add_div (Nat.two_pow_pos k),
        Nat.div_eq_of_lt hj, Nat.add_zero]
    rw [← Nat.add_assoc, gridMag_succ, ih (by omega), hband, Nat.succ_mul, Nat.add_assoc]

/-- The pattern half way between two neighbours of a narrower format has the magnitude half way between theirs. -/
theorem gridMag_midpoint (M k x : Nat) :
    2 * gridMag (M + (k + 1)) (x * 2 ^ (k + 1) + 2 ^ k) =
      gridMag M x * 2 ^ (k + 1) + gridMag M (x + 1) * 2 ^ (k + 1) := by
  have hle : 2 ^ k ≤ 2 ^ (k + 1) := Nat.pow_le_pow_right (by decide) k.le_succ
  rw [gridMag_between hle, gridMag_succ, Nat.pow_succ]
  ring

/-- Rounding a pattern to the nearest one of a narrower format, a half up, brackets its magnitude between the midpoints
to the two neighbours of the result. -/
theorem gridMag_round_half_up (M k m : Nat) :
    let t := (m + 2 ^ k) / 2 ^ (k + 1)
    gridMag M (t - 1) * 2 ^ (k + 1) + gridMag M t * 2 ^ (k + 1) ≤ 2 * gridMag (M + (k + 1)) m ∧
      2 * gridMag (M + (k + 1)) m < gridMag M t * 2 ^ (k + 1) + gridMag M (t + 1) * 2 ^ (k + 1) := by
  intro t
  have hmono := gridMag_strictMono (M + (k + 1))
  have hlow : t * 2 ^ (k + 1) ≤ m + 2 ^ k := Nat.div_mul_le_self _ _
  have hhigh : m + 2 ^ k < t * 2 ^ (k + 1) + 2 ^ (k + 1) := Nat.lt_div_mul_add (Nat.two_pow_pos _)
  constructor
  · cases ht : t with
    | zero => simp [gridMag]
    | succ u =>
      rw [ht, Nat.succ_mul] at hlow
      rw [Nat.add_sub_cancel, ← gridMag_midpoint]
      exact Nat.mul_le_mul_left 2 (hmono.monotone (by omega))
  · rw [← gridMag_midpoint]
    exact Nat.mul_lt_mul_of_pos_left (hmono (by omega)) (by decide)

end Sys2Proof.Machine
end

section
/-! SUPPORT. Both kinds of pattern on that grid, and `FromFloat` as one rounding of an f32's bits (R101, R104). -/

namespace Sys2Proof.Machine

/-! ### Both formats' magnitudes on the grid -/

/-- The bits of an f32 pattern without its sign (R11). -/
def f32Bits (a : Word) : Nat := (a.extractLsb' 0 31).toNat

theorem f32Frac_lt (a : Word) : f32Frac a < 2 ^ 23 := BitVec.isLt _

theorem f32Sign_lt (a : Word) : f32Sign a < 2 := BitVec.isLt _

theorem f32Bits_eq_fields (a : Word) : f32Bits a = f32Frac a + 2 ^ 23 * f32Exp a := by
  simp only [f32Bits, f32Frac, f32Exp, BitVec.extractLsb'_toNat, Nat.shiftRight_eq_div_pow, Nat.pow_zero,
    Nat.div_one]
  exact Nat.mod_mul (a := 2 ^ 23) (b := 2 ^ 8)

theorem f32Exp_eq (a : Word) : f32Exp a = f32Bits a / 2 ^ 23 := by
  have := f32Frac_lt a
  rw [f32Bits_eq_fields]
  omega

theorem f32Frac_eq (a : Word) : f32Frac a = f32Bits a % 2 ^ 23 := by
  have := f32Frac_lt a
  rw [f32Bits_eq_fields]
  omega

theorem f32Bits_lt (a : Word) : f32Bits a < 2 ^ 31 := BitVec.isLt _

theorem f32Exp_eq_max_iff (a : Word) : f32Exp a = 255 ↔ 255 * 2 ^ 23 ≤ f32Bits a := by
  have := f32Bits_lt a
  rw [f32Exp_eq]
  omega

theorem f32Bits_pack {s e f : Nat} (he : e < 256) (hf : f < 2 ^ 23) : f32Bits (f32Pack s e f) = e * 2 ^ 23 + f := by
  rw [f32Bits_eq_fields, f32Frac_pack, f32Exp_pack, Nat.mod_eq_of_lt hf, Nat.mod_eq_of_lt he]
  omega

/-- The magnitude of an f32 pattern is the one of its bits on the grid of 23 mantissa bits (R11). -/
theorem f32Mag_eq_gridMag (a : Word) : f32Mag a = gridMag 23 (f32Bits a) := by
  rw [f32Mag, f32Sig, f32Exp_eq, f32Frac_eq, gridMag, Nat.shiftLeft_eq]
  by_cases h : f32Bits a < 2 ^ 23
  · rw [if_pos (Nat.div_eq_of_lt h), if_pos h, Nat.div_eq_of_lt h, Nat.mod_eq_of_lt h]
    exact Nat.mul_one _
  · have hpos : 1 ≤ f32Bits a / 2 ^ 23 := Nat.div_pos (Nat.le_of_not_lt h) (by decide)
    rw [if_neg (by omega), if_neg h, Nat.max_eq_left hpos]

/-- The bits of a narrow pattern without its sign (R12). -/
def narrowBits (F : Format) (n : Nat) : Nat := n % 2 ^ (F.M + F.E)

theorem narrowBits_eq_fields (F : Format) (n : Nat) : narrowBits F n = narrowMant F n + 2 ^ F.M * narrowExp F n :=
  magnitude_eq_fields F n

theorem narrowExp_eq (F : Format) (n : Nat) : narrowExp F n = narrowBits F n / 2 ^ F.M := by
  rw [narrowBits_eq_fields, Nat.add_mul_div_left _ _ (Nat.two_pow_pos _), Nat.div_eq_of_lt (narrowMant_lt F n),
    Nat.zero_add]

theorem narrowMant_eq (F : Format) (n : Nat) : narrowMant F n = narrowBits F n % 2 ^ F.M := by
  rw [narrowBits_eq_fields, Nat.add_mul_mod_self_left, Nat.mod_eq_of_lt (narrowMant_lt F n)]

theorem narrowExp_lt_iff (F : Format) (n e : Nat) : narrowExp F n < e ↔ narrowBits F n < e * 2 ^ F.M := by
  rw [narrowExp_eq, Nat.div_lt_iff_lt_mul (Nat.two_pow_pos _)]

/-- How much larger the exponent field of an f32 is than that of a narrow pattern of the same magnitude (R11, R12). -/
def biasGap (F : Format) : Nat := 127 - bias F

/-- The smallest denormal of a narrow format in units of 2^-149 (R72, R104). -/
def denormStep (F : Format) : Nat := 2 ^ (biasGap F + (23 - F.M))

/-- The magnitude of a narrow pattern is the one of its bits on its grid, in units of the smallest denormal (R72). -/
theorem narrowMag_eq_gridMag {F : Format} (hF : WithinF32 F) (n : Nat) :
    narrowMag F n = gridMag F.M (narrowBits F n) * denormStep F := by
  obtain ⟨-, hmant, hleast, -⟩ := hF
  rw [narrowMag, narrowExp_eq, narrowMant_eq, gridMag, denormStep, biasGap, Nat.shiftLeft_eq, Nat.shiftLeft_eq]
  by_cases h : narrowBits F n < 2 ^ F.M
  · have hexp : 150 - bias F - F.M = 127 - bias F + (23 - F.M) := by omega
    rw [if_pos (Nat.div_eq_of_lt h), if_pos h, Nat.mod_eq_of_lt h, hexp]
  · have hpos : 1 ≤ narrowBits F n / 2 ^ F.M := Nat.div_pos (Nat.le_of_not_lt h) (Nat.two_pow_pos _)
    have hexp : 149 + narrowBits F n / 2 ^ F.M - bias F - F.M =
        narrowBits F n / 2 ^ F.M - 1 + (127 - bias F + (23 - F.M)) := by omega
    rw [if_neg (by omega), if_neg h, hexp, Nat.pow_add, Nat.mul_assoc]

/-! ### `FromFloat` as a rounding of the bits -/

/-- The bits of an f32 rounded to the `M` mantissa bits of a narrow format, a half up; a carry moves into the exponent
field by itself (R101, R102). -/
def roundedBits (F : Format) (m : Nat) : Nat := (m + 2 ^ (22 - F.M)) / 2 ^ (23 - F.M)

/-- What `FromFloat` makes of the bits of an f32 without its sign: by ranges of the rounded bits (R101, R104). -/
def fromFloatBits (F : Format) (m : Nat) : Nat :=
  if 255 * 2 ^ 23 < m then allOnes F * 2 ^ F.M + F.nanMant
  else if (biasGap F + allOnes F) * 2 ^ F.M ≤ roundedBits F m then allOnes F * 2 ^ F.M
  else if (biasGap F + 1) * 2 ^ F.M ≤ roundedBits F m then roundedBits F m - biasGap F * 2 ^ F.M
  else gridMag F.M (roundedBits F m) / 2 ^ biasGap F

/-- A narrow format whose values `FromFloat` finds by rounding away at least one bit of an f32 (R6, R7). -/
structure RoundsF32 (F : Format) : Prop extends WithinF32 F where
  mant_lt : F.M < 23
  nan_fits : F.nanMant < 2 ^ F.M

theorem quarter_roundsF32 : RoundsF32 Config.quarter := ⟨quarter_withinF32, by decide, by decide⟩

theorem half_roundsF32 : RoundsF32 Config.half := ⟨half_withinF32, by decide, by decide⟩

/-! ### The fields of a packed narrow pattern -/

theorem narrowPack_eq (F : Format) (s e m : Nat) :
    narrowPack F s e m = 2 ^ (F.M + F.E) * (s % 2) + (e % 2 ^ F.E * 2 ^ F.M + m % 2 ^ F.M) := by
  rw [narrowPack, Nat.add_comm F.E, Nat.mul_comm (s % 2), Nat.add_assoc]

theorem packedBits_lt (F : Format) (e m : Nat) : e % 2 ^ F.E * 2 ^ F.M + m % 2 ^ F.M < 2 ^ (F.M + F.E) := by
  calc e % 2 ^ F.E * 2 ^ F.M + m % 2 ^ F.M
    _ < (e % 2 ^ F.E + 1) * 2 ^ F.M := by rw [Nat.succ_mul]; omega
    _ ≤ 2 ^ F.E * 2 ^ F.M := Nat.mul_le_mul_right _ (Nat.mod_lt e (Nat.two_pow_pos _))
    _ = 2 ^ (F.M + F.E) := by rw [Nat.add_comm, Nat.pow_add]

@[simp] theorem narrowSign_pack (F : Format) (s e m : Nat) : narrowSign F (narrowPack F s e m) = s % 2 := by
  rw [narrowSign, narrowPack_eq, Nat.shiftRight_eq_div_pow, Nat.add_comm F.E, Nat.mul_add_div (Nat.two_pow_pos _),
    Nat.div_eq_of_lt (packedBits_lt F e m), Nat.add_zero, Nat.mod_mod]

theorem narrowBits_pack (F : Format) (s e m : Nat) :
    narrowBits F (narrowPack F s e m) = e % 2 ^ F.E * 2 ^ F.M + m % 2 ^ F.M := by
  rw [narrowBits, narrowPack_eq, Nat.mul_add_mod, Nat.mod_eq_of_lt (packedBits_lt F e m)]

theorem narrowBits_pack_of_lt {F : Format} {e m : Nat} (s : Nat) (he : e ≤ allOnes F) (hm : m < 2 ^ F.M) :
    narrowBits F (narrowPack F s e m) = e * 2 ^ F.M + m := by
  have hE : allOnes F < 2 ^ F.E := Nat.sub_one_lt (Nat.two_pow_pos _).ne'
  rw [narrowBits_pack, Nat.mod_eq_of_lt (he.trans_lt hE), Nat.mod_eq_of_lt hm]

/-- A narrow pattern is its sign and its other bits (R12). -/
theorem eq_sign_add_bits {F : Format} {n : Nat} (hn : n < 2 ^ formatWidth F) :
    n = narrowSign F n * 2 ^ (F.M + F.E) + narrowBits F n := by
  have hsign : n / 2 ^ (F.M + F.E) < 2 := by
    rw [Nat.div_lt_iff_lt_mul (Nat.two_pow_pos _), ← Nat.pow_succ']
    refine hn.trans_eq (congrArg _ ?_)
    rw [formatWidth]
    omega
  rw [narrowSign, narrowBits, Nat.shiftRight_eq_div_pow, Nat.add_comm F.E, Nat.mod_eq_of_lt hsign, Nat.div_add_mod']

/-! ### The rounded bits by the two fields, and the denormal branch -/

section
variable {F : Format}

/-- The exponent and the mantissa that `FromFloat` computes are the fields of the rounded bits (R101). -/
theorem roundedBits_fields (hM : F.M < 23) (a : Word) :
    roundedBits F (f32Bits a) / 2 ^ F.M =
        f32Exp a + (if f32Frac a + 2 ^ (22 - F.M) ≥ 2 ^ 23 then 1 else 0) ∧
      roundedBits F (f32Bits a) % 2 ^ F.M = ((f32Frac a + 2 ^ (22 - F.M)) >>> (23 - F.M)) % 2 ^ F.M := by
  have hfrac := f32Frac_lt a
  have hmant := Nat.two_pow_pos F.M
  have hcut := Nat.two_pow_pos (23 - F.M)
  have hsplit : 2 ^ 23 = 2 ^ (23 - F.M) * 2 ^ F.M := by rw [← Nat.pow_add, Nat.sub_add_cancel hM.le]
  have hhalf : 2 ^ (22 - F.M) < 2 ^ 23 := Nat.pow_lt_pow_right (by decide) (by omega)
  generalize hr : f32Frac a + 2 ^ (22 - F.M) = r
  have hround : roundedBits F (f32Bits a) = 2 ^ F.M * f32Exp a + r / 2 ^ (23 - F.M) := by
    rw [roundedBits, f32Bits_eq_fields, Nat.add_right_comm, hr, Nat.add_comm r, hsplit, Nat.mul_assoc,
      Nat.mul_add_div hcut]
  have hcarry : r / 2 ^ (23 - F.M) / 2 ^ F.M = if r ≥ 2 ^ 23 then 1 else 0 := by
    rw [Nat.div_div_eq_div_mul, ← hsplit]
    split <;> omega
  rw [hround, Nat.mul_add_div hmant, hcarry, Nat.mul_add_mod, Nat.shiftRight_eq_div_pow]
  exact ⟨rfl, rfl⟩

/-- Shifting the rounded significand down to the denormal position truncates its magnitude (R104). -/
theorem significand_shift_eq {D t : Nat} {M : Nat} (hM : M ≤ D) (ht : t / 2 ^ M ≤ D) :
    (2 ^ M + t % 2 ^ M) >>> (1 + D - t / 2 ^ M) = gridMag M t / 2 ^ D := by
  rw [Nat.shiftRight_eq_div_pow, gridMag]
  split
  next hlow =>
    have hpow : 2 ^ (1 + D) = 2 ^ D + 2 ^ D := by ring
    have hle : 2 ^ M ≤ 2 ^ D := Nat.pow_le_pow_right (by decide) hM
    rw [Nat.div_eq_of_lt hlow, Nat.sub_zero, Nat.div_eq_of_lt (by omega), Nat.div_eq_of_lt (by omega)]
  next hnormal =>
    have hpos : 1 ≤ t / 2 ^ M := Nat.div_pos (Nat.le_of_not_lt hnormal) (Nat.two_pow_pos M)
    have hD : 2 ^ D = 2 ^ (1 + D - t / 2 ^ M) * 2 ^ (t / 2 ^ M - 1) := by
      rw [← Nat.pow_add]
      congr 1
      omega
    rw [hD, Nat.mul_div_mul_right _ _ (Nat.two_pow_pos _)]

/-- A magnitude below the smallest normal value is cut to fewer than `2^M` steps (R104). -/
theorem gridMag_div_lt {M D t : Nat} (ht : t < (D + 1) * 2 ^ M) : gridMag M t / 2 ^ D < 2 ^ M := by
  have hbound : gridMag M ((D + 1) * 2 ^ M) = 2 ^ M * 2 ^ D := by
    rw [Nat.succ_mul]
    exact gridMag_significand D le_rfl (Nat.pow_le_pow_right (by decide) M.le_succ)
  rw [Nat.div_lt_iff_lt_mul (Nat.two_pow_pos D), ← hbound]
  exact gridMag_strictMono M ht

theorem f32_nan_iff (a : Word) : (f32Exp a = 255 ∧ f32Frac a ≠ 0) ↔ 255 * 2 ^ 23 < f32Bits a := by
  have := f32Bits_lt a
  rw [f32Exp_eq, f32Frac_eq]
  omega

theorem le_roundedBits_iff (c m : Nat) : c * 2 ^ F.M ≤ roundedBits F m ↔ c ≤ roundedBits F m / 2 ^ F.M :=
  (Nat.le_div_iff_mul_le (Nat.two_pow_pos _)).symm

theorem roundedBits_lt_iff (c m : Nat) : roundedBits F m < c * 2 ^ F.M ↔ roundedBits F m / 2 ^ F.M < c :=
  (Nat.div_lt_iff_lt_mul (Nat.two_pow_pos _)).symm

/-- The rounded bits of an f32 infinity or NaN are beyond every finite narrow value. -/
theorem overflow_le_roundedBits (hF : RoundsF32 F) {m : Nat} (hm : 255 * 2 ^ 23 ≤ m) :
    (biasGap F + allOnes F) * 2 ^ F.M ≤ roundedBits F m := by
  obtain ⟨⟨-, -, hleast, hgreatest⟩, hM, -⟩ := hF
  have hexp : biasGap F + allOnes F ≤ 255 := by
    rw [biasGap]
    omega
  calc (biasGap F + allOnes F) * 2 ^ F.M
    _ ≤ 255 * 2 ^ F.M := Nat.mul_le_mul_right _ hexp
    _ ≤ roundedBits F m := by
      rw [roundedBits, Nat.le_div_iff_mul_le (Nat.two_pow_pos _), Nat.mul_assoc, two_pow_mul_leftAlign hM.le]
      exact hm.trans (Nat.le_add_right _ _)

theorem fromFloatBits_of_nan {m : Nat} (hm : 255 * 2 ^ 23 < m) :
    fromFloatBits F m = allOnes F * 2 ^ F.M + F.nanMant := if_pos hm

theorem fromFloatBits_of_overflow {m : Nat} (hm : m ≤ 255 * 2 ^ 23)
    (ht : (biasGap F + allOnes F) * 2 ^ F.M ≤ roundedBits F m) : fromFloatBits F m = allOnes F * 2 ^ F.M := by
  rw [fromFloatBits, if_neg (Nat.not_lt.2 hm), if_pos ht]

theorem fromFloatBits_of_normal (hF : RoundsF32 F) {m : Nat} (hlow : (biasGap F + 1) * 2 ^ F.M ≤ roundedBits F m)
    (hhigh : roundedBits F m < (biasGap F + allOnes F) * 2 ^ F.M) :
    fromFloatBits F m = roundedBits F m - biasGap F * 2 ^ F.M := by
  have hfin : ¬255 * 2 ^ 23 < m := fun h => hhigh.not_ge (overflow_le_roundedBits hF h.le)
  rw [fromFloatBits, if_neg hfin, if_neg hhigh.not_ge, if_pos hlow]

theorem fromFloatBits_of_denorm (hF : RoundsF32 F) {m : Nat} (ht : roundedBits F m < (biasGap F + 1) * 2 ^ F.M) :
    fromFloatBits F m = gridMag F.M (roundedBits F m) / 2 ^ biasGap F := by
  have hhigh : roundedBits F m < (biasGap F + allOnes F) * 2 ^ F.M :=
    ht.trans_le (Nat.mul_le_mul_right _ (Nat.add_le_add_left hF.exp_pos _))
  have hfin : ¬255 * 2 ^ 23 < m := fun h => hhigh.not_ge (overflow_le_roundedBits hF h.le)
  rw [fromFloatBits, if_neg hfin, if_neg hhigh.not_ge, if_neg ht.not_ge]

/-- `FromFloat` keeps the sign and makes of the other bits what `fromFloatBits` says (R101, R108). -/
theorem fromFloat_sign_bits (hF : RoundsF32 F) (a : Word) :
    narrowSign F (fromFloat F .truncateAfterRound a) = f32Sign a ∧
      narrowBits F (fromFloat F .truncateAfterRound a) = fromFloatBits F (f32Bits a) := by
  have hs := Nat.mod_eq_of_lt (f32Sign_lt a)
  obtain ⟨hexp, hmant⟩ := roundedBits_fields hF.mant_lt a
  have hmantlt := Nat.mod_lt (roundedBits F (f32Bits a)) (Nat.two_pow_pos F.M)
  have hfields := Nat.div_add_mod' (roundedBits F (f32Bits a)) (2 ^ F.M)
  have hleast := hF.least_normal
  have hgap : F.M ≤ biasGap F := by
    rw [biasGap]
    omega
  have he : (if f32Frac a + 2 ^ (22 - F.M) ≥ 2 ^ 23 then (f32Exp a : Int) - 127 + bias F + 1
      else (f32Exp a : Int) - 127 + bias F) =
      (roundedBits F (f32Bits a) / 2 ^ F.M : Nat) - (biasGap F : Int) := by
    rw [hexp, biasGap]
    split <;> omega
  have hcases := fromFloat_cases F .truncateAfterRound a
  simp only [he, ← hmant, f32_nan_iff] at hcases
  obtain ⟨hN, h⟩ | ⟨hN, hinf, h⟩ | ⟨-, -, hden, h⟩ | ⟨-, hfin, hnorm, h⟩ := hcases <;> rw [h]
  · rw [narrowSign_pack, narrowBits_pack_of_lt _ le_rfl hF.nan_fits, fromFloatBits_of_nan hN]
    exact ⟨hs, rfl⟩
  · rw [narrowSign_pack, narrowBits_pack_of_lt _ le_rfl (Nat.two_pow_pos _),
      fromFloatBits_of_overflow (Nat.not_lt.1 hN) ((le_roundedBits_iff _ _).2 (by omega))]
    exact ⟨hs, rfl⟩
  · have hlow := (roundedBits_lt_iff (F := F) (biasGap F + 1) (f32Bits a)).2 (by omega)
    have hshift : (1 - ((roundedBits F (f32Bits a) / 2 ^ F.M : Nat) - (biasGap F : Int))).toNat =
        1 + biasGap F - roundedBits F (f32Bits a) / 2 ^ F.M := by omega
    rw [denormTruncate, hshift, significand_shift_eq hgap (by omega), narrowSign_pack,
      narrowBits_pack_of_lt _ (Nat.zero_le _) (gridMag_div_lt hlow), fromFloatBits_of_denorm hF hlow]
    exact ⟨hs, by omega⟩
  · have htoNat : ((roundedBits F (f32Bits a) / 2 ^ F.M : Nat) - (biasGap F : Int)).toNat =
        roundedBits F (f32Bits a) / 2 ^ F.M - biasGap F := by omega
    have hle := (le_roundedBits_iff (F := F) (biasGap F) (f32Bits a)).2 (by omega)
    rw [htoNat, narrowSign_pack, narrowBits_pack_of_lt _ (by omega) hmantlt,
      fromFloatBits_of_normal hF ((le_roundedBits_iff _ _).2 (by omega)) ((roundedBits_lt_iff _ _).2 (by omega)),
      Nat.sub_mul]
    have hle' := Nat.mul_le_mul_right (2 ^ F.M) ((le_roundedBits_iff (F := F) _ _).1 hle)
    exact ⟨hs, by omega⟩

end

end Sys2Proof.Machine
end

section
/-! SUPPORT. What `FromFloat` answers by the bits of its operand, and the two commands (R103, R106, R107). -/

namespace Sys2Proof.Machine

section
variable {F : Format}

/-! ### The magnitude of the result -/

/-- The rounded operand is within half a step of the operand, on the grid of `M` mantissa bits (R102). -/
theorem roundedBits_bracket (hF : RoundsF32 F) (m : Nat) :
    gridMag F.M (roundedBits F m - 1) * 2 ^ (23 - F.M) + gridMag F.M (roundedBits F m) * 2 ^ (23 - F.M) ≤
        2 * gridMag 23 m ∧
      2 * gridMag 23 m <
        gridMag F.M (roundedBits F m) * 2 ^ (23 - F.M) + gridMag F.M (roundedBits F m + 1) * 2 ^ (23 - F.M) := by
  have hM := hF.mant_lt
  have hcut : 23 - F.M = 22 - F.M + 1 := by omega
  have hwidth : 23 = F.M + (22 - F.M + 1) := by omega
  have h := gridMag_round_half_up F.M (22 - F.M) m
  rw [← hwidth, ← hcut] at h
  exact h

theorem denormStep_eq (F : Format) : denormStep F = 2 ^ biasGap F * 2 ^ (23 - F.M) := Nat.pow_add ..

/-- A normal result has the magnitude of the rounded operand (R101). -/
theorem narrowMag_fromFloat_of_normal (hF : RoundsF32 F) {a : Word}
    (hlow : (biasGap F + 1) * 2 ^ F.M ≤ roundedBits F (f32Bits a))
    (hhigh : roundedBits F (f32Bits a) < (biasGap F + allOnes F) * 2 ^ F.M) :
    narrowMag F (fromFloat F .truncateAfterRound a) = gridMag F.M (roundedBits F (f32Bits a)) * 2 ^ (23 - F.M) := by
  obtain ⟨-, hbits⟩ := fromFloat_sign_bits hF a
  rw [Nat.succ_mul] at hlow
  rw [narrowMag_eq_gridMag hF.toWithinF32, hbits, fromFloatBits_of_normal hF (by rw [Nat.succ_mul]; exact hlow) hhigh,
    denormStep_eq, ← Nat.mul_assoc, ← gridMag_add_exponent (Nat.le_sub_of_add_le' hlow),
    Nat.sub_add_cancel (Nat.le_of_add_right_le hlow)]

/-- A denormal result has the magnitude of the rounded operand, truncated to a multiple of the smallest denormal
(R104). -/
theorem narrowMag_fromFloat_of_denorm (hF : RoundsF32 F) {a : Word}
    (ht : roundedBits F (f32Bits a) < (biasGap F + 1) * 2 ^ F.M) :
    narrowMag F (fromFloat F .truncateAfterRound a) =
      gridMag F.M (roundedBits F (f32Bits a)) * 2 ^ (23 - F.M) / denormStep F * denormStep F := by
  obtain ⟨-, hbits⟩ := fromFloat_sign_bits hF a
  rw [narrowMag_eq_gridMag hF.toWithinF32, hbits, fromFloatBits_of_denorm hF ht, gridMag_of_lt (gridMag_div_lt ht),
    denormStep_eq, Nat.mul_div_mul_right _ _ (Nat.two_pow_pos _)]

/-- A denormal result is zero exactly when the rounded operand is below the smallest denormal (R103, R104). -/
theorem fromFloatBits_eq_zero_iff (hF : RoundsF32 F) {m : Nat} (ht : roundedBits F m < (biasGap F + 1) * 2 ^ F.M) :
    fromFloatBits F m = 0 ↔ roundedBits F m < (biasGap F + 1 - F.M) * 2 ^ F.M := by
  have hleast := hF.least_normal
  have hexp : biasGap F + 1 - F.M = biasGap F - F.M + 1 := by
    rw [biasGap]
    omega
  have hgap : F.M + (biasGap F - F.M) = biasGap F := by
    rw [biasGap]
    omega
  have hstep : gridMag F.M ((biasGap F + 1 - F.M) * 2 ^ F.M) = 2 ^ biasGap F := by
    rw [hexp, Nat.succ_mul, gridMag_significand _ le_rfl (Nat.pow_le_pow_right (by decide) F.M.le_succ), ← Nat.pow_add,
      hgap]
  rw [fromFloatBits_of_denorm hF ht, Nat.div_eq_zero_iff_lt (Nat.two_pow_pos _), ← hstep,
    (gridMag_strictMono F.M).lt_iff_lt]

/-- A result that is neither an infinity nor a NaN is below the infinity. -/
theorem fromFloatBits_lt_inf (hF : RoundsF32 F) {m : Nat} (ht : roundedBits F m < (biasGap F + allOnes F) * 2 ^ F.M) :
    fromFloatBits F m < allOnes F * 2 ^ F.M := by
  obtain hnorm | hden := le_or_gt ((biasGap F + 1) * 2 ^ F.M) (roundedBits F m)
  · rw [fromFloatBits_of_normal hF hnorm ht]
    rw [Nat.succ_mul] at hnorm
    rw [Nat.add_mul] at ht
    have := Nat.two_pow_pos F.M
    omega
  · rw [fromFloatBits_of_denorm hF hden]
    exact (gridMag_div_lt hden).trans_le (Nat.le_mul_of_pos_left _ hF.exp_pos)

/-- What `FromFloat` answers is the operand's sign above the bits (R101). -/
theorem fromFloat_eq (hF : RoundsF32 F) (a : Word) :
    fromFloat F .truncateAfterRound a = f32Sign a * 2 ^ (F.M + F.E) + fromFloatBits F (f32Bits a) := by
  obtain ⟨hsign, hbits⟩ := fromFloat_sign_bits hF a
  rw [← hsign, ← hbits]
  exact eq_sign_add_bits (fromFloat_lt F _ a)

/-- The least bits that round up to the exponent field `c` or above. -/
def roundsTo (F : Format) (c : Nat) : Nat := c * 2 ^ 23 - 2 ^ (22 - F.M)

theorem roundedBits_lt_iff_roundsTo (hF : RoundsF32 F) (c m : Nat) :
    roundedBits F m < c * 2 ^ F.M ↔ m < roundsTo F c := by
  rw [roundedBits, Nat.div_lt_iff_lt_mul (Nat.two_pow_pos _), Nat.mul_assoc, two_pow_mul_leftAlign hF.mant_le, roundsTo,
    Nat.lt_sub_iff_add_lt]

theorem le_roundedBits_iff_roundsTo (hF : RoundsF32 F) (c m : Nat) :
    c * 2 ^ F.M ≤ roundedBits F m ↔ roundsTo F c ≤ m := by
  rw [← Nat.not_lt, roundedBits_lt_iff_roundsTo hF, Nat.not_lt]

/-- The least bits that overflow to the infinity (R106). -/
abbrev overflowsFrom (F : Format) : Nat := roundsTo F (biasGap F + allOnes F)

/-- The least bits that round to a normal value (R103). -/
abbrev normalFrom (F : Format) : Nat := roundsTo F (biasGap F + 1)

/-- The least bits that do not give a zero (R103, R104). -/
abbrev nonzeroFrom (F : Format) : Nat := roundsTo F (biasGap F + 1 - F.M)

/-- The class of the result by the bits of the operand (R103, R106, R107). -/
theorem fromFloatBits_classes (hF : RoundsF32 F) (m : Nat) :
    (255 * 2 ^ 23 < m → fromFloatBits F m = allOnes F * 2 ^ F.M + F.nanMant) ∧
      (overflowsFrom F ≤ m → m ≤ 255 * 2 ^ 23 → fromFloatBits F m = allOnes F * 2 ^ F.M) ∧
      (m < nonzeroFrom F → fromFloatBits F m = 0) ∧
      (nonzeroFrom F ≤ m → m < overflowsFrom F → 1 ≤ fromFloatBits F m ∧ fromFloatBits F m < allOnes F * 2 ^ F.M) := by
  simp only [← roundedBits_lt_iff_roundsTo hF, ← le_roundedBits_iff_roundsTo hF]
  refine ⟨fromFloatBits_of_nan, fun hover hm => fromFloatBits_of_overflow hm hover, fun hzero => ?_,
    fun hnonzero hfin => ⟨Nat.one_le_iff_ne_zero.2 fun h0 => ?_, fromFloatBits_lt_inf hF hfin⟩⟩
  · have hden := hzero.trans_le (Nat.mul_le_mul_right (2 ^ F.M) (Nat.sub_le (biasGap F + 1) F.M))
    exact (fromFloatBits_eq_zero_iff hF hden).2 hzero
  · obtain hnorm | hden := le_or_gt ((biasGap F + 1) * 2 ^ F.M) (roundedBits F m)
    · rw [fromFloatBits_of_normal hF hnorm hfin] at h0
      rw [Nat.succ_mul] at hnorm
      have := Nat.two_pow_pos F.M
      omega
    · exact hnonzero.not_gt ((fromFloatBits_eq_zero_iff hF hden).1 h0)

end

/-! ### The two commands -/

/-- The result of `Q_FROM_F32` by the operand's sign and bits. -/
theorem qFromFloat_result_toNat (a : Word) :
    ((qFromFloat a).setWidth 32).toNat = fromFloatBits Config.quarter (f32Bits a) + f32Sign a * 0x80 := by
  rw [BitVec.toNat_setWidth_of_le (by decide), qFromFloat_toNat, Nat.add_comm]
  exact fromFloat_eq quarter_roundsF32 a

/-- The result of `H_FROM_F32` by the operand's sign and bits. -/
theorem hFromFloat_result_toNat (a : Word) :
    ((hFromFloat a).setWidth 32).toNat = fromFloatBits Config.half (f32Bits a) + f32Sign a * 0x8000 := by
  rw [BitVec.toNat_setWidth_of_le (by decide), hFromFloat_toNat, Nat.add_comm]
  exact fromFloat_eq half_roundsF32 a

/-- The classes of a result whose sign bit stands at `sg`. -/
theorem fromFloat_result_classes {F : Format} (hF : RoundsF32 F) {r m sg : Nat} (hr : r = fromFloatBits F m + sg) :
    (255 * 2 ^ 23 < m → r = allOnes F * 2 ^ F.M + F.nanMant + sg) ∧
      (overflowsFrom F ≤ m → m ≤ 255 * 2 ^ 23 → r = allOnes F * 2 ^ F.M + sg) ∧
      (m < nonzeroFrom F → r = sg) ∧
      (nonzeroFrom F ≤ m → m < overflowsFrom F → 1 + sg ≤ r ∧ r ≤ allOnes F * 2 ^ F.M - 1 + sg) := by
  obtain ⟨hnan, hinf, hzero, hfin⟩ := fromFloatBits_classes hF m
  rw [hr]
  refine ⟨fun hm => by rw [hnan hm], fun hlow hm => by rw [hinf hlow hm], fun hm => by rw [hzero hm, Nat.zero_add],
    fun hlow hm => ?_⟩
  obtain ⟨hpos, hlt⟩ := hfin hlow hm
  exact ⟨Nat.add_le_add_right hpos sg, Nat.add_le_add_right (Nat.le_sub_one_of_lt hlt) sg⟩

/-- Settles O11: the four clauses are the classes of the result at the bounds of Quarter. -/
theorem quarterFromF32Completes : Obligations.QuarterFromF32Completes := fun a s =>
  ⟨_, rfl, s.complete_only _, rfl, fromFloat_result_classes quarter_roundsF32 (qFromFloat_result_toNat a)⟩

/-- Settles O12: the four clauses are the classes of the result at the bounds of Half. -/
theorem halfFromF32Completes : Obligations.HalfFromF32Completes := fun a s =>
  ⟨_, rfl, s.complete_only _, rfl, fromFloat_result_classes half_roundsF32 (hFromFloat_result_toNat a)⟩

end Sys2Proof.Machine
end

section
/-! SUPPORT. `FromFloat` against the exact value: nearest, truncated, in error by less than a step, and the inverse of
`ToFloat` (R102 to R104, R113, R114). -/

namespace Sys2Proof.Machine

/-! ### The nearest of the values around a bracket -/

/-- A magnitude with a sign bit (R11, R12). -/
def signed (s m : Nat) : Int := if s = 1 then -(m : Int) else m

theorem f32Scaled_eq_signed (a : Word) : f32Scaled a = signed (f32Sign a) (f32Mag a) := rfl

theorem narrowScaled_eq_signed (F : Format) (n : Nat) :
    narrowScaled F n = signed (narrowSign F n) (narrowMag F n) := rfl

@[simp] theorem natAbs_signed (s m : Nat) : (signed s m).natAbs = m := by
  rw [signed]
  split <;> omega

theorem natAbs_signed_sub (s v q : Nat) : (signed s v - signed s q).natAbs = ((v : Int) - q).natAbs := by
  simp only [signed]
  split <;> omega

/-- A value `v` between the midpoints from `q` to its neighbours `lo` and `hi` is at least as near to `q` as to any
`w` outside of them, of either sign; another value is as near only when `v` is one of the midpoints. -/
theorem nearest_of_bracket {lo q hi v w : Nat} (hlow : lo + q ≤ 2 * v) (hhigh : 2 * v ≤ q + hi) (hlo : lo ≤ q)
    (hhi : q ≤ hi) (hw : w ≤ lo ∨ w = q ∨ hi ≤ w) (s s' : Nat) :
    (signed s v - signed s q).natAbs ≤ (signed s v - signed s' w).natAbs ∧
      ((signed s v - signed s q).natAbs = (signed s v - signed s' w).natAbs → signed s' w ≠ signed s q →
        (2 * v = lo + q ∧ w = lo) ∨ 2 * v = q + hi) := by
  simp only [signed]
  split <;> split <;> omega

section
variable {F : Format}

/-! ### Normal results -/

theorem f32Sign_fromFloat (hF : RoundsF32 F) (a : Word) :
    narrowSign F (fromFloat F .truncateAfterRound a) = f32Sign a := (fromFloat_sign_bits hF a).1

/-- Adding `D` to the exponent field of any pattern multiplies its magnitude by at least `2^D`. -/
theorem gridMag_mul_le (M x D : Nat) : gridMag M x * 2 ^ D ≤ gridMag M (x + D * 2 ^ M) := by
  obtain hnorm | hsub := le_or_gt (2 ^ M) x
  · exact (gridMag_add_exponent hnorm D).ge
  · rw [gridMag_of_lt hsub]
    cases D with
    | zero => simp [gridMag_of_lt hsub]
    | succ D =>
      have hsum : x + (D + 1) * 2 ^ M = D * 2 ^ M + (2 ^ M + x) := by ring
      rw [hsum, gridMag_significand D (Nat.le_add_right _ _) (by omega), Nat.pow_succ', ← Nat.mul_assoc]
      exact Nat.mul_le_mul_right _ (by omega)

/-- No narrow value lies strictly between a normal value and its two neighbours on the f32 grid of `M` mantissa bits. -/
theorem narrowMag_outside_neighbours (hF : RoundsF32 F) {t : Nat} (ht : (biasGap F + 1) * 2 ^ F.M ≤ t) (n : Nat) :
    narrowMag F n ≤ gridMag F.M (t - 1) * 2 ^ (23 - F.M) ∨ narrowMag F n = gridMag F.M t * 2 ^ (23 - F.M) ∨
      gridMag F.M (t + 1) * 2 ^ (23 - F.M) ≤ narrowMag F n := by
  have hmono := (gridMag_strictMono F.M).monotone
  rw [narrowMag_eq_gridMag hF.toWithinF32, denormStep_eq, ← Nat.mul_assoc]
  rw [Nat.succ_mul] at ht
  generalize narrowBits F n = p
  obtain hbelow | hge := Nat.lt_or_ge (p + biasGap F * 2 ^ F.M) t
  · left
    exact Nat.mul_le_mul_right _ ((gridMag_mul_le _ _ _).trans (hmono (Nat.le_sub_one_of_lt hbelow)))
  · right
    rw [← gridMag_add_exponent (by omega)]
    obtain rfl | habove := Nat.eq_or_lt_of_le hge
    · exact .inl rfl
    · exact .inr (Nat.mul_le_mul_right _ (hmono habove))

/-- The magnitude of an f32 rounded to the `M` mantissa bits of a narrow format, in units of 2^-149 (R102). -/
def roundedMag (F : Format) (m : Nat) : Nat := gridMag F.M (roundedBits F m) * 2 ^ (23 - F.M)

theorem f32Scaled_eq_grid (a : Word) : f32Scaled a = signed (f32Sign a) (gridMag 23 (f32Bits a)) := by
  rw [f32Scaled_eq_signed, f32Mag_eq_gridMag]

theorem narrowScaled_fromFloat (hF : RoundsF32 F) (a : Word) :
    narrowScaled F (fromFloat F .truncateAfterRound a) =
      signed (f32Sign a) (narrowMag F (fromFloat F .truncateAfterRound a)) := by
  rw [narrowScaled_eq_signed, f32Sign_fromFloat hF]

/-- In the normal range `FromFloat` gives the nearest narrow value, ties away from zero (R102, R103). -/
theorem fromFloat_nearest_away (hF : RoundsF32 F) {a : Word} (hlow : normalFrom F ≤ f32Bits a)
    (hhigh : f32Bits a < overflowsFrom F) (n : Nat) :
    let v := f32Scaled a
    let q := narrowScaled F (fromFloat F .truncateAfterRound a)
    let w := narrowScaled F n
    (v - q).natAbs ≤ (v - w).natAbs ∧ ((v - q).natAbs = (v - w).natAbs → w.natAbs ≤ q.natAbs) := by
  intro v q w
  rw [← le_roundedBits_iff_roundsTo hF] at hlow
  rw [← roundedBits_lt_iff_roundsTo hF] at hhigh
  have hmono := (gridMag_strictMono F.M).monotone
  have hprev := Nat.mul_le_mul_right (2 ^ (23 - F.M)) (hmono (Nat.sub_le (roundedBits F (f32Bits a)) 1))
  have hnext := Nat.mul_le_mul_right (2 ^ (23 - F.M)) (hmono (Nat.le_succ (roundedBits F (f32Bits a))))
  obtain ⟨hfloor, hceil⟩ := roundedBits_bracket hF (f32Bits a)
  obtain ⟨hnear, htie⟩ := nearest_of_bracket hfloor hceil.le hprev hnext (narrowMag_outside_neighbours hF hlow n)
    (f32Sign a) (narrowSign F n)
  have hv : v = signed (f32Sign a) (gridMag 23 (f32Bits a)) := f32Scaled_eq_grid a
  have hq : q = signed (f32Sign a) (roundedMag F (f32Bits a)) := by
    rw [roundedMag, ← narrowMag_fromFloat_of_normal hF hlow hhigh]
    exact narrowScaled_fromFloat hF a
  have hw : w = signed (narrowSign F n) (narrowMag F n) := rfl
  rw [hv, hq, hw]
  refine ⟨hnear, fun heq => ?_⟩
  by_cases hsame : signed (narrowSign F n) (narrowMag F n) = signed (f32Sign a) (roundedMag F (f32Bits a))
  · rw [hsame]
  · obtain ⟨-, hlo⟩ | hhi := htie heq hsame
    · rw [natAbs_signed, natAbs_signed, hlo]
      exact hprev
    · exact absurd hhi hceil.ne

/-! ### Denormal results -/

theorem f32Mag_ofNat {x : Nat} (hx : x < 2 ^ 31) : f32Mag (BitVec.ofNat 32 x) = gridMag 23 x := by
  have hbits : f32Bits (BitVec.ofNat 32 x) = x := by
    rw [f32Bits, BitVec.extractLsb'_toNat, BitVec.toNat_ofNat, Nat.shiftRight_zero]
    omega
  rw [f32Mag_eq_gridMag, hbits]

theorem gridMag_eq_zero_iff (M x : Nat) : gridMag M x = 0 ↔ x = 0 := by
  have hzero : gridMag M 0 = 0 := gridMag_of_lt (Nat.two_pow_pos M)
  exact ⟨fun h => (gridMag_strictMono M).injective (h.trans hzero.symm), fun h => h ▸ hzero⟩

theorem narrowMag_eq_zero_iff (hF : RoundsF32 F) (n : Nat) : narrowMag F n = 0 ↔ narrowBits F n = 0 := by
  have hstep : denormStep F ≠ 0 := (Nat.two_pow_pos _).ne'
  rw [narrowMag_eq_gridMag hF.toWithinF32, Nat.mul_eq_zero, gridMag_eq_zero_iff, or_iff_left hstep]

/-- Below the normal range `FromFloat` truncates the rounded operand to a multiple of the smallest denormal, and gives
zero below its bound (R104). -/
theorem fromFloat_truncates (hF : RoundsF32 F) {a : Word} (h : f32Bits a < normalFrom F) :
    narrowMag F (fromFloat F .truncateAfterRound a) =
        f32Mag (BitVec.ofNat 32 (roundedBits F (f32Bits a) * 2 ^ (23 - F.M))) / denormStep F * denormStep F ∧
      (narrowMag F (fromFloat F .truncateAfterRound a) = 0 ↔ f32Bits a < nonzeroFrom F) := by
  have hM := hF.mant_le
  obtain ⟨-, hbits⟩ := fromFloat_sign_bits hF a
  rw [← roundedBits_lt_iff_roundsTo hF] at h
  have hwidth : roundedBits F (f32Bits a) * 2 ^ (23 - F.M) < 2 ^ 31 := by
    calc roundedBits F (f32Bits a) * 2 ^ (23 - F.M)
      _ < (biasGap F + 1) * 2 ^ F.M * 2 ^ (23 - F.M) := Nat.mul_lt_mul_of_pos_right h (Nat.two_pow_pos _)
      _ = (biasGap F + 1) * 2 ^ 23 := by rw [Nat.mul_assoc, two_pow_mul_leftAlign hM]
      _ ≤ 2 ^ 31 := by rw [biasGap]; omega
  have hwide := gridMag_leftAlign F.M (23 - F.M) (roundedBits F (f32Bits a))
  rw [Nat.add_sub_cancel' hM] at hwide
  constructor
  · rw [f32Mag_ofNat hwidth, hwide]
    exact narrowMag_fromFloat_of_denorm hF h
  · rw [narrowMag_eq_zero_iff hF, hbits, fromFloatBits_eq_zero_iff hF h, roundedBits_lt_iff_roundsTo hF]

/-! ### The quantization error -/

/-- One unit in the last place of the rounded operand, in units of 2^-149. -/
def roundedUlp (F : Format) (m : Nat) : Nat := 2 ^ (roundedBits F m / 2 ^ F.M - 1) * 2 ^ (23 - F.M)

theorem roundedUlp_pos (F : Format) (m : Nat) : 0 < roundedUlp F m :=
  Nat.mul_pos (Nat.two_pow_pos _) (Nat.two_pow_pos _)

theorem roundedUlp_dvd (F : Format) (m : Nat) : roundedUlp F m ∣ roundedMag F m :=
  Nat.mul_dvd_mul_right (ulp_dvd_gridMag _ _) _

/-- Rounding to `M` mantissa bits moves a magnitude by at most half a unit in the last place of the result (R102). -/
theorem roundedMag_error (hF : RoundsF32 F) (m : Nat) :
    2 * gridMag 23 m < 2 * roundedMag F m + roundedUlp F m ∧
      2 * roundedMag F m ≤ 2 * gridMag 23 m + roundedUlp F m := by
  obtain ⟨hlow, hhigh⟩ := roundedBits_bracket hF m
  rw [gridMag_succ, Nat.add_mul] at hhigh
  have hprev : roundedMag F m ≤ gridMag F.M (roundedBits F m - 1) * 2 ^ (23 - F.M) + roundedUlp F m := by
    rw [roundedMag, roundedUlp, ← Nat.add_mul]
    refine Nat.mul_le_mul_right _ ?_
    cases ht : roundedBits F m with
    | zero => exact Nat.le_add_right _ _
    | succ u =>
      have hband : u / 2 ^ F.M - 1 ≤ (u + 1) / 2 ^ F.M - 1 := Nat.sub_le_sub_right (Nat.div_le_div_right u.le_succ) 1
      rw [gridMag_succ, Nat.add_sub_cancel]
      exact Nat.add_le_add_left (Nat.pow_le_pow_right (by decide) hband) _
  simp only [roundedMag, roundedUlp] at *
  omega

/-- Truncating a multiple of `u` to a multiple of `d`, itself a multiple of `u`, leaves a rest of at most `d - u`. -/
theorem add_ulp_le_next_multiple {g u d : Nat} (hd : 0 < d) (hg : u ∣ g) (hu : u ∣ d) : g + u ≤ g / d * d + d := by
  have hlt : g + u < g / d * d + d + u := Nat.add_lt_add_right (Nat.lt_div_mul_add hd) u
  exact Nat.le_of_lt_add_of_dvd hlt (Nat.dvd_add hg dvd_rfl) (Nat.dvd_add (hu.mul_left _) hu)

/-- The quantization step of a narrow format at the exponent field `e`, in units of 2^-149 (R114). -/
def quantStep (F : Format) (e : Nat) : Nat := 2 ^ (149 + max e 1 - bias F - F.M)

/-- A normal result has the step of the rounded operand. -/
theorem quantStep_of_normal (hF : RoundsF32 F) {a : Word}
    (hlow : (biasGap F + 1) * 2 ^ F.M ≤ roundedBits F (f32Bits a))
    (hhigh : roundedBits F (f32Bits a) < (biasGap F + allOnes F) * 2 ^ F.M) :
    quantStep F (narrowExp F (fromFloat F .truncateAfterRound a)) = roundedUlp F (f32Bits a) := by
  obtain ⟨-, hbits⟩ := fromFloat_sign_bits hF a
  have hleast := hF.least_normal
  have hM := hF.mant_le
  have hexp := (le_roundedBits_iff (F := F) _ _).1 hlow
  rw [narrowExp_eq, hbits, fromFloatBits_of_normal hF hlow hhigh, Nat.mul_comm, Nat.sub_mul_div, quantStep, roundedUlp,
    ← Nat.pow_add]
  congr 1
  simp only [biasGap] at *
  omega

/-- A denormal result has the step of the smallest denormal, of which the rounded operand's is a divisor. -/
theorem quantStep_of_denorm (hF : RoundsF32 F) {a : Word}
    (ht : roundedBits F (f32Bits a) < (biasGap F + 1) * 2 ^ F.M) :
    narrowExp F (fromFloat F .truncateAfterRound a) = 0 ∧ quantStep F 0 = denormStep F ∧
      roundedUlp F (f32Bits a) ∣ denormStep F := by
  obtain ⟨-, hbits⟩ := fromFloat_sign_bits hF a
  have hleast := hF.least_normal
  have hM := hF.mant_le
  have hexp := (roundedBits_lt_iff (F := F) _ _).1 ht
  refine ⟨?_, ?_, ?_⟩
  · rw [narrowExp_eq, hbits, fromFloatBits_of_denorm hF ht, Nat.div_eq_of_lt (gridMag_div_lt ht)]
  · rw [quantStep, denormStep]
    congr 1
    simp only [biasGap] at *
    omega
  · rw [denormStep_eq]
    exact Nat.mul_dvd_mul_right (Nat.pow_dvd_pow 2 (by omega)) _

/-- The distance of a value from what `FromFloat` makes of it is below one step of the result, and at most half a step
when the result is normal (R114). -/
theorem fromFloat_error (hF : RoundsF32 F) {a : Word} (h : f32Bits a < overflowsFrom F) :
    let r := fromFloat F .truncateAfterRound a
    let err := (f32Scaled a - narrowScaled F r).natAbs
    err < quantStep F (narrowExp F r) ∧ (1 ≤ narrowExp F r → 2 * err ≤ quantStep F (narrowExp F r)) := by
  intro r err
  rw [← roundedBits_lt_iff_roundsTo hF] at h
  obtain ⟨hover, hunder⟩ := roundedMag_error hF (f32Bits a)
  have herr : err = ((gridMag 23 (f32Bits a) : Int) - narrowMag F r).natAbs := by
    rw [← natAbs_signed_sub (f32Sign a), ← f32Scaled_eq_grid, ← narrowScaled_fromFloat hF]
  obtain hnorm | hden := le_or_gt ((biasGap F + 1) * 2 ^ F.M) (roundedBits F (f32Bits a))
  · have hmag : narrowMag F r = roundedMag F (f32Bits a) := narrowMag_fromFloat_of_normal hF hnorm h
    rw [herr, hmag, quantStep_of_normal hF hnorm h]
    omega
  · obtain ⟨hexp, hstep, hdvd⟩ := quantStep_of_denorm hF hden
    have hmag : narrowMag F r = roundedMag F (f32Bits a) / denormStep F * denormStep F :=
      narrowMag_fromFloat_of_denorm hF hden
    have hstep0 : 0 < denormStep F := Nat.two_pow_pos _
    have hfloor := Nat.div_mul_le_self (roundedMag F (f32Bits a)) (denormStep F)
    have hrest := add_ulp_le_next_multiple (d := denormStep F) hstep0 (roundedUlp_dvd F (f32Bits a)) hdvd
    rw [herr, hmag, hexp, hstep]
    omega

/-! ### `FromFloat` after `ToFloat` -/

/-- An f32 that already has only `M` mantissa bits is not rounded. -/
theorem roundedBits_leftAligned (hF : RoundsF32 F) (t : Nat) : roundedBits F (t * 2 ^ (23 - F.M)) = t := by
  have hhalf : 2 ^ (22 - F.M) < 2 ^ (23 - F.M) :=
    Nat.pow_lt_pow_right (by decide) (by have := hF.mant_lt; omega)
  rw [roundedBits, Nat.mul_comm, Nat.mul_add_div (Nat.two_pow_pos _), Nat.div_eq_of_lt hhalf, Nat.add_zero]

theorem f32Bits_pack_leftAligned (hF : RoundsF32 F) {X w : Nat} (s : Nat) (hX : X < 256) (hw : w < 2 ^ F.M) :
    f32Bits (f32Pack s X (w <<< (23 - F.M))) = (X * 2 ^ F.M + w) * 2 ^ (23 - F.M) := by
  rw [Nat.shiftLeft_eq, f32Bits_pack hX (leftAligned_lt hF.mant_le hw), Nat.add_mul, Nat.mul_assoc,
    two_pow_mul_leftAlign hF.mant_le]

/-- The bits of what `ToFloat` makes of a finite pattern need no rounding, and have its magnitude (R72, R111). -/
theorem f32Bits_toFloat_of_finite (hF : RoundsF32 F) {n : Nat} (hfin : narrowExp F n < allOnes F) :
    ∃ t, f32Bits (toFloat F n) = t * 2 ^ (23 - F.M) ∧
      gridMag F.M t = gridMag F.M (narrowBits F n) * 2 ^ biasGap F := by
  have hvalue : f32Mag (toFloat F n) = narrowMag F n := by
    obtain ⟨-, hscaled, -⟩ := toFloat_of_finite hF.toWithinF32 hfin
    simpa [f32Scaled_eq_signed, narrowScaled_eq_signed] using congrArg Int.natAbs hscaled
  have hbits : ∃ t, f32Bits (toFloat F n) = t * 2 ^ (23 - F.M) := by
    cases hz : narrowIsZero F n with
    | true =>
      obtain ⟨hexp, hmant⟩ : narrowExp F n = 0 ∧ narrowMant F n = 0 := by simpa [narrowIsZero] using hz
      refine ⟨0, ?_⟩
      rw [toFloat, if_pos ⟨hexp, hmant⟩, f32Bits_pack (by decide) (by decide), Nat.zero_mul, Nat.zero_mul]
    | false =>
      obtain ⟨w, X, hw, -, hX, h, -⟩ := toFloat_normal hF.toWithinF32 hfin hz
      exact ⟨X * 2 ^ F.M + w, by rw [h, f32Bits_pack_leftAligned hF _ (by omega) hw]⟩
  obtain ⟨t, ht⟩ := hbits
  refine ⟨t, ht, ?_⟩
  have hwide := gridMag_leftAlign F.M (23 - F.M) t
  rw [Nat.add_sub_cancel' hF.mant_le, ← ht, ← f32Mag_eq_gridMag, hvalue, narrowMag_eq_gridMag hF.toWithinF32,
    denormStep_eq, ← Nat.mul_assoc] at hwide
  exact (Nat.mul_right_cancel (Nat.two_pow_pos _) hwide).symm

/-- `FromFloat` gives back the bits of a finite pattern (R113). -/
theorem fromFloatBits_toFloat_of_finite (hF : RoundsF32 F) {n : Nat} (hfin : narrowExp F n < allOnes F) :
    fromFloatBits F (f32Bits (toFloat F n)) = narrowBits F n := by
  obtain ⟨t, ht, hmag⟩ := f32Bits_toFloat_of_finite hF hfin
  have hround : roundedBits F (f32Bits (toFloat F n)) = t := by rw [ht, roundedBits_leftAligned hF]
  rw [narrowExp_lt_iff] at hfin
  obtain hnorm | hden := le_or_gt (2 ^ F.M) (narrowBits F n)
  · rw [← gridMag_add_exponent hnorm] at hmag
    obtain rfl := (gridMag_strictMono F.M).injective hmag
    rw [fromFloatBits_of_normal hF, hround, Nat.add_sub_cancel]
    · rw [hround, Nat.succ_mul]
      omega
    · rw [hround, Nat.add_mul]
      omega
  · have hlow : t < (biasGap F + 1) * 2 ^ F.M := by
      rw [← (gridMag_strictMono F.M).lt_iff_lt, Nat.succ_mul,
        gridMag_significand _ le_rfl (Nat.pow_le_pow_right (by decide) F.M.le_succ), hmag, gridMag_of_lt hden]
      exact Nat.mul_lt_mul_of_pos_right hden (Nat.two_pow_pos _)
    rw [fromFloatBits_of_denorm hF (by rw [hround]; exact hlow), hround, hmag, Nat.mul_div_cancel _ (Nat.two_pow_pos _),
      gridMag_of_lt hden]

/-- `FromFloat` gives back an infinity, and the format's own NaN for every NaN (R107, R113). -/
theorem fromFloatBits_toFloat_of_allOnes (hF : RoundsF32 F) {n : Nat} (hexp : narrowExp F n = allOnes F) :
    fromFloatBits F (f32Bits (toFloat F n)) =
      allOnes F * 2 ^ F.M + if narrowMant F n = 0 then 0 else F.nanMant := by
  obtain ⟨hexp32, hfrac⟩ := toFloat_of_allOnes hF.toWithinF32 hexp
  have hbits := f32Bits_eq_fields (toFloat F n)
  rw [hexp32, hfrac] at hbits
  split
  next h0 =>
    rw [h0, Nat.zero_mul, Nat.zero_add] at hbits
    exact fromFloatBits_of_overflow (by omega) (overflow_le_roundedBits hF (by omega))
  next hne =>
    have hpos : 0 < narrowMant F n * 2 ^ (23 - F.M) := Nat.mul_pos (Nat.pos_of_ne_zero hne) (Nat.two_pow_pos _)
    exact fromFloatBits_of_nan (by omega)

/-- `FromFloat` inverts `ToFloat`, but for the mantissa of a NaN (R113). -/
theorem fromFloat_toFloat (hF : RoundsF32 F) {n : Nat} (hn : n < 2 ^ formatWidth F) :
    fromFloat F .truncateAfterRound (toFloat F n) =
      if narrowIsNaN F n then narrowSign F n * 2 ^ (F.M + F.E) + (allOnes F * 2 ^ F.M + F.nanMant) else n := by
  rw [fromFloat_eq hF, f32Sign_toFloat]
  obtain hexp | hfin := (narrowExp_le F n).eq_or_lt
  · rw [fromFloatBits_toFloat_of_allOnes hF hexp]
    by_cases hmant : narrowMant F n = 0
    · have hinf : narrowBits F n = allOnes F * 2 ^ F.M := by rw [narrowBits_eq_fields, hmant, hexp, Nat.zero_add,
        Nat.mul_comm]
      rw [if_pos hmant, if_neg (by simp [narrowIsNaN, hmant]), Nat.add_zero, ← hinf]
      exact (eq_sign_add_bits hn).symm
    · rw [if_neg hmant, if_pos (by simp [narrowIsNaN, hexp, hmant])]
  · rw [fromFloatBits_toFloat_of_finite hF hfin, if_neg (by simp [narrowIsNaN, hfin.ne])]
    exact (eq_sign_add_bits hn).symm

end

/-! ### The statements at both formats -/

/-- Settles O13: the generic statement at Quarter. -/
theorem quarterRoundsNearestAway : Obligations.QuarterRoundsNearestAway := by
  intro a n hlow hhigh _
  rw [qFromFloat_toNat]
  exact fromFloat_nearest_away quarter_roundsF32 hlow hhigh n.toNat

/-- Settles O14: the generic statement at Half. -/
theorem halfRoundsNearestAway : Obligations.HalfRoundsNearestAway := by
  intro a n hlow hhigh _
  rw [hFromFloat_toNat]
  exact fromFloat_nearest_away half_roundsF32 hlow hhigh n.toNat

/-- Settles O15: the generic statement at both formats. -/
theorem denormalResultsTruncate : Obligations.DenormalResultsTruncate := by
  refine ⟨fun a h => ?_, fun a h => ?_⟩
  · rw [qFromFloat_toNat]
    exact fromFloat_truncates quarter_roundsF32 h
  · rw [hFromFloat_toNat]
    exact fromFloat_truncates half_roundsF32 h

/-- Settles O16: the generic statement at both formats. -/
theorem quantizationErrorBounded : Obligations.QuantizationErrorBounded := by
  refine ⟨fun a h => ?_, fun a h => ?_⟩
  · rw [qFromFloat_toNat]
    exact fromFloat_error quarter_roundsF32 h
  · rw [hFromFloat_toNat]
    exact fromFloat_error half_roundsF32 h

/-- A pattern cut down to its sign bit, with the bits of another constant set below it. -/
theorem sign_or_eq {w : Nat} (x sign c : BitVec w) (i : Nat) (hsign : sign.toNat = 2 ^ i) (hc : c.toNat < 2 ^ i) :
    (x &&& sign ||| c).toNat = x.toNat >>> i % 2 * 2 ^ i + c.toNat := by
  rw [BitVec.toNat_or, BitVec.toNat_and, hsign, Nat.and_two_pow, Nat.toNat_testBit, Nat.mul_comm,
    ← Nat.two_pow_add_eq_or_of_lt hc, Nat.mul_comm, Nat.shiftRight_eq_div_pow]

/-- Settles O19: a NaN gives the format's own with its sign, every other pattern itself. -/
theorem fromFloatInvertsToFloat : Obligations.FromFloatInvertsToFloat := by
  refine ⟨fun q => BitVec.eq_of_toNat_eq ?_, fun h => BitVec.eq_of_toNat_eq ?_⟩
  · rw [qFromFloat_toNat, apply_ite BitVec.toNat, sign_or_eq q 0x80#8 0x70#8 7 rfl (by decide)]
    exact fromFloat_toFloat quarter_roundsF32 q.isLt
  · rw [hFromFloat_toNat, apply_ite BitVec.toNat, sign_or_eq h 0x8000#16 0x7C00#16 15 rfl (by decide)]
    exact fromFloat_toFloat half_roundsF32 h.isLt

end Sys2Proof.Machine
end

section
/-! SUPPORT. The f32 nearest to an exact value, ties to even, and the sum of finite operands (R115). -/

namespace Sys2Proof.Machine

/-! ### Rounding a magnitude to the nearest f32, ties to even -/

theorem roundShift_eq (n k : Nat) :
    roundShift n k = if 2 * (n % 2 ^ k) > 2 ^ k ∨ (2 * (n % 2 ^ k) = 2 ^ k ∧ n / 2 ^ k % 2 = 1) then n / 2 ^ k + 1
      else n / 2 ^ k := by
  rw [← Nat.shiftRight_eq_div_pow]
  rfl

/-- A magnitude lies between the midpoints from what it rounds to to the two neighbours of that, and is one of the
midpoints only when it rounds to an even pattern (R115). -/
theorem roundMag_bracket (n : Nat) :
    gridMag 23 (roundMag n - 1) + gridMag 23 (roundMag n) ≤ 2 * n ∧
      2 * n ≤ gridMag 23 (roundMag n) + gridMag 23 (roundMag n + 1) ∧
      (2 * n = gridMag 23 (roundMag n - 1) + gridMag 23 (roundMag n) ∨
        2 * n = gridMag 23 (roundMag n) + gridMag 23 (roundMag n + 1) → roundMag n % 2 = 0) := by
  by_cases hsmall : n < 2 ^ 24
  · have hexact : roundMag n = n := if_pos hsmall
    rw [hexact, gridMag_of_le (by omega), gridMag_of_le (by omega), gridMag_of_le (by omega)]
    omega
  · have hn : n ≠ 0 := by omega
    have hlog : 24 ≤ Nat.log2 n := (Nat.le_log2 hn).2 (Nat.le_of_not_lt hsmall)
    generalize hk : Nat.log2 n - 23 = k
    have hround : roundMag n = k * 2 ^ 23 + roundShift n k := by rw [roundMag, if_neg hsmall, hk]
    have hq_low : 2 ^ 23 ≤ n / 2 ^ k := by
      rw [Nat.le_div_iff_mul_le (Nat.two_pow_pos k), ← Nat.pow_add, ← Nat.le_log2 hn]
      omega
    have hq_high : n / 2 ^ k < 2 ^ 24 := by
      rw [Nat.div_lt_iff_lt_mul (Nat.two_pow_pos k), ← Nat.pow_add, ← Nat.log2_lt hn]
      omega
    have hdown := gridMag_significand k hq_low hq_high.le
    have hup := gridMag_significand (M := 23) (q := n / 2 ^ k + 1) k (by omega) hq_high
    have hsplit := Nat.div_add_mod' n (2 ^ k)
    rw [Nat.succ_mul, ← Nat.add_assoc] at hup
    have hmono := gridMag_strictMono 23
    rw [hround, roundShift_eq]
    split
    next hroundUp =>
      have hnext := hmono (Nat.lt_succ_self (k * 2 ^ 23 + (n / 2 ^ k + 1)))
      rw [← Nat.add_assoc] at hnext ⊢
      rw [Nat.add_sub_cancel, hdown, hup]
      rw [Nat.succ_eq_add_one, hup] at hnext
      omega
    next hroundDown =>
      have hprev := hmono (Nat.sub_lt (show 0 < k * 2 ^ 23 + n / 2 ^ k by omega) Nat.one_pos)
      rw [hdown] at hprev ⊢
      rw [hup]
      omega

/-- A magnitude overflows exactly from half a unit in the last place above the largest finite f32 (R115). -/
theorem roundMag_overflow_iff (n : Nat) : 255 * 2 ^ 23 ≤ roundMag n ↔ (2 ^ 25 - 1) * 2 ^ 252 ≤ n := by
  obtain ⟨hlow, hhigh, htie⟩ := roundMag_bracket n
  have hmono := gridMag_strictMono 23
  have hmax : gridMag 23 (255 * 2 ^ 23 - 1) = (2 ^ 24 - 1) * 2 ^ 253 :=
    gridMag_significand (M := 23) (q := 2 ^ 24 - 1) 253 (by decide) (by decide)
  have hinf : gridMag 23 (255 * 2 ^ 23) = 2 ^ 23 * 2 ^ 254 :=
    gridMag_significand (M := 23) (q := 2 ^ 23) 254 (by decide) (by decide)
  constructor
  · intro h
    have hprev := hmono.monotone (Nat.sub_le_sub_right h 1)
    have hself := hmono.monotone h
    omega
  · intro h
    by_contra hlt
    have hself := hmono.monotone (show roundMag n ≤ 255 * 2 ^ 23 - 1 by omega)
    have hnext := hmono.monotone (show roundMag n + 1 ≤ 255 * 2 ^ 23 by omega)
    have heven := htie (.inr (by omega))
    have hodd : roundMag n = 255 * 2 ^ 23 - 1 := hmono.injective (by omega)
    omega

/-! ### The f32 that an exact value rounds to -/

/-- The sign bit of an exact value other than zero (R115). -/
def signOf (v : Int) : Nat := if v < 0 then 1 else 0

theorem signed_natAbs (v : Int) : signed (signOf v) v.natAbs = v := by
  simp only [signed, signOf]
  split <;> split <;> omega

theorem roundMag_zero : roundMag 0 = 0 := rfl

/-- A value that overflows gives the infinity of its sign (R115). -/
theorem roundToF32_of_overflow (z : Nat) {v : Int} (h : 255 * 2 ^ 23 ≤ roundMag v.natAbs) :
    roundToF32 z v = f32Pack (signOf v) 255 0 := by
  have hv : v ≠ 0 := by
    rintro rfl
    simp [roundMag_zero] at h
  simp only [roundToF32]
  rw [if_neg hv, if_pos h]
  rfl

/-- A value that does not overflow gives the pattern of its rounded magnitude (R115). -/
theorem roundToF32_of_finite (z : Nat) {v : Int} (h : roundMag v.natAbs < 255 * 2 ^ 23) :
    f32Bits (roundToF32 z v) = roundMag v.natAbs ∧
      f32Scaled (roundToF32 z v) = signed (signOf v) (gridMag 23 (roundMag v.natAbs)) := by
  by_cases hv : v = 0
  · have hzero : roundToF32 z v = f32Pack z 0 0 := if_pos hv
    have hbits : f32Bits (f32Pack z 0 0) = 0 := f32Bits_pack (by decide) (by decide)
    rw [f32Scaled_eq_grid, hzero, hbits, hv]
    simp [roundMag_zero, signed, gridMag]
  · have hpack : roundToF32 z v = f32Pack (signOf v) (roundMag v.natAbs / 2 ^ 23) (roundMag v.natAbs % 2 ^ 23) := by
      simp only [roundToF32]
      rw [if_neg hv, if_neg (Nat.not_le.2 h)]
      rfl
    have hbits : f32Bits (roundToF32 z v) = roundMag v.natAbs := by
      rw [hpack, f32Bits_pack (by omega) (Nat.mod_lt _ (by decide)), Nat.div_add_mod']
    have hsign : f32Sign (roundToF32 z v) = signOf v := by
      rw [hpack, f32Sign_pack, signOf]
      split <;> rfl
    exact ⟨hbits, by rw [f32Scaled_eq_grid, hbits, hsign]⟩

/-! ### The sum of two finite values -/

theorem f32_not_special_of_finite {a : Word} (h : f32Exp a ≠ 255) : f32IsNaN a = false ∧ f32IsInf a = false := by
  simp [f32IsNaN, f32IsInf, h]

/-- The sum of finite operands is the rounded exact sum (R115). -/
theorem f32Add_of_finite {a b : Word} (ha : f32Exp a ≠ 255) (hb : f32Exp b ≠ 255) :
    f32Add a b = roundToF32 (if f32Sign a = 1 ∧ f32Sign b = 1 then 1 else 0) (f32Scaled a + f32Scaled b) := by
  obtain ⟨hna, hia⟩ := f32_not_special_of_finite ha
  obtain ⟨hnb, hib⟩ := f32_not_special_of_finite hb
  simp [f32Add, f32AddWith, hna, hnb, hia, hib]

/-- The magnitude of a pattern lies outside the two neighbours of any other. -/
theorem gridMag_outside_neighbours (M m c : Nat) :
    gridMag M c ≤ gridMag M (m - 1) ∨ gridMag M c = gridMag M m ∨ gridMag M (m + 1) ≤ gridMag M c := by
  have hmono := (gridMag_strictMono M).monotone
  obtain hlt | rfl | hgt := Nat.lt_trichotomy c m
  · exact .inl (hmono (Nat.le_sub_one_of_lt hlt))
  · exact .inr (.inl rfl)
  · exact .inr (.inr (hmono hgt))

/-- No f32 is nearer to a value than the one it rounds to, and one is as near only if that one is even (R115). -/
theorem roundToF32_nearest_even (z : Nat) {v : Int} (h : roundMag v.natAbs < 255 * 2 ^ 23) (c : Word) :
    (f32Scaled (roundToF32 z v) - v).natAbs ≤ (f32Scaled c - v).natAbs ∧
      ((f32Scaled (roundToF32 z v) - v).natAbs = (f32Scaled c - v).natAbs →
        f32Scaled c ≠ f32Scaled (roundToF32 z v) → f32Frac (roundToF32 z v) % 2 = 0) := by
  obtain ⟨hbits, hscaled⟩ := roundToF32_of_finite z h
  obtain ⟨hlow, hhigh, heven⟩ := roundMag_bracket v.natAbs
  have hmono := (gridMag_strictMono 23).monotone
  obtain ⟨hnear, htie⟩ := nearest_of_bracket hlow hhigh (hmono (Nat.sub_le _ 1)) (hmono (Nat.le_succ _))
    (gridMag_outside_neighbours 23 _ (f32Bits c)) (signOf v) (f32Sign c)
  rw [signed_natAbs, ← hscaled, ← f32Scaled_eq_grid, ← Int.natAbs_neg, neg_sub, ← Int.natAbs_neg (v - _), neg_sub]
    at hnear htie
  refine ⟨hnear, fun heq hne => ?_⟩
  have hmid : roundMag v.natAbs % 2 = 0 := heven ((htie heq hne).imp_left And.left)
  rw [f32Frac_eq, hbits]
  omega

/-- Settles O59: overflow is that of the rounded magnitude, and any other sum is a nearest f32. -/
theorem f32AddRoundsNearestEven : Obligations.F32AddRoundsNearestEven := by
  intro a b ha hb v r
  have hr : r = roundToF32 (if f32Sign a = 1 ∧ f32Sign b = 1 then 1 else 0) v := f32Add_of_finite ha hb
  generalize (if f32Sign a = 1 ∧ f32Sign b = 1 then 1 else 0) = z at hr
  rw [hr, ← roundMag_overflow_iff]
  obtain hover | hfin := le_or_gt (255 * 2 ^ 23) (roundMag v.natAbs)
  · rw [roundToF32_of_overflow z hover]
    have hexp : f32Exp (f32Pack (signOf v) 255 0) = 255 := f32Exp_pack _ _ _
    refine ⟨iff_of_true hexp hover, fun _ => ⟨f32Frac_pack _ _ _, ?_⟩, fun hne => absurd hexp hne⟩
    rw [f32Sign_pack, signOf]
    split <;> omega
  · have hexp : f32Exp (roundToF32 z v) ≠ 255 := by
      rw [Ne, f32Exp_eq_max_iff, (roundToF32_of_finite z hfin).1]
      exact hfin.not_ge
    exact ⟨iff_of_false hexp hfin.not_ge, fun h => absurd h hexp, fun _ c _ => roundToF32_nearest_even z hfin c⟩

end Sys2Proof.Machine
end

section
/-! SUPPORT. The sums and differences with zeros, infinities and NaNs (R115 to R117). -/

namespace Sys2Proof.Machine

/-! ### Flipping the sign bit -/

theorem f32Exp_flip (b : Word) : f32Exp (b ^^^ 0x80000000#32) = f32Exp b := by
  rw [f32Exp, BitVec.extractLsb'_xor, show (0x80000000#32).extractLsb' 23 8 = 0#8 from rfl, BitVec.xor_zero]
  rfl

theorem f32Frac_flip (b : Word) : f32Frac (b ^^^ 0x80000000#32) = f32Frac b := by
  rw [f32Frac, BitVec.extractLsb'_xor, show (0x80000000#32).extractLsb' 0 23 = 0#23 from rfl, BitVec.xor_zero]
  rfl

theorem f32Sign_flip (b : Word) : f32Sign (b ^^^ 0x80000000#32) = 1 - f32Sign b := by
  have hflip : ∀ x : BitVec 1, (x ^^^ 1#1).toNat = 1 - x.toNat := by decide
  rw [f32Sign, BitVec.extractLsb'_xor]
  exact hflip _

theorem f32Bits_flip (b : Word) : f32Bits (b ^^^ 0x80000000#32) = f32Bits b := by
  rw [f32Bits_eq_fields, f32Bits_eq_fields, f32Exp_flip, f32Frac_flip]

theorem f32Scaled_flip (b : Word) : f32Scaled (b ^^^ 0x80000000#32) = -f32Scaled b := by
  have hs := f32Sign_lt b
  rw [f32Scaled_eq_grid, f32Scaled_eq_grid, f32Sign_flip, f32Bits_flip, signed, signed]
  split <;> split <;> omega

/-! ### Operands that are not finite -/

theorem f32IsNaN_eq_false {a : Word} (h : f32Exp a ≠ 255 ∨ f32Frac a = 0) : f32IsNaN a = false := by
  simpa [f32IsNaN, imp_iff_not_or] using h

theorem f32IsNaN_eq_true {a : Word} (hexp : f32Exp a = 255) (hfrac : f32Frac a ≠ 0) : f32IsNaN a = true := by
  simp [f32IsNaN, hexp, hfrac]

theorem f32IsInf_eq_true {a : Word} (hexp : f32Exp a = 255) (hfrac : f32Frac a = 0) : f32IsInf a = true := by
  simp [f32IsInf, hexp, hfrac]

/-- A difference is the sum with the sign of the second operand flipped, unless an operand is a NaN (R116). -/
theorem f32Sub_eq_add {a b : Word} (ha : f32Exp a ≠ 255 ∨ f32Frac a = 0) (hb : f32Exp b ≠ 255 ∨ f32Frac b = 0) :
    f32Sub a b = f32Add a (b ^^^ 0x80000000#32) := by
  obtain ⟨hnan, -⟩ | ⟨-, -, h⟩ := f32Sub_cases a b
  · simp [f32IsNaN_eq_false ha, f32IsNaN_eq_false hb] at hnan
  · exact h

/-- With a NaN operand both operations answer by the NaN rule (R117). -/
theorem f32Add_f32Sub_of_nan {a b : Word} (h : f32IsNaN a = true ∨ f32IsNaN b = true) :
    f32Add a b = f32NanRule a b ∧ f32Sub a b = f32NanRule a b := by
  have hor : (f32IsNaN a || f32IsNaN b) = true := by simpa using h
  exact ⟨by rw [f32Add, f32AddWith, if_pos hor], by rw [f32Sub, f32SubWith, if_pos hor]⟩

/-- An infinity plus a value that is no NaN and no infinity of the other sign is that infinity (R115). -/
theorem f32Add_of_inf {a b : Word} (hexp : f32Exp a = 255) (hfrac : f32Frac a = 0) (hb : f32IsNaN b = false)
    (hsign : f32IsInf b = true → f32Sign a = f32Sign b) : f32Add a b = a := by
  have hcancel : (f32IsInf b && f32Sign a != f32Sign b) = false := by simpa using hsign
  rw [f32Add, f32AddWith, f32IsNaN_eq_false (.inr hfrac), hb, f32IsInf_eq_true hexp hfrac, hcancel]
  rfl

/-- A finite value plus an infinity is that infinity (R115). -/
theorem f32Add_finite_inf {a b : Word} (ha : f32Exp a ≠ 255) (hexp : f32Exp b = 255) (hfrac : f32Frac b = 0) :
    f32Add a b = b := by
  obtain ⟨hna, hia⟩ := f32_not_special_of_finite ha
  rw [f32Add, f32AddWith, hna, hia, f32IsNaN_eq_false (.inr hfrac), f32IsInf_eq_true hexp hfrac]
  rfl

/-! ### Sums that are zero -/

theorem eq_of_sign_of_bits {a b : Word} (hsign : f32Sign a = f32Sign b) (hbits : f32Bits a = f32Bits b) : a = b := by
  rw [← f32Pack_fields a, ← f32Pack_fields b, hsign, f32Exp_eq, f32Exp_eq, f32Frac_eq, f32Frac_eq, hbits]

/-- A negative value that is zero is -0 (R118). -/
theorem eq_negZero {a : Word} (hsign : f32Sign a = 1) (hzero : f32Scaled a = 0) : a = 0x80000000#32 := by
  have hmag : gridMag 23 (f32Bits a) = 0 := by
    rw [← natAbs_signed (f32Sign a) (gridMag 23 _), ← f32Scaled_eq_grid, hzero, Int.natAbs_zero]
  exact eq_of_sign_of_bits hsign ((gridMag_eq_zero_iff _ _).1 hmag)

/-- An exact zero sum is +0 unless both operands are -0 (R115). -/
theorem f32Add_of_zero_sum {a b : Word} (ha : f32Exp a ≠ 255) (hb : f32Exp b ≠ 255)
    (hsum : f32Scaled a + f32Scaled b = 0) :
    f32Add a b = if a = 0x80000000#32 ∧ b = 0x80000000#32 then 0x80000000#32 else 0x00000000#32 := by
  have hneg : (f32Sign a = 1 ∧ f32Sign b = 1) ↔ (a = 0x80000000#32 ∧ b = 0x80000000#32) := by
    constructor
    · rintro ⟨hsa, hsb⟩
      have hzero : f32Scaled a = 0 ∧ f32Scaled b = 0 := by
        simp only [f32Scaled, hsa, hsb, if_true] at hsum ⊢
        omega
      exact ⟨eq_negZero hsa hzero.1, eq_negZero hsb hzero.2⟩
    · rintro ⟨rfl, rfl⟩
      decide
  rw [f32Add_of_finite ha hb, hsum, roundToF32, if_pos rfl, if_congr hneg rfl rfl]
  split <;> rfl

/-- Settles O60: one lemma above for each kind of operand; the closed sums are evaluated. -/
theorem f32SpecialOperands : Obligations.F32SpecialOperands := by
  refine ⟨fun a b ha hb => f32Sub_eq_add ha hb, fun x hx => ?_, fun a b ha hb hsum => f32Add_of_zero_sum ha hb hsum,
    fun a b hexp hfrac hb => ?_, fun a hexp hfrac => ?_, by decide, by decide, fun a b hexp hfrac => ?_,
    fun a b ha hexp hfrac => ?_⟩
  · have hne : ¬(x = 0x80000000#32 ∧ x ^^^ 0x80000000#32 = 0x80000000#32) := by
      rintro ⟨rfl, h⟩
      exact absurd h (by decide)
    rw [f32Sub_eq_add (.inl hx) (.inl hx), f32Add_of_zero_sum hx (by rwa [f32Exp_flip]), if_neg hne]
    rw [f32Scaled_flip, Int.add_right_neg]
  · obtain ⟨hnan, hinf⟩ := f32_not_special_of_finite hb
    refine ⟨f32Add_of_inf hexp hfrac hnan (by simp [hinf]), f32Add_finite_inf hb hexp hfrac, ?_⟩
    rw [f32Sub_eq_add (.inl hb) (.inr hfrac)]
    exact f32Add_finite_inf hb (by rwa [f32Exp_flip]) (by rwa [f32Frac_flip])
  · exact f32Add_of_inf hexp hfrac (f32IsNaN_eq_false (.inr hfrac)) fun _ => rfl
  · have hnan := f32IsNaN_eq_true hexp hfrac
    have hrule : f32NanRule a b = a ||| 0x00400000#32 := if_pos hnan
    rw [← hrule]
    exact f32Add_f32Sub_of_nan (.inl hnan)
  · have hnan := f32IsNaN_eq_true hexp hfrac
    have hrule : f32NanRule a b = b ||| 0x00400000#32 := by
      rw [f32NanRule, f32IsNaN_eq_false ha, hnan]
      rfl
    rw [← hrule]
    exact f32Add_f32Sub_of_nan (.inr hnan)

end Sys2Proof.Machine
end

section
/-! SUPPORT. The two sessions under interleaved commands (R100, R130, R248). -/

namespace Sys2Proof.Machine

/-! ### Sessions under interleaving, for any equivalence of states -/

/-- A command whose effect on a session, as far as `same` sees it, is a function of that session alone. -/
def ActsWithin (same : State → State → Prop) (i : Instr) : Prop :=
  ∀ s s', same s s' → ∃ t t', exec i s = .next t ∧ exec i s' = .next t' ∧ same t t'

/-- A command that leaves a session as it was. -/
def LeavesAlone (same : State → State → Prop) (i : Instr) : Prop :=
  ∀ s, ∃ t, exec i s = .next t ∧ same s t

theorem runCommands_cons {i : Instr} {s t : State} (is : List Instr) (h : exec i s = .next t) :
    runCommands (i :: is) s = runCommands is t := by
  rw [runCommands, h]

/-- When the commands that `own` selects act within a session and all others leave it alone, the selected commands of a
list take the session where the whole list takes it. -/
theorem runCommands_filter {same : State → State → Prop} (hsymm : ∀ {s t}, same s t → same t s)
    (htrans : ∀ {s t u}, same s t → same t u → same s u) {own : Instr → Bool}
    (hown : ∀ i, own i = true → ActsWithin same i) (hother : ∀ i, own i = false → LeavesAlone same i)
    (is : List Instr) {s s' : State} (h : same s s') :
    ∃ t t', runCommands is s = .next t ∧ runCommands (is.filter own) s' = .next t' ∧ same t t' := by
  induction is generalizing s s' with
  | nil => exact ⟨s, s', rfl, rfl, h⟩
  | cons i is ih =>
    cases hi : own i with
    | true =>
      obtain ⟨t, t', hexec, hexec', hsame⟩ := hown i hi s s' h
      rw [List.filter_cons_of_pos hi, runCommands_cons is hexec, runCommands_cons _ hexec']
      exact ih hsame
    | false =>
      obtain ⟨t, hexec, hsame⟩ := hother i hi s
      rw [List.filter_cons_of_neg (by simp [hi]), runCommands_cons is hexec]
      exact ih (htrans (hsymm hsame) h)

theorem SameEncoder.symm {s t : State} (h : SameEncoder s t) : SameEncoder t s := by
  obtain ⟨hphase, hbase, hpts, hbytes, hobs⟩ := h
  exact ⟨hphase.symm, hbase.symm, hpts.symm, hbytes.symm, hobs.symm⟩

theorem SameDecoder.symm {s t : State} (h : SameDecoder s t) : SameDecoder t s := by
  obtain ⟨hphase, hk, hbuf, hfail, hbase, hpts, hbytes, hops⟩ := h
  exact ⟨hphase.symm, hk.symm, hbuf.symm, hfail.symm, hbase.symm, hpts.symm, hbytes.symm, hops.symm⟩

/-! ### Commands without a session, and those of the other session -/

/-- A command of neither session only answers (R100, R130, R210). -/
theorem exec_only_answers {i : Instr} (henc : isEncoderCommand i = false) (hdec : isDecoderCommand i = false)
    (s : State) : ∃ t st r, exec i s = .next t ∧ OnlyAnswers s t st r := by
  cases i with
  | qFromF32 _ | hFromF32 _ | qToF32 _ | hToF32 _ | qClass _ | hClass _ => exact ⟨_, _, _, rfl, s.complete_only _⟩
  | qEncNan _ | hEncNan _ | qDecNan _ | hDecNan _ | rdCsr _ =>
    simp only [exec, execQEncNan, execHEncNan, execQDecNan, execHDecNan, execRdCsr]
    split
    · exact ⟨_, _, _, rfl, s.complete_only _⟩
    · exact ⟨_, _, _, rfl, s.raise_only _⟩
  | encStart | encPoint _ _ _ | encEnd => cases henc
  | decStart | decByte _ | decEnd => cases hdec

/-- A command of the encoder session leaves the decoder session alone (R248). -/
theorem encoderCommand_leaves_decoder {i : Instr} (henc : isEncoderCommand i = true) : LeavesAlone SameDecoder i := by
  intro s
  cases i with
  | encStart => exact ⟨_, rfl, SameDecoder.refl s⟩
  | encPoint x y z =>
    simp only [exec, execEncPoint]
    split
    · exact ⟨_, rfl, SameDecoder.refl s⟩
    · exact ⟨_, rfl, SameDecoder.refl s⟩
    · exact ⟨_, rfl, emitPoint_sameDecoder _ _ s⟩
    · exact ⟨_, rfl, emitPoint_sameDecoder _ _ s⟩
  | encEnd =>
    simp only [exec, execEncEnd]
    split <;> exact ⟨_, rfl, SameDecoder.refl s⟩
  | _ => cases henc

theorem bodyByte_sameEncoder (need : Nat) (k : RecKind) (base : Point → Vector Byte 12 → Point) (b : Byte) (s : State) :
    SameEncoder s (bodyByte need k base b s) := by
  obtain ⟨-, h⟩ | ⟨-, h⟩ := bodyByte_cases need k base b s <;> rw [h] <;> exact SameEncoder.refl s

theorem tagByte_sameEncoder (b : Byte) (s : State) : SameEncoder s (tagByte b s) := by
  obtain ⟨-, h⟩ | ⟨-, h⟩ | ⟨-, h⟩ | ⟨c, -, -, -, h⟩ := tagByte_cases b s <;> rw [h] <;> exact SameEncoder.refl s

/-- A command of the decoder session leaves the encoder session alone (R248). -/
theorem decoderCommand_leaves_encoder {i : Instr} (hdec : isDecoderCommand i = true) : LeavesAlone SameEncoder i := by
  intro s
  cases i with
  | decStart => exact ⟨_, rfl, SameEncoder.refl s⟩
  | decByte b =>
    simp only [exec, execDecByte]
    split
    case h_1 | h_2 => exact ⟨_, rfl, SameEncoder.refl s⟩
    case h_4 => exact ⟨_, rfl, tagByte_sameEncoder b s.countByte⟩
    all_goals exact ⟨_, rfl, bodyByte_sameEncoder _ _ _ b s.countByte⟩
  | decEnd =>
    simp only [exec, execDecEnd]
    split
    case h_4 => split <;> exact ⟨_, rfl, SameEncoder.refl s⟩
    all_goals exact ⟨_, rfl, SameEncoder.refl s⟩
  | _ => cases hdec

/-! ### The commands of a session act within it -/

@[simp] theorem emitPoint_encNBytes (P : Point) (hdr : Bool) (s : State) :
    (emitPoint P hdr s).encNBytes = satAdd s.encNBytes
      ((if hdr then lePoint s.encBase else []) ++ (encodeRecord s.encBase P).bytes).length := rfl

theorem SameEncoder.emitPoint {s s' : State} (h : SameEncoder s s') (P : Point) (hdr : Bool) :
    SameEncoder (emitPoint P hdr s) (emitPoint P hdr s') := by
  obtain ⟨-, hbase, hpts, hbytes, hobs⟩ := h
  rw [SameEncoder, emitPoint_encPhase, emitPoint_encPhase, emitPoint_encBase, emitPoint_encBase, emitPoint_encNPts,
    emitPoint_encNPts, emitPoint_encNBytes, emitPoint_encNBytes, emitPoint_obs, emitPoint_obs, hbase, hpts,
    hbytes, hobs]
  exact ⟨rfl, rfl, rfl, rfl, rfl⟩

/-- A command of the encoder session reads no other state than the session (R150, R151, R164). -/
theorem encoderCommand_acts_within {i : Instr} (henc : isEncoderCommand i = true) : ActsWithin SameEncoder i := by
  intro s s' h
  have ⟨hphase, hbase, hpts, hbytes, hobs⟩ := h
  cases i with
  | encStart => exact ⟨_, _, rfl, rfl, rfl, rfl, rfl, rfl, hobs⟩
  | encPoint x y z =>
    simp only [exec, execEncPoint, hphase]
    cases hp : s.encPhase with
    | idle => exact ⟨_, _, rfl, rfl, hphase, hbase, hpts, hbytes, hobs⟩
    | empty => exact ⟨_, _, rfl, rfl, rfl, rfl, congrArg (satAdd · 1) hpts, hbytes, hobs⟩
    | held | run => exact ⟨_, _, rfl, rfl, h.emitPoint _ _⟩
  | encEnd =>
    simp only [exec, execEncEnd, hphase]
    cases hp : s.encPhase with
    | idle => exact ⟨_, _, rfl, rfl, hphase, hbase, hpts, hbytes, hobs⟩
    | empty | held | run => exact ⟨_, _, rfl, rfl, rfl, hbase, hpts, hbytes, hobs⟩
  | _ => cases henc

theorem SameDecoder.countByte {s s' : State} (h : SameDecoder s s') : SameDecoder s.countByte s'.countByte := by
  obtain ⟨hphase, hk, hbuf, hfail, hbase, hpts, hbytes, hops⟩ := h
  exact ⟨hphase, hk, hbuf, hfail, hbase, hpts, congrArg (satAdd · 1) hbytes, hops⟩

theorem SameDecoder.bodyByte {s s' : State} (h : SameDecoder s s') (need : Nat) (k : RecKind)
    (base : Point → Vector Byte 12 → Point) (b : Byte) :
    SameDecoder (bodyByte need k base b s) (bodyByte need k base b s') := by
  obtain ⟨hphase, hk, hbuf, hfail, hbase, hpts, hbytes, hops⟩ := h
  obtain ⟨hdone, hs⟩ | ⟨hmore, hs⟩ := bodyByte_cases need k base b s <;>
    obtain ⟨hdone', hs'⟩ | ⟨hmore', hs'⟩ := bodyByte_cases need k base b s' <;> rw [hs, hs']
  · refine ⟨rfl, rfl, ?_, hfail, ?_, congrArg (satAdd · 1) hpts, hbytes, ?_⟩ <;> simp [hbuf, hk, hbase, hops]
  · omega
  · omega
  · refine ⟨hphase, congrArg (· + 1) hk, ?_, hfail, hbase, hpts, hbytes, hops⟩
    simp [hbuf, hk]

theorem SameDecoder.tagByte {s s' : State} (h : SameDecoder s s') (b : Byte) :
    SameDecoder (tagByte b s) (tagByte b s') := by
  obtain ⟨hphase, hk, hbuf, hfail, hbase, hpts, hbytes, hops⟩ := h
  simp only [Machine.tagByte]
  split
  · exact ⟨rfl, rfl, congrArg (·.set 0 b) hbuf, hfail, hbase, hpts, hbytes, hops⟩
  · exact ⟨rfl, rfl, hbuf, hfail, hbase, hpts, hbytes, hops⟩
  · exact ⟨rfl, rfl, hbuf, hfail, hbase, hpts, hbytes, hops⟩
  · exact ⟨rfl, hk, hbuf, rfl, hbase, hpts, hbytes, hops⟩

/-- A command of the decoder session reads no other state than the session (R180, R181, R190). -/
theorem decoderCommand_acts_within {i : Instr} (hdec : isDecoderCommand i = true) : ActsWithin SameDecoder i := by
  intro s s' h
  have hcounted := h.countByte
  obtain ⟨hphase, hk, hbuf, hfail, hbase, hpts, hbytes, hops⟩ := h
  cases i with
  | decStart => exact ⟨_, _, rfl, rfl, rfl, rfl, rfl, rfl, rfl, rfl, rfl, hops⟩
  | decByte b =>
    simp only [exec, execDecByte, hphase]
    cases hp : s.decPhase with
    | idle => exact ⟨_, _, rfl, rfl, hphase, hk, hbuf, hfail, hbase, hpts, hbytes, hops⟩
    | failed => exact ⟨_, _, rfl, rfl, hcounted⟩
    | tag => exact ⟨_, _, rfl, rfl, hcounted.tagByte b⟩
    | base | qrec | hrec | arec => exact ⟨_, _, rfl, rfl, hcounted.bodyByte _ _ _ b⟩
  | decEnd =>
    simp only [exec, execDecEnd, hphase, hk]
    cases hp : s.decPhase with
    | idle => exact ⟨_, _, rfl, rfl, hphase, hk, hbuf, hfail, hbase, hpts, hbytes, hops⟩
    | failed | tag => exact ⟨_, _, rfl, rfl, rfl, rfl, hbuf, hfail, hbase, hpts, hbytes, hops⟩
    | base =>
      by_cases hboundary : s.decK = 0
      · simp only [hboundary, if_true]
        exact ⟨_, _, rfl, rfl, rfl, rfl, hbuf, hfail, hbase, hpts, hbytes, hops⟩
      · simp only [hboundary, if_false]
        exact ⟨_, _, rfl, rfl, rfl, rfl, hbuf, rfl, hbase, hpts, hbytes, hops⟩
    | qrec | hrec | arec => exact ⟨_, _, rfl, rfl, rfl, rfl, hbuf, rfl, hbase, hpts, hbytes, hops⟩
  | _ => cases hdec

/-- Settles O52: the commands of a session act within it, and all others leave it alone. -/
theorem sessionsAreIndependent : Obligations.SessionsAreIndependent := by
  constructor
  · intro is s s' h
    refine runCommands_filter (same := SameEncoder) SameEncoder.symm SameEncoder.trans
      (fun _ henc => encoderCommand_acts_within henc) (fun i henc => ?_) is h
    cases hdec : isDecoderCommand i with
    | true => exact decoderCommand_leaves_encoder hdec
    | false =>
      intro s
      obtain ⟨t, st, r, hexec, -, hsame, -⟩ := exec_only_answers henc hdec s
      exact ⟨t, hexec, hsame⟩
  · intro is s s' h
    refine runCommands_filter (same := SameDecoder) SameDecoder.symm SameDecoder.trans
      (fun _ hdec => decoderCommand_acts_within hdec) (fun i hdec => ?_) is h
    cases henc : isEncoderCommand i with
    | true => exact encoderCommand_leaves_decoder henc
    | false =>
      intro s
      obtain ⟨t, st, r, hexec, -, -, hsame, -⟩ := exec_only_answers henc hdec s
      exact ⟨t, hexec, hsame⟩

end Sys2Proof.Machine
end

section
/-! SUPPORT. The NaN channel as a pair of inverses between codes and NaN patterns (R133 to R137), for every format, and
its four commands (R140 to R143). -/

namespace Sys2Proof.Machine

/-! ### The number in the sign and the mantissa of a pattern -/

/-- The sign bit above the mantissa, `v` of `DecodeNaN` (R136). -/
def signMant (F : Format) (n : Nat) : Nat := narrowSign F n * 2 ^ F.M + narrowMant F n

/-- The pattern with exponent all ones that holds `v` in its sign and mantissa, as `EncodeNaN` packs it (R133). -/
def escapePattern (F : Format) (v : Nat) : Nat := narrowPack F (v / 2 ^ F.M) (allOnes F) (v % 2 ^ F.M)

section
variable {F : Format}

theorem signPart_lt {v : Nat} (hv : v < 2 ^ (F.M + 1)) : v / 2 ^ F.M < 2 :=
  Nat.div_lt_of_lt_mul (by rwa [← Nat.pow_succ])

theorem narrowBits_escapePattern (F : Format) (v : Nat) :
    narrowBits F (escapePattern F v) = allOnes F * 2 ^ F.M + v % 2 ^ F.M :=
  narrowBits_pack_of_lt _ le_rfl (Nat.mod_lt _ (Nat.two_pow_pos _))

theorem narrowSign_escapePattern {v : Nat} (hv : v < 2 ^ (F.M + 1)) :
    narrowSign F (escapePattern F v) = v / 2 ^ F.M := by
  rw [escapePattern, narrowSign_pack, Nat.mod_eq_of_lt (signPart_lt hv)]

theorem narrowExp_escapePattern (F : Format) (v : Nat) : narrowExp F (escapePattern F v) = allOnes F := by
  rw [narrowExp_eq, narrowBits_escapePattern, Nat.mul_comm, Nat.mul_add_div (Nat.two_pow_pos _),
    Nat.div_eq_of_lt (Nat.mod_lt _ (Nat.two_pow_pos _)), Nat.add_zero]

theorem narrowMant_escapePattern (F : Format) (v : Nat) : narrowMant F (escapePattern F v) = v % 2 ^ F.M := by
  rw [narrowMant_eq, narrowBits_escapePattern, Nat.mul_comm, Nat.mul_add_mod, Nat.mod_mod]

theorem escapePattern_lt (F : Format) (v : Nat) : escapePattern F v < 2 ^ formatWidth F := narrowPack_lt ..

/-- The pattern as a number: the infinity of the sign, and the mantissa above it (R133, R135). -/
theorem escapePattern_eq {v : Nat} (hv : v < 2 ^ (F.M + 1)) :
    escapePattern F v = v / 2 ^ F.M * 2 ^ (F.M + F.E) + (allOnes F * 2 ^ F.M + v % 2 ^ F.M) := by
  rw [← narrowSign_escapePattern hv, ← narrowBits_escapePattern]
  exact eq_sign_add_bits (escapePattern_lt F v)

/-- Packing a number and reading it back gives the number. -/
theorem signMant_escapePattern {v : Nat} (hv : v < 2 ^ (F.M + 1)) : signMant F (escapePattern F v) = v := by
  rw [signMant, narrowSign_escapePattern hv, narrowMant_escapePattern, Nat.div_add_mod']

theorem signMant_lt (F : Format) (n : Nat) : signMant F n < 2 ^ (F.M + 1) := by
  have hsign : narrowSign F n * 2 ^ F.M ≤ 1 * 2 ^ F.M :=
    Nat.mul_le_mul_right _ (Nat.le_of_lt_succ (narrowSign_lt F n))
  have hmant := narrowMant_lt F n
  rw [signMant, Nat.pow_succ]
  omega

/-- A NaN pattern has exponent all ones and a mantissa that is not 0 (R131). -/
theorem narrowIsNaN_iff (F : Format) (n : Nat) :
    narrowIsNaN F n = true ↔ narrowExp F n = allOnes F ∧ narrowMant F n ≠ 0 := by
  simp [narrowIsNaN]

/-- Reading the number of a pattern with exponent all ones and packing it again gives the pattern. -/
theorem escapePattern_signMant {n : Nat} (hn : n < 2 ^ formatWidth F) (hexp : narrowExp F n = allOnes F) :
    escapePattern F (signMant F n) = n := by
  have hsign : signMant F n / 2 ^ F.M = narrowSign F n := by
    rw [signMant, Nat.mul_comm, Nat.mul_add_div (Nat.two_pow_pos _), Nat.div_eq_of_lt (narrowMant_lt F n),
      Nat.add_zero]
  have hmant : signMant F n % 2 ^ F.M = narrowMant F n := by
    rw [signMant, Nat.mul_comm, Nat.mul_add_mod, Nat.mod_eq_of_lt (narrowMant_lt F n)]
  rw [escapePattern_eq (signMant_lt F n), hsign, hmant, Nat.mul_comm (allOnes F), Nat.add_comm _ (narrowMant F n),
    ← hexp, ← narrowBits_eq_fields]
  exact (eq_sign_add_bits hn).symm

/-! ### `EncodeNaN` and `DecodeNaN` by that number -/

/-- Every code that fits with its offset is packed (R133, R134). -/
theorem encodeNaN_of_lt {code : Nat} (hcode : code + 1 < 2 ^ (F.M + 1)) :
    encodeNaN F code = some (escapePattern F (code + 1)) := by
  have hfits := signPart_lt hcode
  rw [encodeNaN, Nat.shiftRight_eq_div_pow]
  exact if_neg (by omega)

theorem decodeNaN_of_nan {n : Nat} (hnan : narrowIsNaN F n = true) : decodeNaN F n = some (signMant F n - 1) :=
  if_pos hnan

/-- A pattern beyond an infinity decodes to its sign above its distance from that infinity, less the offset (R136). -/
theorem decodeNaN_above_inf {n : Nat} (h : allOnes F * 2 ^ F.M < narrowBits F n) :
    decodeNaN F n = some (narrowSign F n * 2 ^ F.M + (narrowBits F n - allOnes F * 2 ^ F.M) - 1) := by
  have hexp : narrowExp F n = allOnes F :=
    (narrowExp_le F n).antisymm (Nat.le_of_not_lt fun hlt => by rw [narrowExp_lt_iff] at hlt; omega)
  have hbits : narrowBits F n = narrowMant F n + allOnes F * 2 ^ F.M := by
    rw [narrowBits_eq_fields, hexp, Nat.mul_comm]
  have hnan : narrowIsNaN F n = true := (narrowIsNaN_iff F n).2 ⟨hexp, by omega⟩
  rw [decodeNaN_of_nan hnan, signMant, hbits, Nat.add_sub_cancel]

/-- The only number below `2^(M+1)` other than 0 whose mantissa part is 0 is `2^M`, the hole of R135. -/
theorem mantPart_ne_zero {v : Nat} (hv : v < 2 ^ (F.M + 1)) (hpos : v ≠ 0) (hhole : v ≠ 2 ^ F.M) :
    v % 2 ^ F.M ≠ 0 := by
  intro hzero
  have hsplit := Nat.div_add_mod' v (2 ^ F.M)
  obtain hsign | hsign := Nat.le_one_iff_eq_zero_or_eq_one.1 (Nat.le_of_lt_succ (signPart_lt hv))
  · rw [hsign, hzero] at hsplit
    omega
  · rw [hsign, hzero] at hsplit
    omega

/-- `DecodeNaN` undoes `EncodeNaN` on every code it accepts but the hole (R137). -/
theorem decodeNaN_encodeNaN {code : Nat} (hcode : code + 1 < 2 ^ (F.M + 1)) (hhole : code + 1 ≠ 2 ^ F.M) :
    decodeNaN F (escapePattern F (code + 1)) = some code := by
  have hnan : narrowIsNaN F (escapePattern F (code + 1)) = true := by
    rw [narrowIsNaN_iff, narrowMant_escapePattern]
    exact ⟨narrowExp_escapePattern F _, mantPart_ne_zero hcode (Nat.succ_ne_zero _) hhole⟩
  rw [decodeNaN_of_nan hnan, signMant_escapePattern hcode, Nat.add_sub_cancel]

/-- `EncodeNaN` undoes `DecodeNaN` on every NaN pattern (R137). -/
theorem encodeNaN_decodeNaN {n : Nat} (hn : n < 2 ^ formatWidth F) (hnan : narrowIsNaN F n = true) :
    encodeNaN F (signMant F n - 1) = some n := by
  obtain ⟨hexp, hmant⟩ := (narrowIsNaN_iff F n).1 hnan
  have hsucc : signMant F n - 1 + 1 = signMant F n := Nat.sub_add_cancel (by rw [signMant]; omega)
  rw [encodeNaN_of_lt (by rw [hsucc]; exact signMant_lt F n), hsucc, escapePattern_signMant hn hexp]

end

/-! ### The channel at the two widths -/

/-- The pattern of an accepted code is a Quarter pattern, unchanged by its 8-bit register (R133). -/
theorem qEncodeNaN_of_lt {code : Nat} (hcode : code < 63) :
    ∃ q : Byte, qEncodeNaN code = some q ∧ q.toNat = escapePattern Config.quarter (code + 1) := by
  refine ⟨BitVec.ofNat 8 _, congrArg _ (encodeNaN_of_lt (F := Config.quarter) (Nat.succ_lt_succ hcode)), ?_⟩
  exact (BitVec.toNat_ofNat ..).trans (Nat.mod_eq_of_lt (escapePattern_lt Config.quarter _))

/-- The pattern of an accepted code is a Half pattern, unchanged by its 16-bit register (R133). -/
theorem hEncodeNaN_of_lt {code : Nat} (hcode : code < 4095) :
    ∃ h : Half, hEncodeNaN code = some h ∧ h.toNat = escapePattern Config.half (code + 1) := by
  refine ⟨BitVec.ofNat 16 _, congrArg _ (encodeNaN_of_lt (F := Config.half) (Nat.succ_lt_succ hcode)), ?_⟩
  exact (BitVec.toNat_ofNat ..).trans (Nat.mod_eq_of_lt (escapePattern_lt Config.half _))

/-- Settles O24: the two round trips of the format, at the width of each. -/
theorem nanChannelRoundTrip : Obligations.NanChannelRoundTrip := by
  refine ⟨fun code hcode hhole => ?_, fun code hcode hhole => ?_, fun q hnan => ?_, fun h hnan => ?_⟩
  · obtain ⟨q, henc, hq⟩ := qEncodeNaN_of_lt hcode
    refine ⟨q, henc, ?_⟩
    rw [qDecodeNaN, hq]
    exact decodeNaN_encodeNaN (Nat.succ_lt_succ hcode) fun h => hhole (Nat.succ.inj h)
  · obtain ⟨h, henc, hh⟩ := hEncodeNaN_of_lt hcode
    refine ⟨h, henc, ?_⟩
    rw [hDecodeNaN, hh]
    exact decodeNaN_encodeNaN (Nat.succ_lt_succ hcode) fun h => hhole (Nat.succ.inj h)
  · refine ⟨_, decodeNaN_of_nan hnan, ?_⟩
    rw [qEncodeNaN, encodeNaN_decodeNaN q.isLt hnan, Option.map_some, BitVec.ofNat_toNat, BitVec.setWidth_eq]
  · refine ⟨_, decodeNaN_of_nan hnan, ?_⟩
    rw [hEncodeNaN, encodeNaN_decodeNaN h.isLt hnan, Option.map_some, BitVec.ofNat_toNat, BitVec.setWidth_eq]

/-! ### The four commands -/

section
variable (s : State)

theorem exec_qEncNan_of_some {code : BitVec 16} {q : Byte} (h : qEncodeNaN code.toNat = some q) :
    exec (.qEncNan code) s = .next (s.complete (q.setWidth 32)) := by
  simp only [exec, execQEncNan, h]

theorem exec_hEncNan_of_some {code : BitVec 16} {h : Half} (henc : hEncodeNaN code.toNat = some h) :
    exec (.hEncNan code) s = .next (s.complete (h.setWidth 32)) := by
  simp only [exec, execHEncNan, henc]

theorem exec_qDecNan_of_some {q : Byte} {c : Nat} (h : qDecodeNaN q = some c) :
    exec (.qDecNan q) s = .next (s.complete (BitVec.ofNat 32 c)) := by
  simp only [exec, execQDecNan, h]

theorem exec_hDecNan_of_some {h : Half} {c : Nat} (hdec : hDecodeNaN h = some c) :
    exec (.hDecNan h) s = .next (s.complete (BitVec.ofNat 32 c)) := by
  simp only [exec, execHDecNan, hdec]

end

/-- Settles O21: the result is `escapePattern` of `code + 1`, whose sign part is 1 from the hole on. -/
theorem encNanCommandsComplete : Obligations.EncNanCommandsComplete := by
  constructor
  · intro code s hcode
    obtain ⟨q, henc, hq⟩ := qEncodeNaN_of_lt hcode
    have hresult : (q.setWidth 32).toNat = (code.toNat + 1) / 32 * 0x80 + (0x60 + (code.toNat + 1) % 32) :=
      (BitVec.toNat_setWidth_of_le (by decide)).trans
        (hq.trans (escapePattern_eq (F := Config.quarter) (Nat.succ_lt_succ hcode)))
    refine ⟨_, exec_qEncNan_of_some s henc, s.complete_only _, ⟨q, henc, rfl⟩, fun hlow => ?_, fun hhigh => ?_⟩
    · exact hresult.trans (by omega)
    · exact hresult.trans (by omega)
  · intro code s hcode
    obtain ⟨h, henc, hh⟩ := hEncodeNaN_of_lt hcode
    have hresult :
        (h.setWidth 32).toNat = (code.toNat + 1) / 2048 * 0x8000 + (0x7800 + (code.toNat + 1) % 2048) :=
      (BitVec.toNat_setWidth_of_le (by decide)).trans
        (hh.trans (escapePattern_eq (F := Config.half) (Nat.succ_lt_succ hcode)))
    refine ⟨_, exec_hEncNan_of_some s henc, s.complete_only _, ⟨h, henc, rfl⟩, fun hlow => ?_, fun hhigh => ?_⟩
    · exact hresult.trans (by omega)
    · exact hresult.trans (by omega)

/-- The code of a Quarter NaN by its sign and its distance from the infinity (R136). -/
theorem qDecodeNaN_above_inf {q : Byte} (h : 0x60 < q.toNat % 0x80) :
    qDecodeNaN q = some (q.toNat / 0x80 * 32 + (q.toNat % 0x80 - 0x60) - 1) := by
  have hsign : narrowSign Config.quarter q.toNat = q.toNat / 0x80 := by
    have := q.isLt
    rw [narrowSign, Nat.shiftRight_eq_div_pow]
    exact Nat.mod_eq_of_lt (by simp only [Config.quarter]; omega)
  rw [← hsign]
  exact decodeNaN_above_inf (F := Config.quarter) h

/-- The code of a Half NaN by its sign and its distance from the infinity (R136). -/
theorem hDecodeNaN_above_inf {h : Half} (hbits : 0x7800 < h.toNat % 0x8000) :
    hDecodeNaN h = some (h.toNat / 0x8000 * 2048 + (h.toNat % 0x8000 - 0x7800) - 1) := by
  have hsign : narrowSign Config.half h.toNat = h.toNat / 0x8000 := by
    have := h.isLt
    rw [narrowSign, Nat.shiftRight_eq_div_pow]
    exact Nat.mod_eq_of_lt (by simp only [Config.half]; omega)
  rw [← hsign]
  exact decodeNaN_above_inf (F := Config.half) hbits

/-- Settles O22: the two ranges of NaN patterns are those of each sign beyond its infinity. -/
theorem decNanCommandsComplete : Obligations.DecNanCommandsComplete := by
  refine ⟨fun q s => ⟨fun hlow hhigh => ?_, fun hlow => ?_, fun c => exec_qDecNan_of_some s⟩,
    fun h s => ⟨fun hlow hhigh => ?_, fun hlow => ?_, fun c => exec_hDecNan_of_some s⟩, State.complete_only⟩
  · exact exec_qDecNan_of_some s ((qDecodeNaN_above_inf (by omega)).trans (congrArg some (by omega)))
  · have := q.isLt
    exact exec_qDecNan_of_some s ((qDecodeNaN_above_inf (by omega)).trans (congrArg some (by omega)))
  · exact exec_hDecNan_of_some s ((hDecodeNaN_above_inf (by omega)).trans (congrArg some (by omega)))
  · have := h.isLt
    exact exec_hDecNan_of_some s ((hDecodeNaN_above_inf (by omega)).trans (congrArg some (by omega)))

end Sys2Proof.Machine
end

section
/-! SUPPORT. The commands of the encoder session by its phase, and what each leaves (R150 to R152, R163, R164). -/

namespace Sys2Proof.Machine

/-- A normal end answers `OK` with its result (R230). -/
theorem State.complete_answers (s : State) (r : Word) : Answers s (s.complete r) 0#32 r :=
  statusOk_eq ▸ (s.complete_only r).1

section
variable {s : State}

/-! ### The three commands by phase -/

theorem exec_encPoint_of_empty (h : s.encPhase = .empty) (x y z : Word) :
    exec (.encPoint x y z) s = .next (holdPoint ⟨x, y, z⟩ s) := by
  simp only [exec, execEncPoint, h]

theorem exec_encPoint_of_held (h : s.encPhase = .held) (x y z : Word) :
    exec (.encPoint x y z) s = .next (emitPoint ⟨x, y, z⟩ true s) := by
  simp only [exec, execEncPoint, h]

theorem exec_encPoint_of_run (h : s.encPhase = .run) (x y z : Word) :
    exec (.encPoint x y z) s = .next (emitPoint ⟨x, y, z⟩ false s) := by
  simp only [exec, execEncPoint, h]

theorem exec_encEnd_of_open (h : s.encPhase ≠ .idle) :
    exec .encEnd s = .next (State.complete { s with encPhase := .idle } s.encNBytes) := by
  simp only [exec, execEncEnd]
  split
  next hidle => exact absurd hidle h
  all_goals rfl

end

/-- Settles O25: `ENC_START` reads nothing of the phase it is given. -/
theorem encStartOpensSession : Obligations.EncStartOpensSession := fun _ =>
  ⟨_, rfl, State.complete_answers _ _, SameDecoder.refl _, SamePort.refl _, rfl, rfl, rfl, rfl, rfl⟩

/-- Settles O27: in phase `EMPTY` the point is held. -/
theorem firstPointHeld : Obligations.FirstPointHeld := fun _ x y z hempty =>
  ⟨_, exec_encPoint_of_empty hempty x y z, State.complete_answers _ _, SameDecoder.refl _, SamePort.refl _, rfl, rfl,
    rfl, rfl, rfl⟩

/-- Settles O35: `ENC_END` of an open session writes only the phase and its answer. -/
theorem encEndReportsByteCount : Obligations.EncEndReportsByteCount := fun _ hopen =>
  ⟨_, exec_encEnd_of_open hopen, State.complete_answers _ _, SameDecoder.refl _, SamePort.refl _, rfl, rfl, rfl, rfl,
    rfl⟩

end Sys2Proof.Machine
end

section
/-! SUPPORT. A whole encoder session against the source's whole-list encoder (R165). -/

namespace Sys2Proof.Machine

/-! ### What the points of a session append -/

/-- The source tries the Quarter tier before elision, and each of its tests excludes the other's answer: one record
comes out of both orders (R153). -/
theorem sourceRecord_eq_encodeRecord (B P : Point) : sourceRecord B P = encodeRecord B P := by
  simp only [sourceRecord]
  obtain ⟨hz, h⟩ | ⟨hz, hq, h⟩ | ⟨hz, hq, hh, h⟩ | ⟨hz, hq, hh, h⟩ := encodeRecord_cases B P <;> rw [h]
  · simp [hz]
  · simp [hz, hq]
  · simp [hz, hq, hh]
  · simp [hz, hq, hh]

/-- From `s` to `t` the encoder session appended `bs` to `OBS` and counted them, and nothing of the decoder session or
the command port changed (R51, R151, R248). -/
structure Appended (s t : State) (bs : List Byte) : Prop where
  obs : t.obs = s.obs ++ bs
  count : t.encNBytes = satAdd s.encNBytes bs.length
  decoder : SameDecoder s t
  port : SamePort s t

theorem Appended.refl (s : State) : Appended s s [] :=
  ⟨(List.append_nil _).symm, (satAdd_zero _).symm, SameDecoder.refl s, SamePort.refl s⟩

theorem Appended.trans {s t u : State} {bs cs : List Byte} (h : Appended s t bs) (k : Appended t u cs) :
    Appended s u (bs ++ cs) where
  obs := by rw [k.obs, h.obs, List.append_assoc]
  count := by rw [k.count, h.count, satAdd_satAdd, List.length_append]
  decoder := h.decoder.trans k.decoder
  port := h.port.trans k.port

/-- The first point is held and appends nothing (R152). -/
theorem holdPoint_appended (P : Point) (s : State) : Appended s (holdPoint P s) [] :=
  ⟨(List.append_nil _).symm, (satAdd_zero _).symm, SameDecoder.refl s, SamePort.refl s⟩

/-- A later point appends its record, after the header when that is due (R151, R163). -/
theorem emitPoint_appended (P : Point) (hdr : Bool) (s : State) :
    Appended s (emitPoint P hdr s) ((if hdr then lePoint s.encBase else []) ++ (encodeRecord s.encBase P).bytes) :=
  ⟨emitPoint_obs P hdr s, emitPoint_encNBytes P hdr s, emitPoint_sameDecoder P hdr s, SamePort.refl s⟩

/-! ### Lists of points -/

theorem runCommands_append {is : List Instr} (js : List Instr) {s t : State} (h : runCommands is s = .next t) :
    runCommands (is ++ js) s = runCommands js t := by
  induction is generalizing s with
  | nil =>
    obtain rfl : s = t := Host.Outcome.next.inj h
    rfl
  | cons i is ih =>
    rw [List.cons_append]
    simp only [runCommands] at h ⊢
    split at h
    · exact ih h
    · cases h
    · cases h

/-- In phase `RUN` each point of a list appends its record against the baseline the points before it left. -/
theorem runCommands_points_of_run (ps : List Point) {s : State} (hrun : s.encPhase = .run) :
    ∃ t, runCommands (ps.map pointCommand) s = .next t ∧ t.encPhase = .run ∧
      Appended s t (sourceRecords s.encBase ps) := by
  induction ps generalizing s with
  | nil => exact ⟨s, rfl, hrun, .refl s⟩
  | cons P ps ih =>
    obtain ⟨t, hruns, hphase, happ⟩ := ih (emitPoint_encPhase P false s)
    refine ⟨t, (runCommands_cons _ (exec_encPoint_of_run hrun P.x P.y P.z)).trans hruns, hphase, ?_⟩
    have hstep : Appended s (emitPoint P false s) (encodeRecord s.encBase P).bytes := emitPoint_appended P false s
    simpa only [sourceRecords, sourceRecord_eq_encodeRecord, emitPoint_encBase] using hstep.trans happ

/-- The second point appends the header of the held point, and from there on every point its record (R163). -/
theorem runCommands_points_of_held (P : Point) (ps : List Point) {s : State} (hheld : s.encPhase = .held) :
    ∃ t, runCommands ((P :: ps).map pointCommand) s = .next t ∧ t.encPhase = .run ∧
      Appended s t (lePoint s.encBase ++ sourceRecords s.encBase (P :: ps)) := by
  obtain ⟨t, hruns, hphase, happ⟩ := runCommands_points_of_run ps (emitPoint_encPhase P true s)
  refine ⟨t, (runCommands_cons _ (exec_encPoint_of_held hheld P.x P.y P.z)).trans hruns, hphase, ?_⟩
  have hstep : Appended s (emitPoint P true s) (lePoint s.encBase ++ (encodeRecord s.encBase P).bytes) :=
    emitPoint_appended P true s
  simpa only [sourceRecords, sourceRecord_eq_encodeRecord, emitPoint_encBase, List.append_assoc]
    using hstep.trans happ

/-- The points of a fresh session append the source encoder's output: nothing while only one is held (R152, R165). -/
theorem runCommands_points_of_empty (ps : List Point) {s : State} (hempty : s.encPhase = .empty) :
    ∃ t, runCommands (ps.map pointCommand) s = .next t ∧ t.encPhase ≠ .idle ∧ Appended s t (sourceEncode ps) := by
  match ps with
  | [] => exact ⟨s, rfl, by simp [hempty], .refl s⟩
  | [P] =>
    exact ⟨_, runCommands_cons [] (exec_encPoint_of_empty hempty P.x P.y P.z), nofun, holdPoint_appended P s⟩
  | P :: Q :: ps =>
    obtain ⟨t, hruns, hphase, happ⟩ := runCommands_points_of_held Q ps (s := holdPoint P s) rfl
    refine ⟨t, (runCommands_cons _ (exec_encPoint_of_empty hempty P.x P.y P.z)).trans hruns, by simp [hphase], ?_⟩
    exact (holdPoint_appended P s).trans happ

/-- Settles O36: between `ENC_START` and `ENC_END` the points append the source's output, whose length is counted from
0. -/
theorem encoderSessionMatchesSource : Obligations.EncoderSessionMatchesSource := by
  intro s ps
  obtain ⟨t, hstart, -, hdec, hport, hempty, -, -, hzero, hobs⟩ := encStartOpensSession s
  obtain ⟨u, hpoints, hopen, happ⟩ := runCommands_points_of_empty ps hempty
  obtain ⟨v, hend, ⟨hstatus, hresult, -⟩, hdec', hport', hidle, -, -, -, hobs'⟩ := encEndReportsByteCount u hopen
  have hruns : runCommands (expandPseudo (.encode ps)) s = .next v := by
    rw [expandPseudo, List.append_assoc, List.singleton_append, runCommands_cons _ hstart,
      runCommands_append _ hpoints, runCommands_cons _ hend, runCommands]
  refine ⟨v, hruns, ?_, hstatus, ?_, hidle, hdec.trans (happ.decoder.trans hdec'),
    hport.trans (happ.port.trans hport')⟩
  · rw [hobs', happ.obs, hobs]
  · rw [hresult, happ.count, hzero, satAdd, BitVec.toNat_zero, Nat.zero_add]

end Sys2Proof.Machine
end

section
/-! SUPPORT. The tier of a point by the bits of its deltas, and what a point of each tier does (R153 to R163, R168). -/

namespace Sys2Proof.Machine

/-! ### The infinities and the NaNs of a narrow format -/

section
variable {F : Format}

/-- The infinities of a format are the two patterns that end the finite ones (R74, R131). -/
theorem narrowIsInf_iff (F : Format) (n : Nat) : narrowIsInf F n = true ↔ narrowBits F n = allOnes F * 2 ^ F.M := by
  have hmant := narrowMant_lt F n
  have hexp := narrowExp_le F n
  rw [narrowIsInf, Bool.and_eq_true, beq_iff_eq, beq_iff_eq, narrowBits_eq_fields]
  constructor
  · rintro ⟨he, hm⟩
    rw [he, hm, Nat.zero_add, Nat.mul_comm]
  · intro h
    have he : narrowExp F n = allOnes F := by
      refine hexp.antisymm (Nat.le_of_lt_succ (Nat.lt_of_mul_lt_mul_left (a := 2 ^ F.M) ?_))
      rw [Nat.mul_succ, Nat.mul_comm _ (allOnes F)]
      omega
    rw [he, Nat.mul_comm (2 ^ F.M)] at h
    exact ⟨he, by omega⟩

/-- `FromFloat` answers an infinity for exactly the operands that overflow, infinities with them (R106). -/
theorem narrowIsInf_fromFloat_iff (hF : RoundsF32 F) (hnan : F.nanMant ≠ 0) (a : Word) :
    narrowIsInf F (fromFloat F .truncateAfterRound a) = true ↔
      overflowsFrom F ≤ f32Bits a ∧ f32Bits a ≤ 255 * 2 ^ 23 := by
  obtain ⟨-, hbits⟩ := fromFloat_sign_bits hF a
  obtain ⟨hisNan, hinf, -, -⟩ := fromFloatBits_classes hF (f32Bits a)
  rw [narrowIsInf_iff, hbits]
  refine ⟨fun h => ?_, fun ⟨hlow, hhigh⟩ => hinf hlow hhigh⟩
  constructor
  · by_contra hlow
    exact (fromFloatBits_lt_inf hF ((roundedBits_lt_iff_roundsTo hF _ _).2 (Nat.not_le.1 hlow))).ne h
  · by_contra hhigh
    have := hisNan (Nat.not_le.1 hhigh)
    omega

end

/-- A Quarter infinity is the one of either sign (R74). -/
theorem qIsInf_iff (q : Byte) : qIsInf q = true ↔ q = 0x60#8 ∨ q = 0xE0#8 := by
  have hlt := q.isLt
  have hbits : narrowBits Config.quarter q.toNat = q.toNat % 0x80 := rfl
  rw [qIsInf, narrowIsInf_iff, hbits, ← BitVec.toNat_inj, ← BitVec.toNat_inj]
  change q.toNat % 0x80 = 0x60 ↔ q.toNat = 0x60 ∨ q.toNat = 0xE0
  omega

/-- A Half infinity is the one of either sign (R74). -/
theorem hIsInf_iff (h : Half) : hIsInf h = true ↔ h = 0x7800#16 ∨ h = 0xF800#16 := by
  have hlt := h.isLt
  have hbits : narrowBits Config.half h.toNat = h.toNat % 0x8000 := rfl
  rw [hIsInf, narrowIsInf_iff, hbits, ← BitVec.toNat_inj, ← BitVec.toNat_inj]
  change h.toNat % 0x8000 = 0x7800 ↔ h.toNat = 0x7800 ∨ h.toNat = 0xF800
  omega

/-- The deltas whose Quarter overflows, from 3.96875 up to the infinity (R155). -/
theorem qIsInf_qFromFloat_iff (a : Word) :
    qIsInf (qFromFloat a) = true ↔ 0x407E0000 ≤ f32Bits a ∧ f32Bits a ≤ 0x7F800000 := by
  rw [qIsInf, qFromFloat_toNat]
  exact narrowIsInf_fromFloat_iff quarter_roundsF32 (by decide) a

/-- The deltas whose Half overflows, from 255.96875 up to the infinity (R156). -/
theorem hIsInf_hFromFloat_iff (a : Word) :
    hIsInf (hFromFloat a) = true ↔ 0x437FF800 ≤ f32Bits a ∧ f32Bits a ≤ 0x7F800000 := by
  rw [hIsInf, hFromFloat_toNat]
  exact narrowIsInf_fromFloat_iff half_roundsF32 (by decide) a

/-! ### The three tests of `EncodeRecord` -/

theorem deltaZero_iff (d : Point) :
    deltaZero d = true ↔ f32Bits d.x = 0 ∧ f32Bits d.y = 0 ∧ f32Bits d.z = 0 := by
  have hzero (a : Word) : f32IsZero a = true ↔ f32Bits a = 0 := by
    rw [f32IsZero, beq_iff_eq, ← BitVec.toNat_inj]
    rfl
  rw [deltaZero, Bool.and_eq_true, Bool.and_eq_true, hzero, hzero, hzero, and_assoc]

theorem quarterOverflows_iff (d : Point) :
    quarterOverflows d = true ↔ ∃ q ∈ [qFromFloat d.x, qFromFloat d.y, qFromFloat d.z], q = 0x60#8 ∨ q = 0xE0#8 := by
  simp [quarterOverflows, ← qIsInf_iff, or_assoc]

theorem halfOverflows_iff (d : Point) :
    halfOverflows d = true ↔
      ∃ h ∈ [hFromFloat d.x, hFromFloat d.y, hFromFloat d.z], h = 0x7800#16 ∨ h = 0xF800#16 := by
  simp [halfOverflows, ← hIsInf_iff, or_assoc]

theorem quarterOverflows_iff_bits (d : Point) :
    quarterOverflows d = true ↔
      ∃ m ∈ [f32Bits d.x, f32Bits d.y, f32Bits d.z], 0x407E0000 ≤ m ∧ m ≤ 0x7F800000 := by
  simp [quarterOverflows, qIsInf_qFromFloat_iff, or_assoc]

theorem halfOverflows_iff_bits (d : Point) :
    halfOverflows d = true ↔
      ∃ m ∈ [f32Bits d.x, f32Bits d.y, f32Bits d.z], 0x437FF800 ≤ m ∧ m ≤ 0x7F800000 := by
  simp [halfOverflows, hIsInf_hFromFloat_iff, or_assoc]

/-- What overflows Half overflows Quarter (R155, R156). -/
theorem quarterOverflows_of_halfOverflows {d : Point} (h : halfOverflows d = true) : quarterOverflows d = true := by
  obtain ⟨m, hm, hlow, hhigh⟩ := (halfOverflows_iff_bits d).1 h
  exact (quarterOverflows_iff_bits d).2 ⟨m, hm, by omega, hhigh⟩

/-- A delta that overflows is not zero (R154, R155). -/
theorem deltaZero_of_quarterOverflows {d : Point} (h : quarterOverflows d = true) : deltaZero d = false := by
  obtain ⟨m, hm, hlow, -⟩ := (quarterOverflows_iff_bits d).1 h
  refine Bool.eq_false_iff.2 fun hz => ?_
  obtain ⟨hx, hy, hz⟩ := (deltaZero_iff d).1 hz
  simp only [hx, hy, hz, List.mem_cons, List.not_mem_nil, or_false, or_self] at hm
  omega

/-! ### The record of each tier -/

section
variable {B P : Point}

theorem encodeRecord_of_elided (hz : deltaZero (pointDelta B P) = true) : encodeRecord B P = ⟨.elided, [], B⟩ := by
  simp [encodeRecord, hz]

theorem encodeRecord_of_quarter (hz : deltaZero (pointDelta B P) = false)
    (hq : quarterOverflows (pointDelta B P) = false) :
    encodeRecord B P = ⟨.quarter, quarterRecord (pointDelta B P), quarterAdvance B (pointDelta B P)⟩ := by
  simp [encodeRecord, hz, hq]

theorem encodeRecord_of_half (hq : quarterOverflows (pointDelta B P) = true)
    (hh : halfOverflows (pointDelta B P) = false) :
    encodeRecord B P = ⟨.half, halfRecord (pointDelta B P), halfAdvance B (pointDelta B P)⟩ := by
  simp [encodeRecord, deltaZero_of_quarterOverflows hq, hq, hh]

theorem encodeRecord_of_absolute (hh : halfOverflows (pointDelta B P) = true) :
    encodeRecord B P = ⟨.absolute, absoluteRecord P, P⟩ := by
  have hq := quarterOverflows_of_halfOverflows hh
  simp [encodeRecord, deltaZero_of_quarterOverflows hq, hq, hh]

end

/-- The largest magnitude of the three deltas, as bits (R155). -/
def deltaTop (d : Point) : Nat := max (f32Bits d.x) (max (f32Bits d.y) (f32Bits d.z))

theorem deltaTop_eq_zero_iff (d : Point) : deltaTop d = 0 ↔ deltaZero d = true := by
  rw [deltaZero_iff, deltaTop]
  omega

/-- Without a NaN, some of the three bits reach a bound exactly when the largest do. -/
theorem exists_bits_iff_deltaTop {d : Point} (hnan : deltaTop d ≤ 0x7F800000) (bound : Nat) :
    (∃ m ∈ [f32Bits d.x, f32Bits d.y, f32Bits d.z], bound ≤ m ∧ m ≤ 0x7F800000) ↔ bound ≤ deltaTop d := by
  rw [deltaTop] at hnan ⊢
  simp only [List.mem_cons, List.not_mem_nil, or_false, exists_eq_or_imp, exists_eq_left]
  omega

/-- Settles O34: each test of `EncodeRecord` compares the largest magnitude with its bound. -/
theorem tierByDeltaMagnitude : Obligations.TierByDeltaMagnitude := by
  intro B P m d top hnan
  have hzero : top = 0 ↔ deltaZero d = true := deltaTop_eq_zero_iff d
  have hquarter := (quarterOverflows_iff_bits d).trans (exists_bits_iff_deltaTop hnan _)
  have hhalf := (halfOverflows_iff_bits d).trans (exists_bits_iff_deltaTop hnan _)
  change _ ↔ _ ≤ top at hquarter hhalf
  obtain ⟨hz, h⟩ | ⟨hz, hq, h⟩ | ⟨hz, hq, hh, h⟩ | ⟨hz, hq, hh, h⟩ := encodeRecord_cases B P <;> rw [h]
  · rw [if_pos (hzero.2 hz)]
  · rw [if_neg (by simp [hzero, d, hz]), if_pos (by simp [← Nat.not_le, ← hquarter, d, hq])]
  · rw [if_neg (by simp [hzero, d, hz]), if_neg (Nat.not_lt.2 (hquarter.1 hq)),
      if_pos (by simp [← Nat.not_le, ← hhalf, d, hh])]
  · rw [if_neg (by simp [hzero, d, hz]), if_neg (Nat.not_lt.2 (hquarter.1 hq)), if_neg (Nat.not_lt.2 (hhalf.1 hh))]

/-! ### A point of each tier -/

theorem emitPoint_answers (P : Point) (hdr : Bool) (s : State) :
    Answers s (emitPoint P hdr s) 0#32
      (pointResult ((if hdr then lePoint s.encBase else []) ++ (encodeRecord s.encBase P).bytes).length hdr
        (encodeRecord s.encBase P).tier) :=
  State.complete_answers _ _

/-- In phase `RUN` a point does what its record says; `n` is the record's length and `w` the result word (R151). -/
theorem encPoint_of_record {s : State} (hrun : s.encPhase = .run) {x y z : Word} {tier : Tier}
    {bytes : List Byte} {base : Point} (hrec : encodeRecord s.encBase ⟨x, y, z⟩ = ⟨tier, bytes, base⟩)
    (n : Nat) (w : Word) (hlen : bytes.length = n) (hresult : pointResult n false tier = w) :
    ∃ t, exec (.encPoint x y z) s = .next t ∧ Answers s t 0#32 w ∧ SameDecoder s t ∧ SamePort s t ∧
      t.encPhase = .run ∧ t.encNPts = satAdd s.encNPts 1 ∧ t.encNBytes = satAdd s.encNBytes n ∧
      t.obs = s.obs ++ bytes ∧ t.encBase = base := by
  subst hlen hresult
  have hans := emitPoint_answers ⟨x, y, z⟩ false s
  have hcount := emitPoint_encNBytes ⟨x, y, z⟩ false s
  have hobs := emitPoint_obs ⟨x, y, z⟩ false s
  have hbase := emitPoint_encBase ⟨x, y, z⟩ false s
  rw [hrec] at hans hcount hobs hbase
  exact ⟨_, exec_encPoint_of_run hrun x y z, hans, emitPoint_sameDecoder _ _ s, SamePort.refl s, rfl, rfl, hcount,
    hobs, hbase⟩

/-- Settles O28: an empty record against the baseline it leaves. -/
theorem encPointElided : Obligations.EncPointElided := by
  intro s x y z hrun hx hy hz
  have hzero : deltaZero (pointDelta s.encBase ⟨x, y, z⟩) = true :=
    (deltaZero_iff _).2 ⟨congrArg BitVec.toNat hx, congrArg BitVec.toNat hy, congrArg BitVec.toNat hz⟩
  obtain ⟨t, hexec, hans, hdec, hport, hphase, hpts, hbytes, hobs, hbase⟩ :=
    encPoint_of_record hrun (encodeRecord_of_elided hzero) 0 0x001#32 rfl (by decide)
  exact ⟨t, hexec, hans, hdec, hport, hphase, hbase, hpts, hbytes.trans (satAdd_zero _),
    hobs.trans (List.append_nil _)⟩

/-- Settles O29: no test of `EncodeRecord` before the Quarter tier holds. -/
theorem encPointQuarterTier : Obligations.EncPointQuarterTier := by
  intro s x y z hrun d q0 q1 q2 hnonzero hfin
  have hz : deltaZero d = false := by
    refine Bool.eq_false_iff.2 fun hz => ?_
    obtain ⟨hx, hy, hz⟩ := (deltaZero_iff d).1 hz
    exact hnonzero.elim (· (BitVec.eq_of_toNat_eq hx))
      (·.elim (· (BitVec.eq_of_toNat_eq hy)) (· (BitVec.eq_of_toNat_eq hz)))
  have hq : quarterOverflows d = false := by
    refine Bool.eq_false_iff.2 fun hq => ?_
    obtain ⟨q, hmem, hinf⟩ := (quarterOverflows_iff d).1 hq
    exact hinf.elim (hfin q hmem).1 (hfin q hmem).2
  exact encPoint_of_record hrun (encodeRecord_of_quarter hz hq) 3 0x302#32 rfl (by decide)

/-- Settles O30: the Quarter tier overflows, the Half tier does not. -/
theorem encPointHalfTier : Obligations.EncPointHalfTier := by
  intro s x y z hrun d h0 h1 h2 hover hfin
  have hh : halfOverflows d = false := by
    refine Bool.eq_false_iff.2 fun hh => ?_
    obtain ⟨h, hmem, hinf⟩ := (halfOverflows_iff d).1 hh
    exact hinf.elim (hfin h hmem).1 (hfin h hmem).2
  exact encPoint_of_record hrun (encodeRecord_of_half ((quarterOverflows_iff d).2 hover) hh) 7 0x703#32 rfl (by decide)

/-- Settles O31: the Half tier overflows. -/
theorem encPointAbsoluteTier : Obligations.EncPointAbsoluteTier := by
  intro s x y z hrun hover
  obtain ⟨t, hexec, hans, hdec, hport, hphase, hpts, hbytes, hobs, hbase⟩ :=
    encPoint_of_record hrun (encodeRecord_of_absolute ((halfOverflows_iff _).2 hover)) 13 0xD04#32 rfl (by decide)
  exact ⟨t, hexec, hans, hdec, hport, hphase, hpts, hbytes, hbase, by
    rw [hobs, List.append_assoc]
    rfl⟩

/-! ### Results and byte counts -/

/-- The tiers with the lengths of their records (R60, R157 to R160). -/
def tierLengths : List (Tier × Nat) := [(.elided, 0), (.quarter, 3), (.half, 7), (.absolute, 13)]

theorem encodeRecord_tier_length (B P : Point) :
    ((encodeRecord B P).tier, (encodeRecord B P).bytes.length) ∈ tierLengths := by
  obtain ⟨-, h⟩ | ⟨-, -, h⟩ | ⟨-, -, -, h⟩ | ⟨-, -, -, h⟩ := encodeRecord_cases B P <;> rw [h]
  · exact .head _
  · exact .tail _ (.head _)
  · exact .tail _ (.tail _ (.head _))
  · exact .tail _ (.tail _ (.tail _ (.head _)))

theorem header_append_length (B : Point) (bs : List Byte) : (lePoint B ++ bs).length = 12 + bs.length :=
  List.length_append

/-- The header adds its flag and its 12 bytes to a result (R162, R163). -/
theorem pointResult_header :
    ∀ p ∈ tierLengths, pointResult (12 + p.2) true p.1 = pointResult p.2 false p.1 + 0xC08#32 := by
  decide

/-- Settles O32: both phases append the same record, and the header comes before it in phase `HELD`. -/
theorem secondPointEmitsHeader : Obligations.SecondPointEmitsHeader := by
  intro s x y z hheld
  have hlen := encodeRecord_length s.encBase ⟨x, y, z⟩
  have hresult := pointResult_header _ (encodeRecord_tier_length s.encBase ⟨x, y, z⟩)
  refine ⟨_, _, (encodeRecord s.encBase ⟨x, y, z⟩).bytes, exec_encPoint_of_held hheld x y z,
    exec_encPoint_of_run rfl x y z, rfl, hlen, ?_, ?_, rfl, rfl, rfl, ?_, emitPoint_sameDecoder _ _ s, SamePort.refl s⟩
  · rw [emitPoint_obs, List.append_assoc]
    rfl
  · have hans := emitPoint_answers ⟨x, y, z⟩ true s
    rw [if_pos rfl, header_append_length, hresult] at hans
    exact hans
  · rw [emitPoint_encNBytes, if_pos rfl, header_append_length]

/-- The rows of R168 for a record without and with the header before it. -/
theorem pointResult_rows :
    ∀ p ∈ tierLengths,
      ((pointResult p.2 false p.1).toNat, p.2) ∈ [(0x0001, 0), (0x0302, 3), (0x0703, 7), (0x0D04, 13)] ∧
      ((pointResult (12 + p.2) true p.1).toNat, 12 + p.2) ∈
        [(0x0C09, 12), (0x0F0A, 15), (0x130B, 19), (0x190C, 25)] := by
  decide

/-- Settles O33: the rows are those of the record's tier, by the phase before. -/
theorem encPointResultTable : Obligations.EncPointResultTable := by
  intro s x y z hopen
  obtain ⟨hrow, hrowHeader⟩ := pointResult_rows _ (encodeRecord_tier_length s.encBase ⟨x, y, z⟩)
  cases hphase : s.encPhase with
  | idle => exact absurd hphase hopen
  | empty =>
    exact ⟨_, [], exec_encPoint_of_empty hphase x y z, (List.append_nil _).symm, statusOk_eq, .head _⟩
  | held =>
    rw [← header_append_length s.encBase] at hrowHeader
    exact ⟨_, _, exec_encPoint_of_held hphase x y z, emitPoint_obs _ _ s, statusOk_eq, hrowHeader⟩
  | run => exact ⟨_, _, exec_encPoint_of_run hphase x y z, emitPoint_obs _ _ s, statusOk_eq, hrow⟩

end Sys2Proof.Machine
end

section
/-! SUPPORT. A decoder that is given the bytes of one record, and the baselines of the two sessions (R161, R181, R186 to
R188). -/

namespace Sys2Proof.Machine

/-! ### The bytes of a record body -/

/-- `DEC_BUF` after bytes are collected one by one from index `k` on (R181). -/
def fillBuf (buf : Vector Byte 12) (k : Nat) : List Byte → Vector Byte 12
  | [] => buf
  | b :: bs => fillBuf (buf.setIfInBounds k b) (k + 1) bs

/-- A filled buffer holds the collected bytes where they reach, and its old ones elsewhere. -/
theorem fillBuf_getElem (bs : List Byte) (buf : Vector Byte 12) (k i : Nat) (hi : i < 12) :
    (fillBuf buf k bs)[i] = if k ≤ i then bs[i - k]?.getD buf[i] else buf[i] := by
  induction bs generalizing buf k with
  | nil => simp [fillBuf]
  | cons b bs ih =>
    rw [fillBuf, ih, Vector.getElem_setIfInBounds]
    obtain hlt | rfl | hgt := Nat.lt_trichotomy k i
    · have hindex : i - k = i - (k + 1) + 1 := by omega
      rw [if_pos (Nat.succ_le_of_lt hlt), if_neg hlt.ne, if_pos hlt.le, hindex, List.getElem?_cons_succ]
    · simp
    · rw [if_neg (by omega), if_neg hgt.ne', if_neg (by omega)]

/-- The bytes `bs` take the decoder from a state to the record boundary after it, with `B` appended and its new
baseline, and touch nothing of the encoder session (R181, R248). -/
def ReadsRecord (s : State) (bs : List Byte) (B : Point) : Prop :=
  ∃ u, runCommands (bs.map .decByte) s = .next u ∧ u.decPhase = .tag ∧ u.decBase = B ∧ u.ops = s.ops ++ [B] ∧
    u.decFail = s.decFail ∧ SameEncoder s u

/-- A byte that changes neither what was appended nor the failure nor the encoder session, before the rest of the
record. -/
theorem ReadsRecord.cons {s t : State} {b : Byte} {bs : List Byte} {B : Point} (hexec : exec (.decByte b) s = .next t)
    (hops : t.ops = s.ops) (hfail : t.decFail = s.decFail) (henc : SameEncoder s t) (h : ReadsRecord t bs B) :
    ReadsRecord s (b :: bs) B := by
  obtain ⟨u, hruns, hphase, hbase, hops', hfail', henc'⟩ := h
  exact ⟨u, (runCommands_cons _ hexec).trans hruns, hphase, hbase, hops'.trans (congrArg (· ++ [B]) hops),
    hfail'.trans hfail, henc.trans henc'⟩

/-- In phase `p` the bytes are those of a record body of `need` bytes (R181). -/
def BodyPhase (p : DecPhase) (need : Nat) (kind : RecKind) (base : Point → Vector Byte 12 → Point) : Prop :=
  ∀ b s, s.decPhase = p → exec (.decByte b) s = .next (bodyByte need kind base b s.countByte)

theorem bodyPhase_qrec : BodyPhase .qrec 3 .quarter (fun B buf => pointZip f32Add B (bufQuarters buf)) :=
  fun b s hp => by simp only [exec, execDecByte, hp]

theorem bodyPhase_hrec : BodyPhase .hrec 6 .half (fun B buf => pointZip f32Add B (bufHalves buf)) :=
  fun b s hp => by simp only [exec, execDecByte, hp]

theorem bodyPhase_arec : BodyPhase .arec 12 .absolute (fun _ buf => bufPoint buf) :=
  fun b s hp => by simp only [exec, execDecByte, hp]

section
variable {p : DecPhase} {need : Nat} {kind : RecKind} {base : Point → Vector Byte 12 → Point} {s : State}

/-- The bytes that are missing from a record body complete the record. -/
theorem BodyPhase.readsRecord (hbody : BodyPhase p need kind base) (bs : List Byte) (hp : s.decPhase = p)
    (hne : bs ≠ []) (hk : s.decK + bs.length = need) :
    ReadsRecord s bs (base s.decBase (fillBuf s.decBuf s.decK bs)) := by
  induction bs generalizing s with
  | nil => exact absurd rfl hne
  | cons b bs ih =>
    rw [List.length_cons] at hk
    obtain ⟨hlast, hb⟩ | ⟨hmore, hb⟩ := bodyByte_cases need kind base b s.countByte
    · rw [State.countByte_decK] at hlast
      obtain rfl : bs = [] := List.eq_nil_of_length_eq_zero (by omega)
      exact ⟨_, runCommands_cons [] ((hbody b s hp).trans (congrArg _ hb)), rfl, rfl, rfl, rfl, SameEncoder.refl s⟩
    · rw [State.countByte_decK] at hmore
      have hrest : bs ≠ [] := fun hnil => hmore (by simpa [hnil] using hk)
      refine .cons ((hbody b s hp).trans (congrArg _ hb)) rfl rfl (SameEncoder.refl s) ?_
      exact ih (s := (s.countByte.collect b).complete _) hp hrest (show s.decK + 1 + bs.length = need by omega)

/-- A tag byte that opens a record body, and the bytes of that body. -/
theorem BodyPhase.readsRecord_of_tag (hbody : BodyPhase p need kind base) (hp : s.decPhase = .tag) {b : Byte}
    {buf : Vector Byte 12} {k : Nat}
    (htag : tagByte b s.countByte =
      State.complete { s.countByte with decBuf := buf, decK := k, decPhase := p } (byteResult .none))
    (bs : List Byte) (hne : bs ≠ []) (hk : k + bs.length = need) :
    ReadsRecord s (b :: bs) (base s.decBase (fillBuf buf k bs)) := by
  have hexec : exec (.decByte b) s = .next (tagByte b s.countByte) := by simp only [exec, execDecByte, hp]
  exact .cons (hexec.trans (congrArg _ htag)) rfl rfl (SameEncoder.refl s) (hbody.readsRecord bs rfl hne hk)

end

/-! ### The three records -/

section
variable {s : State}

/-- Three bytes of which the first is not a NaN are a Quarter record (R184, R186). -/
theorem readsRecord_quarter (hp : s.decPhase = .tag) {q0 : Byte} (q1 q2 : Byte) (hnan : qDecodeNaN q0 = none) :
    ReadsRecord s [q0, q1, q2] (pointZip f32Add s.decBase ⟨qToFloat q0, qToFloat q1, qToFloat q2⟩) := by
  have htag : tagByte q0 s.countByte =
      State.complete { s.countByte with decBuf := s.decBuf.set 0 q0, decK := 1, decPhase := .qrec }
        (byteResult .none) := by
    simp [tagByte, hnan]
  simpa [bufQuarters, fillBuf_getElem] using bodyPhase_qrec.readsRecord_of_tag hp htag [q1, q2] nofun rfl

/-- The escape byte `0x63` and three Half fields are a Half record (R185, R187). -/
theorem readsRecord_half (hp : s.decPhase = .tag) (h0 h1 h2 : Half) :
    ReadsRecord s (escHalf :: (le16 h0 ++ le16 h1 ++ le16 h2))
      (pointZip f32Add s.decBase ⟨hToFloat h0, hToFloat h1, hToFloat h2⟩) := by
  have hesc : qDecodeNaN escHalf = some 2 := by decide
  have htag : tagByte escHalf s.countByte =
      State.complete { s.countByte with decK := 0, decPhase := .hrec } (byteResult .none) := by
    simp [tagByte, hesc]
  simpa [bufHalves, fillBuf_getElem, le16, rd16_le16] using
    bodyPhase_hrec.readsRecord_of_tag hp htag (le16 h0 ++ le16 h1 ++ le16 h2) nofun rfl

/-- The escape byte `0x62` and the twelve bytes of a point are an absolute record (R185, R188). -/
theorem readsRecord_absolute (hp : s.decPhase = .tag) (P : Point) : ReadsRecord s (absoluteRecord P) P := by
  have hesc : qDecodeNaN escAbs = some 1 := by decide
  have htag : tagByte escAbs s.countByte =
      State.complete { s.countByte with decK := 0, decPhase := .arec } (byteResult .none) := by
    simp [tagByte, hesc]
  simpa [bufPoint, fillBuf_getElem, absoluteRecord, lePoint, le32, rd32_le32] using
    bodyPhase_arec.readsRecord_of_tag hp htag (lePoint P) nofun rfl

end

/-! ### The encoder's record against the decoder -/

/-- `FromFloat` answers a NaN for a NaN only (R107). -/
theorem narrowIsNaN_fromFloat {F : Format} (hF : RoundsF32 F) {a : Word} (h : f32IsNaN a = false) :
    narrowIsNaN F (fromFloat F .truncateAfterRound a) = false := by
  obtain ⟨-, hbits⟩ := fromFloat_sign_bits hF a
  obtain ⟨-, hinf, hzero, hfin⟩ := fromFloatBits_classes hF (f32Bits a)
  have hnan : f32Bits a ≤ 255 * 2 ^ 23 := by
    refine Nat.not_lt.1 fun hnan => ?_
    obtain ⟨hexp, hfrac⟩ := (f32_nan_iff a).2 hnan
    simp [f32IsNaN_eq_true hexp hfrac] at h
  have hle : fromFloatBits F (f32Bits a) ≤ allOnes F * 2 ^ F.M := by
    obtain hover | hlow := le_or_gt (overflowsFrom F) (f32Bits a)
    · exact (hinf hover hnan).le
    · obtain hpos | hnonpos := le_or_gt (nonzeroFrom F) (f32Bits a)
      · exact (hfin hpos hlow).2.le
      · exact (hzero hnonpos).le.trans (Nat.zero_le _)
  refine Bool.eq_false_iff.2 fun hisNan => ?_
  obtain ⟨hexp, hmant⟩ := (narrowIsNaN_iff F _).1 hisNan
  rw [← hbits, narrowBits_eq_fields, hexp, Nat.mul_comm] at hle
  omega

/-- The Quarter byte of a delta that is not a NaN is no escape (R78, R167). -/
theorem qDecodeNaN_qFromFloat {a : Word} (h : f32IsNaN a = false) : qDecodeNaN (qFromFloat a) = none := by
  have hnan : narrowIsNaN Config.quarter (qFromFloat a).toNat = false := by
    rw [qFromFloat_toNat]
    exact narrowIsNaN_fromFloat quarter_roundsF32 h
  rw [qDecodeNaN, decodeNaN, hnan]
  rfl

/-- A decoder at a record boundary with the encoder's baseline reads the record of a point, unless that is empty, and
has the encoder's new baseline (R161). -/
theorem readsRecord_encodeRecord {s : State} (hp : s.decPhase = .tag) (P : Point)
    (hnan : f32IsNaN (pointDelta s.decBase P).x = false) :
    ((encodeRecord s.decBase P).bytes = [] ∧ (encodeRecord s.decBase P).base = s.decBase) ∨
    ((encodeRecord s.decBase P).bytes ≠ [] ∧
      ReadsRecord s (encodeRecord s.decBase P).bytes (encodeRecord s.decBase P).base) := by
  obtain ⟨-, h⟩ | ⟨-, -, h⟩ | ⟨-, -, -, h⟩ | ⟨-, -, -, h⟩ := encodeRecord_cases s.decBase P <;> rw [h]
  · exact .inl ⟨rfl, rfl⟩
  · exact .inr ⟨nofun, readsRecord_quarter hp _ _ (qDecodeNaN_qFromFloat hnan)⟩
  · exact .inr ⟨nofun, readsRecord_half hp _ _ _⟩
  · exact .inr ⟨nofun, readsRecord_absolute hp P⟩

/-- Settles O44: the decoder reads the record that the point appended. -/
theorem baselinesStayEqual : Obligations.BaselinesStayEqual := by
  intro s x y z hrun htag hbase hnan
  rw [← hbase] at hnan
  have hread := readsRecord_encodeRecord (s := emitPoint ⟨x, y, z⟩ false s) htag ⟨x, y, z⟩ hnan
  have hdecBase : (emitPoint ⟨x, y, z⟩ false s).decBase = s.encBase := hbase
  rw [hdecBase, ← emitPoint_encBase _ false s] at hread
  have hobs : (emitPoint ⟨x, y, z⟩ false s).obs = s.obs ++ (encodeRecord s.encBase ⟨x, y, z⟩).bytes :=
    emitPoint_obs _ false s
  obtain ⟨hnil, hsame⟩ | ⟨hne, u, hruns, hphase, hdec, hops, hfail, -, henc, -⟩ := hread
  · rw [hnil] at hobs
    exact ⟨_, _, [], exec_encPoint_of_run hrun x y z, hobs, rfl, htag, hdecBase.trans hsame.symm, rfl, rfl,
      (List.append_nil _).symm⟩
  · refine ⟨_, u, _, exec_encPoint_of_run hrun x y z, hobs, hruns, hphase, hdec, henc, hfail, ?_⟩
    rw [if_neg hne]
    exact hops

end Sys2Proof.Machine
end

section
/-! SUPPORT. The commands of the decoder session by its phase, and what each leaves (R180 to R192). -/

namespace Sys2Proof.Machine

/-! ### What a tag byte says -/

/-- The bytes that are no NaN lie up to the infinity of either sign (R131, R184). -/
theorem qDecodeNaN_eq_none_iff (b : Byte) : qDecodeNaN b = none ↔ b.toNat % 0x80 ≤ 0x60 := by
  obtain hle | hgt := le_or_gt (b.toNat % 0x80) 0x60
  · refine iff_of_true (Option.not_isSome_iff_eq_none.1 fun hsome => ?_) hle
    rw [qDecodeNaN, decodeNaN_isSome, narrowIsNaN_iff] at hsome
    have hbits : b.toNat % 0x80 = narrowMant Config.quarter b.toNat + 2 ^ 5 * narrowExp Config.quarter b.toNat :=
      narrowBits_eq_fields Config.quarter b.toNat
    have hall : allOnes Config.quarter = 3 := rfl
    omega
  · rw [qDecodeNaN_above_inf hgt]
    exact iff_of_false nofun hgt.not_ge

/-- A NaN code comes from the one byte that encodes it (R137). -/
theorem qDecodeNaN_eq_some_iff {b c : Byte} {code : Nat} (henc : qEncodeNaN code = some c)
    (hdec : qDecodeNaN c = some code) : qDecodeNaN b = some code ↔ b = c := by
  refine ⟨fun h => ?_, fun h => h ▸ hdec⟩
  have hnan : qIsNaN b = true := by
    rw [qIsNaN, ← decodeNaN_isSome]
    exact Option.isSome_iff_exists.2 ⟨code, h⟩
  obtain ⟨-, -, hround, -⟩ := nanChannelRoundTrip
  obtain ⟨code', hcode, hback⟩ := hround b hnan
  obtain rfl : code = code' := Option.some.inj (h.symm.trans hcode)
  exact Option.some.inj (hback.symm.trans henc)

theorem qDecodeNaN_eq_one_iff (b : Byte) : qDecodeNaN b = some 1 ↔ b = escAbs :=
  qDecodeNaN_eq_some_iff escape_bytes.1 (by decide)

theorem qDecodeNaN_eq_two_iff (b : Byte) : qDecodeNaN b = some 2 ↔ b = escHalf :=
  qDecodeNaN_eq_some_iff escape_bytes.2 (by decide)

/-! ### The commands by phase -/

/-- A raise answers its status word with result 0 (R232). -/
theorem State.raise_answers (s : State) (e : Err) : Answers s (s.raise e) (errStatus e) 0#32 := (s.raise_only e).1

/-- The answer of a corrupt stream, by the recorded failure (R231, R236). -/
theorem State.raise_corrupt_answers (s : State) (f : DecFail) :
    Answers s (s.raise (.corrupt f))
      (match f with | .none => 0x03#32 | .badEscape => 0x13#32 | .truncated => 0x23#32) 0#32 := by
  cases f <;> exact s.raise_answers _

theorem bodyPhase_base : BodyPhase .base 12 .base (fun _ buf => bufPoint buf) :=
  fun b s hp => by simp only [exec, execDecByte, hp]

theorem exec_decByte_of_tag {s : State} (hp : s.decPhase = .tag) (b : Byte) :
    exec (.decByte b) s = .next (tagByte b s.countByte) := by
  simp only [exec, execDecByte, hp]

theorem exec_decByte_of_failed {s : State} (hp : s.decPhase = .failed) (b : Byte) :
    exec (.decByte b) s = .next (s.countByte.raise (.corrupt s.decFail)) := by
  simp only [exec, execDecByte, hp]

/-- The bytes so far end a record, or there were none (R192). -/
def State.AtBoundary (s : State) : Prop := s.decPhase = .tag ∨ (s.decPhase = .base ∧ s.decK = 0)

/-- The bytes so far end inside a header or a record (R192). -/
def State.InsideRecord (s : State) : Prop :=
  s.decPhase ∈ [DecPhase.qrec, DecPhase.hrec, DecPhase.arec] ∨ (s.decPhase = .base ∧ s.decK ≠ 0)

theorem State.AtBoundary.not_insideRecord {s : State} (h : s.AtBoundary) : ¬s.InsideRecord := by
  obtain hp | ⟨hp, hk⟩ := h <;> simp [InsideRecord, *]

theorem State.AtBoundary.not_failed {s : State} (h : s.AtBoundary) : s.decPhase ≠ .failed := by
  obtain hp | ⟨hp, -⟩ := h <;> simp [hp]

theorem State.InsideRecord.not_failed {s : State} (h : s.InsideRecord) : s.decPhase ≠ .failed := by
  intro hp
  simp [InsideRecord, hp] at h

/-- The state `DEC_END` answers from: the session closed, with the failure `f` recorded (R190). -/
def State.closed (s : State) (f : DecFail) : State := { s with decPhase := .idle, decK := 0, decFail := f }

/-- Everything `DEC_END` can do in an open session: answer the point count, raise a truncation, or raise the recorded
failure (R190). -/
theorem exec_decEnd_cases {s : State} (hopen : s.decPhase ≠ .idle) :
    (s.AtBoundary ∧ exec .decEnd s = .next ((s.closed s.decFail).complete s.decNPts)) ∨
    (s.InsideRecord ∧ exec .decEnd s = .next ((s.closed .truncated).raise (.corrupt .truncated))) ∨
    (s.decPhase = .failed ∧ exec .decEnd s = .next ((s.closed s.decFail).raise (.corrupt s.decFail))) := by
  simp only [State.AtBoundary, State.InsideRecord, exec, execDecEnd, State.closed]
  cases hp : s.decPhase with
  | idle => exact absurd hp hopen
  | tag => exact .inl ⟨.inl rfl, rfl⟩
  | base =>
    by_cases hk : s.decK = 0
    · exact .inl ⟨.inr ⟨rfl, hk⟩, by simp only [hk, if_true]⟩
    · exact .inr (.inl ⟨.inr ⟨rfl, hk⟩, by simp only [hk, if_false]⟩)
  | qrec | hrec | arec => exact .inr (.inl ⟨.inl (by decide), rfl⟩)
  | failed => exact .inr (.inr ⟨rfl, rfl⟩)

/-! ### The bytes of a record body -/

section
variable {p : DecPhase} {need : Nat} {kind : RecKind} {base : Point → Vector Byte 12 → Point} {s : State}

/-- The buffer after a byte is collected (R181). -/
theorem collected_getElem (buf : Vector Byte 12) (n : Nat) (b : Byte) (k : Fin 12) :
    (buf.setIfInBounds n b)[k] = if k.val = n then b else buf[k] := by
  simp only [Fin.getElem_fin, Vector.getElem_setIfInBounds, eq_comm]

/-- A byte of a body that is not the last is only collected (R181, R182). -/
theorem BodyPhase.collects (hbody : BodyPhase p need kind base) (hp : s.decPhase = p) (hk : s.decK + 1 ≠ need)
    (b : Byte) : exec (.decByte b) s = .next ((s.countByte.collect b).complete (byteResult .none)) := by
  obtain ⟨hlast, -⟩ | ⟨-, hb⟩ := bodyByte_cases need kind base b s.countByte
  · exact absurd hlast hk
  · rw [hbody b s hp, hb]

/-- The last byte of a body finishes the record (R181, R183, R186 to R188). -/
theorem BodyPhase.completes (hbody : BodyPhase p need kind base) (hp : s.decPhase = p) (hk : s.decK + 1 = need)
    (b : Byte) :
    exec (.decByte b) s =
      .next (finishRecord kind (base s.decBase (s.decBuf.setIfInBounds s.decK b)) (s.countByte.collect b)) := by
  obtain ⟨-, hb⟩ | ⟨hmore, -⟩ := bodyByte_cases need kind base b s.countByte
  · exact (hbody b s hp).trans (congrArg _ hb)
  · exact absurd hk hmore

end

/-- The four bodies: each phase's byte is a body byte of its length. -/
theorem bodyPhase_of_mem {p : DecPhase} {need : Nat}
    (h : (p, need) ∈ [(DecPhase.base, 12), (DecPhase.qrec, 3), (DecPhase.hrec, 6), (DecPhase.arec, 12)]) :
    ∃ kind base, BodyPhase p need kind base := by
  simp only [List.mem_cons, List.not_mem_nil, or_false, Prod.mk.injEq] at h
  obtain ⟨rfl, rfl⟩ | ⟨rfl, rfl⟩ | ⟨rfl, rfl⟩ | ⟨rfl, rfl⟩ := h
  · exact ⟨_, _, bodyPhase_base⟩
  · exact ⟨_, _, bodyPhase_qrec⟩
  · exact ⟨_, _, bodyPhase_hrec⟩
  · exact ⟨_, _, bodyPhase_arec⟩

/-! ### The statements -/

/-- Settles O37: `DEC_START` reads nothing of the phase it is given. -/
theorem decStartOpensSession : Obligations.DecStartOpensSession := fun s =>
  ⟨_, rfl, State.complete_answers _ _, SameEncoder.refl s, SamePort.refl s, rfl, rfl,
    fun k => Vector.getElem_replicate k.isLt, rfl, rfl, rfl, rfl, rfl⟩

/-- Settles O38: the four clauses are the four answers of `DecodeNaN` that a tag byte tells apart. -/
theorem decByteTag : Obligations.DecByteTag := by
  intro s b hp
  have hkeep (k : Fin 12) (hk : k.val ≠ 0) : (s.decBuf.set 0 b)[k] = s.decBuf[k] :=
    Vector.getElem_set_ne _ k.isLt (Ne.symm hk)
  have hfirst : (s.decBuf.set 0 b)[0] = b := Vector.getElem_set_self _
  have hnone := qDecodeNaN_eq_none_iff b
  have hone : qDecodeNaN b = some 1 ↔ b = 0x62#8 := qDecodeNaN_eq_one_iff b
  have htwo : qDecodeNaN b = some 2 ↔ b = 0x63#8 := qDecodeNaN_eq_two_iff b
  have hnan : 0x61 ≤ b.toNat % 0x80 ↔ qDecodeNaN b ≠ none := by
    rw [Ne, hnone]
    omega
  simp only [Ne, ← hnone, ← hone, ← htwo, hnan]
  rw [exec_decByte_of_tag hp b]
  refine ⟨_, rfl, tagByte_sameEncoder b s.countByte, ?_⟩
  obtain ⟨hb, htag⟩ | ⟨hb, htag⟩ | ⟨hb, htag⟩ | ⟨c, hb, hc1, hc2, htag⟩ := tagByte_cases b s.countByte <;> rw [htag, hb]
  · exact ⟨SamePort.refl s, rfl, rfl, rfl, rfl, hkeep,
      fun _ => ⟨State.complete_answers _ _, rfl, rfl, hfirst, rfl⟩, nofun, nofun, fun h => absurd rfl h⟩
  · exact ⟨SamePort.refl s, rfl, rfl, rfl, rfl, fun _ _ => rfl, nofun,
      fun _ => ⟨State.complete_answers _ _, rfl, rfl, rfl, rfl⟩, nofun, fun _ h => absurd rfl h⟩
  · exact ⟨SamePort.refl s, rfl, rfl, rfl, rfl, fun _ _ => rfl, nofun, nofun,
      fun _ => ⟨State.complete_answers _ _, rfl, rfl, rfl, rfl⟩, fun _ _ h => absurd rfl h⟩
  · exact ⟨SamePort.refl s, rfl, rfl, rfl, rfl, fun _ _ => rfl, nofun,
      fun h => absurd (Option.some.inj h) hc1, fun h => absurd (Option.some.inj h) hc2,
      fun _ _ _ => ⟨State.raise_answers _ _, rfl, rfl, rfl, rfl⟩⟩

/-- Settles O39: the byte is not the last of its body. -/
theorem decByteCollects : Obligations.DecByteCollects := by
  intro s b need hmem hk
  obtain ⟨kind, base, hbody⟩ := bodyPhase_of_mem hmem
  exact ⟨_, hbody.collects rfl hk.ne b, State.complete_answers _ _, SameEncoder.refl s, SamePort.refl s, rfl, rfl, rfl,
    rfl, rfl, rfl, rfl, collected_getElem s.decBuf s.decK b⟩

/-- Settles O40: the new baseline of each body, read from the buffer with the last byte in it. -/
theorem decByteCompletesRecord : Obligations.DecByteCompletesRecord := by
  intro s b f w h done
  have hdone {p : DecPhase} {need : Nat} {kind : RecKind} {base : Point → Vector Byte 12 → Point}
      (hbody : BodyPhase p need kind base) (hp : s.decPhase = p) (hk : s.decK + 1 = need) :
      done (byteResult kind) (base s.decBase (s.decBuf.setIfInBounds s.decK b)) :=
    ⟨_, hbody.completes hp hk b, State.complete_answers _ _, SameEncoder.refl s, SamePort.refl s,
      rfl, rfl, rfl, rfl, rfl, rfl, rfl, collected_getElem s.decBuf s.decK b⟩
  have hresults : byteResult .base = 0x03#32 ∧ byteResult .quarter = 0x05#32 ∧ byteResult .half = 0x07#32 ∧
      byteResult .absolute = 0x09#32 := by decide
  obtain ⟨hbase, hquarter, hhalf, habsolute⟩ := hresults
  refine ⟨fun hp hk => ?_, fun hp hk => ?_, fun hp hk => ?_, fun hp hk => ?_⟩
  · simpa [bufPoint, rd32, hk, hbase, w, f] using hdone bodyPhase_base hp (congrArg (· + 1) hk)
  · simpa [bufQuarters, pointZip, hk, hquarter, f] using hdone bodyPhase_qrec hp (congrArg (· + 1) hk)
  · simpa [bufHalves, pointZip, rd16, hk, hhalf, h, f] using hdone bodyPhase_hrec hp (congrArg (· + 1) hk)
  · simpa [bufPoint, rd32, hk, habsolute, w, f] using hdone bodyPhase_arec hp (congrArg (· + 1) hk)

/-- Settles O41: phase `FAILED` counts the byte and raises what `DEC_FAIL` holds. -/
theorem decByteAfterFailure : Obligations.DecByteAfterFailure := fun s b hp =>
  ⟨_, exec_decByte_of_failed hp b, State.raise_corrupt_answers _ _, SameEncoder.refl s,
    SamePort.refl s, rfl, SameDecoder.refl _⟩

/-- Settles O42: the three clauses are the three things `DEC_END` can do. -/
theorem decEndOutcomes : Obligations.DecEndOutcomes := by
  intro s hopen
  obtain ⟨hp, hexec⟩ | ⟨hp, hexec⟩ | ⟨hp, hexec⟩ := exec_decEnd_cases hopen
  · exact ⟨_, hexec, SameEncoder.refl s, SamePort.refl s, rfl, rfl, rfl, rfl, rfl, rfl, rfl,
      fun _ => ⟨State.complete_answers _ _, rfl⟩, fun h => absurd h hp.not_insideRecord,
      fun h => absurd h hp.not_failed⟩
  · exact ⟨_, hexec, SameEncoder.refl s, SamePort.refl s, rfl, rfl, rfl, rfl, rfl, rfl, rfl,
      fun h => absurd hp (State.AtBoundary.not_insideRecord h), fun _ => ⟨State.raise_answers _ _, rfl⟩,
      fun h => absurd h hp.not_failed⟩
  · exact ⟨_, hexec, SameEncoder.refl s, SamePort.refl s, rfl, rfl, rfl, rfl, rfl, rfl, rfl,
      fun h => absurd hp (State.AtBoundary.not_failed h), fun h => absurd hp (State.InsideRecord.not_failed h),
      fun _ => ⟨State.raise_corrupt_answers _ _, rfl⟩⟩

end Sys2Proof.Machine
end

section
/-! SUPPORT. The source's whole-buffer decoder, record by record (R81, R183 to R193). -/

namespace Sys2Proof.Machine

/-! ### Little-endian fields at the front of a stream -/

theorem le16_rd16 (b0 b1 : Byte) : le16 (rd16 b0 b1) = [b0, b1] := by
  simp only [le16, rd16, List.cons.injEq, and_true]
  refine ⟨?_, ?_⟩ <;> apply BitVec.eq_of_getLsbD_eq <;> intro i hi <;>
    simp only [BitVec.getLsbD_append, BitVec.getLsbD_extractLsb'] <;> grind

theorem le32_rd32 (b0 b1 b2 b3 : Byte) : le32 (rd32 b0 b1 b2 b3) = [b0, b1, b2, b3] := by
  simp only [le32, rd32, List.cons.injEq, and_true]
  refine ⟨?_, ?_, ?_, ?_⟩ <;> apply BitVec.eq_of_getLsbD_eq <;> intro i hi <;>
    simp only [BitVec.getLsbD_append, BitVec.getLsbD_extractLsb'] <;> grind

theorem exists_le16_append {bs : List Byte} (h : 2 ≤ bs.length) : ∃ v rest, bs = le16 v ++ rest := by
  match bs with
  | b0 :: b1 :: rest => exact ⟨rd16 b0 b1, rest, by rw [le16_rd16]; rfl⟩

theorem exists_le32_append {bs : List Byte} (h : 4 ≤ bs.length) : ∃ v rest, bs = le32 v ++ rest := by
  match bs with
  | b0 :: b1 :: b2 :: b3 :: rest => exact ⟨rd32 b0 b1 b2 b3, rest, by rw [le32_rd32]; rfl⟩

/-- Six bytes are three Half fields (R79). -/
theorem exists_halves_append {bs : List Byte} (h : 6 ≤ bs.length) :
    ∃ h0 h1 h2 rest, bs = le16 h0 ++ le16 h1 ++ le16 h2 ++ rest := by
  obtain ⟨h0, bs, rfl⟩ := exists_le16_append (le_trans (by decide) h)
  obtain ⟨h1, bs, rfl⟩ := exists_le16_append (bs := bs) (by simp [le16] at h; omega)
  obtain ⟨h2, bs, rfl⟩ := exists_le16_append (bs := bs) (by simp [le16] at h; omega)
  exact ⟨h0, h1, h2, bs, by simp only [List.append_assoc]⟩

/-- Twelve bytes are a point (R76, R80). -/
theorem exists_lePoint_append {bs : List Byte} (h : 12 ≤ bs.length) : ∃ P rest, bs = lePoint P ++ rest := by
  obtain ⟨x, bs, rfl⟩ := exists_le32_append (le_trans (by decide) h)
  obtain ⟨y, bs, rfl⟩ := exists_le32_append (bs := bs) (by simp [le32] at h; omega)
  obtain ⟨z, bs, rfl⟩ := exists_le32_append (bs := bs) (by simp [le32] at h; omega)
  exact ⟨⟨x, y, z⟩, bs, by simp only [lePoint, List.append_assoc]⟩

/-! ### The front of a stream of records -/

/-- The bytes of a whole record against the baseline `B`, and the baseline after it (R77 to R81, R186 to R188). -/
inductive IsRecord (B : Point) : List Byte → Point → Prop
  | quarter {q0 : Byte} (q1 q2 : Byte) (hnan : qDecodeNaN q0 = none) :
      IsRecord B [q0, q1, q2] (pointZip f32Add B ⟨qToFloat q0, qToFloat q1, qToFloat q2⟩)
  | half (h0 h1 h2 : Half) :
      IsRecord B (escHalf :: (le16 h0 ++ le16 h1 ++ le16 h2))
        (pointZip f32Add B ⟨hToFloat h0, hToFloat h1, hToFloat h2⟩)
  | absolute (P : Point) : IsRecord B (absoluteRecord P) P

theorem IsRecord.ne_nil {B B' : Point} {r : List Byte} (h : IsRecord B r B') : r ≠ [] := by
  cases h <;> nofun

/-- A tag byte opens a record body: its phase, how many of its bytes are there with the tag, and its length (R184,
R185). -/
inductive OpensBody (t : Byte) : DecPhase → Nat → Nat → Prop
  | quarter (hnan : qDecodeNaN t = none) : OpensBody t .qrec 1 3
  | absolute (hnan : qDecodeNaN t = some 1) : OpensBody t .arec 0 12
  | half (hnan : qDecodeNaN t = some 2) : OpensBody t .hrec 0 6

/-- A tag byte is a NaN pattern of a code that opens no record (R185). -/
def BadEscape (t : Byte) : Prop := ∃ c, qDecodeNaN t = some c ∧ c ≠ 1 ∧ c ≠ 2

theorem opensBody_or_badEscape (t : Byte) : (∃ p k need, OpensBody t p k need) ∨ BadEscape t := by
  match hnan : qDecodeNaN t with
  | none => exact .inl ⟨_, _, _, .quarter hnan⟩
  | some c =>
    obtain rfl | hc1 := eq_or_ne c 1
    · exact .inl ⟨_, _, _, .absolute hnan⟩
    · obtain rfl | hc2 := eq_or_ne c 2
      · exact .inl ⟨_, _, _, .half hnan⟩
      · exact .inr ⟨c, hnan, hc1, hc2⟩

/-- The source reads a whole record and goes on with its baseline (R186 to R188). -/
theorem IsRecord.sourceTail {B B' : Point} {r : List Byte} (h : IsRecord B r B') (rest : List Byte) :
    sourceTail (r ++ rest) B = (sourceTail rest B').map (B' :: ·) := by
  cases h with
  | quarter q1 q2 hnan => simp [Machine.sourceTail, hnan]
  | half h0 h1 h2 =>
    have hesc : qDecodeNaN escHalf = some 2 := by decide
    simp [Machine.sourceTail, hesc, le16, rd16_le16]
  | absolute =>
    have hesc : qDecodeNaN escAbs = some 1 := by decide
    simp [Machine.sourceTail, absoluteRecord, lePoint, le32, hesc, rd32_le32]

/-- Bytes that end before the body their tag opens are truncated (R192). -/
theorem sourceTail_of_short {t : Byte} {body : List Byte} {p : DecPhase} {k need : Nat} (hopen : OpensBody t p k need)
    (hshort : k + body.length < need) (B : Point) : sourceTail (t :: body) B = .error .truncated := by
  unfold sourceTail
  cases hopen with
  | quarter hnan | absolute hnan | half hnan =>
    simp only [hnan]
    split
    · simp only [List.length_cons] at hshort
      omega
    · rfl

/-- The source fails at a tag that opens no body (R185). -/
theorem BadEscape.sourceTail {t : Byte} (h : BadEscape t) (body : List Byte) (B : Point) :
    sourceTail (t :: body) B = .error .badEscape := by
  obtain ⟨c, hnan, hc1, hc2⟩ := h
  unfold Machine.sourceTail
  simp only [hnan]

/-- A tag and enough bytes for the body it opens start with a whole record. -/
theorem OpensBody.exists_record {t : Byte} {body : List Byte} {p : DecPhase} {k need : Nat}
    (hopen : OpensBody t p k need) (hlong : need ≤ k + body.length) (B : Point) :
    ∃ r B' rest, IsRecord B r B' ∧ t :: body = r ++ rest := by
  cases hopen with
  | quarter hnan =>
    match body with
    | q1 :: q2 :: rest => exact ⟨_, _, rest, .quarter q1 q2 hnan, rfl⟩
  | absolute hnan =>
    obtain ⟨P, rest, rfl⟩ := exists_lePoint_append (Nat.zero_add _ ▸ hlong)
    rw [(qDecodeNaN_eq_one_iff t).1 hnan]
    exact ⟨_, _, rest, .absolute P, rfl⟩
  | half hnan =>
    obtain ⟨h0, h1, h2, rest, rfl⟩ := exists_halves_append (Nat.zero_add _ ▸ hlong)
    rw [(qDecodeNaN_eq_two_iff t).1 hnan]
    exact ⟨_, _, rest, .half h0 h1 h2, rfl⟩

/-- The source reads the header as a point and the rest against it (R183). -/
theorem sourceDecode_lePoint_append (P : Point) (rest : List Byte) :
    sourceDecode (lePoint P ++ rest) = (sourceTail rest P).map (P :: ·) := by
  simp [sourceDecode, lePoint, le32, rd32_le32]

/-- A stream that ends before the header does is truncated (R192). -/
theorem sourceDecode_of_short {bs : List Byte} (hne : bs ≠ []) (hshort : bs.length < 12) :
    sourceDecode bs = .error .truncated := by
  unfold sourceDecode
  split
  · exact absurd rfl hne
  · simp only [List.length_cons] at hshort
    omega
  · rfl

end Sys2Proof.Machine
end

section
/-! SUPPORT. A whole decoder session against the source's whole-buffer decoder (R193). -/

namespace Sys2Proof.Machine

/-! ### What the bytes of a session append -/

/-- From `s` to `t` the decoder session appended `ps` to `OPS` and counted them, and nothing of the encoder session or
the command port changed (R53, R181, R248). -/
structure PointsAppended (s t : State) (ps : List Point) : Prop where
  ops : t.ops = s.ops ++ ps
  count : t.decNPts = satAdd s.decNPts ps.length
  encoder : SameEncoder s t
  port : SamePort s t

theorem PointsAppended.trans {s t u : State} {ps qs : List Point} (h : PointsAppended s t ps)
    (k : PointsAppended t u qs) : PointsAppended s u (ps ++ qs) where
  ops := by rw [k.ops, h.ops, List.append_assoc]
  count := by rw [k.count, h.count, satAdd_satAdd, List.length_append]
  encoder := h.encoder.trans k.encoder
  port := h.port.trans k.port

/-- Writes to other fields append nothing. -/
theorem PointsAppended.nothing {s t : State} (hops : t.ops = s.ops) (hcount : t.decNPts = s.decNPts)
    (henc : SameEncoder s t) (hport : SamePort s t) : PointsAppended s t [] :=
  ⟨by rw [hops, List.append_nil], by rw [hcount, List.length_nil, satAdd_zero], henc, hport⟩

theorem bodyByte_appended (need : Nat) (k : RecKind) (base : Point → Vector Byte 12 → Point) (b : Byte) (s : State) :
    ∃ ps, PointsAppended s (bodyByte need k base b s.countByte) ps := by
  obtain ⟨-, h⟩ | ⟨-, h⟩ := bodyByte_cases need k base b s.countByte <;> rw [h]
  · exact ⟨[_], rfl, rfl, SameEncoder.refl s, SamePort.refl s⟩
  · exact ⟨[], .nothing rfl rfl (SameEncoder.refl s) (SamePort.refl s)⟩

theorem tagByte_appended (b : Byte) (s : State) : PointsAppended s (tagByte b s.countByte) [] := by
  obtain ⟨-, h⟩ | ⟨-, h⟩ | ⟨-, h⟩ | ⟨c, -, -, -, h⟩ := tagByte_cases b s.countByte <;> rw [h] <;>
    exact .nothing rfl rfl (SameEncoder.refl s) (SamePort.refl s)

/-- In every phase a byte counts the points that it appends (R181). -/
theorem exec_decByte_appended (b : Byte) (s : State) :
    ∃ t ps, exec (.decByte b) s = .next t ∧ PointsAppended s t ps := by
  simp only [exec, execDecByte]
  split
  case h_1 | h_2 => exact ⟨_, [], rfl, .nothing rfl rfl (SameEncoder.refl s) (SamePort.refl s)⟩
  case h_4 => exact ⟨_, [], rfl, tagByte_appended b s⟩
  all_goals exact (bodyByte_appended _ _ _ b s).elim fun ps happ => ⟨_, ps, rfl, happ⟩

theorem runCommands_decBytes_appended (bs : List Byte) (s : State) :
    ∃ t ps, runCommands (bs.map .decByte) s = .next t ∧ PointsAppended s t ps := by
  induction bs generalizing s with
  | nil => exact ⟨s, [], rfl, .nothing rfl rfl (SameEncoder.refl s) (SamePort.refl s)⟩
  | cons b bs ih =>
    obtain ⟨t, ps, hexec, happ⟩ := exec_decByte_appended b s
    obtain ⟨u, qs, hruns, happ'⟩ := ih t
    exact ⟨u, ps ++ qs, (runCommands_cons _ hexec).trans hruns, happ.trans happ'⟩

/-! ### Where the bytes of a stream leave the session -/

/-- The decoder reads a whole record as the source does (R186 to R188). -/
theorem IsRecord.reads {s : State} {r : List Byte} {B' : Point} (h : IsRecord s.decBase r B') (hp : s.decPhase = .tag) :
    ReadsRecord s r B' := by
  cases h with
  | quarter q1 q2 hnan => exact readsRecord_quarter hp q1 q2 hnan
  | half h0 h1 h2 => exact readsRecord_half hp h0 h1 h2
  | absolute => exact readsRecord_absolute hp B'

/-- Too few bytes for a body are all collected (R181, R182). -/
theorem BodyPhase.runs_short {p : DecPhase} {need : Nat} {kind : RecKind} {base : Point → Vector Byte 12 → Point}
    (hbody : BodyPhase p need kind base) (bs : List Byte) {s : State} (hp : s.decPhase = p)
    (hshort : s.decK + bs.length < need) :
    ∃ t, runCommands (bs.map .decByte) s = .next t ∧ t.decPhase = p ∧ t.decK = s.decK + bs.length := by
  induction bs generalizing s with
  | nil => exact ⟨s, rfl, hp, rfl⟩
  | cons b bs ih =>
    rw [List.length_cons] at hshort
    have hexec := hbody.collects hp (by omega) b
    obtain ⟨t, hruns, hphase, hk⟩ := ih (s := (s.countByte.collect b).complete _) hp
      (show s.decK + 1 + bs.length < need by omega)
    refine ⟨t, (runCommands_cons _ hexec).trans hruns, hphase, hk.trans ?_⟩
    change s.decK + 1 + bs.length = s.decK + (bs.length + 1)
    omega

/-- Every byte of a failed session leaves it failed, with the same cause (R189). -/
theorem runCommands_decBytes_of_failed (bs : List Byte) {s : State} (hp : s.decPhase = .failed) :
    ∃ t, runCommands (bs.map .decByte) s = .next t ∧ t.decPhase = .failed ∧ t.decFail = s.decFail := by
  induction bs generalizing s with
  | nil => exact ⟨s, rfl, hp, rfl⟩
  | cons b bs ih =>
    obtain ⟨t, hruns, hphase, hfail⟩ := ih (s := s.countByte.raise (.corrupt s.decFail)) hp
    exact ⟨t, (runCommands_cons _ (exec_decByte_of_failed hp b)).trans hruns, hphase, hfail⟩

/-- In phase `TAG` a byte that opens a body goes to its phase (R184, R185). -/
theorem OpensBody.exec_decByte {s : State} {b : Byte} {p : DecPhase} {k need : Nat} (hopen : OpensBody b p k need)
    (hp : s.decPhase = .tag) : ∃ t, exec (.decByte b) s = .next t ∧ t.decPhase = p ∧ t.decK = k := by
  rw [exec_decByte_of_tag hp]
  cases hopen with
  | quarter hnan | absolute hnan | half hnan =>
    simp only [tagByte, hnan]
    exact ⟨_, rfl, rfl, rfl⟩

/-- In phase `TAG` a byte that opens no body fails the session (R185). -/
theorem BadEscape.exec_decByte {s : State} {b : Byte} (h : BadEscape b) (hp : s.decPhase = .tag) :
    ∃ t, exec (.decByte b) s = .next t ∧ t.decPhase = .failed ∧ t.decFail = .badEscape := by
  obtain ⟨c, hnan, hc1, hc2⟩ := h
  rw [exec_decByte_of_tag hp]
  simp only [tagByte, hnan]
  exact ⟨_, rfl, rfl, rfl⟩

/-- An opened body is one of the three records' (R186 to R188). -/
theorem OpensBody.bodyPhase {b : Byte} {p : DecPhase} {k need : Nat} (hopen : OpensBody b p k need) :
    p ∈ [DecPhase.qrec, DecPhase.hrec, DecPhase.arec] ∧ ∃ kind base, BodyPhase p need kind base := by
  cases hopen with
  | quarter => exact ⟨by decide, _, _, bodyPhase_qrec⟩
  | absolute => exact ⟨by decide, _, _, bodyPhase_arec⟩
  | half => exact ⟨by decide, _, _, bodyPhase_hrec⟩

/-- The twelve bytes of a point at the start of a session are its header (R183). -/
theorem readsRecord_header {s : State} (hp : s.decPhase = .base) (hk : s.decK = 0) (P : Point) :
    ReadsRecord s (lePoint P) P := by
  have hlen : s.decK + (lePoint P).length = 12 := by rw [hk, lePoint_length]
  have hread := bodyPhase_base.readsRecord (lePoint P) hp (List.ne_nil_of_length_eq_add_one (lePoint_length P)) hlen
  rw [hk] at hread
  simpa [bufPoint, fillBuf_getElem, lePoint, le32, rd32_le32] using hread

/-- How a session stands that has been given all bytes of a stream, by what the source makes of that stream. -/
def StandsAs (s t : State) : Except DecFail (List Point) → Prop
  | .ok ps => t.AtBoundary ∧ t.ops = s.ops ++ ps
  | .error .badEscape => t.decPhase = .failed ∧ t.decFail = .badEscape
  | .error .truncated => t.InsideRecord
  | .error .none => False

/-- What was read before a stream is put before what the source makes of it. -/
theorem StandsAs.cons {s u t : State} {B : Point} {r : Except DecFail (List Point)} (hops : u.ops = s.ops ++ [B])
    (h : StandsAs u t r) : StandsAs s t (r.map (B :: ·)) := by
  match r with
  | .ok ps =>
    obtain ⟨hboundary, htail⟩ := h
    exact ⟨hboundary, by rw [htail, hops, List.append_assoc, List.singleton_append]⟩
  | .error .badEscape | .error .truncated => exact h

/-- However a session stands after a stream, it is open. -/
theorem StandsAs.ne_idle {s t : State} {r : Except DecFail (List Point)} (h : StandsAs s t r) : t.decPhase ≠ .idle := by
  intro hidle
  match r with
  | .ok ps => simp [StandsAs, State.AtBoundary, hidle] at h
  | .error .badEscape => simp [StandsAs, hidle] at h
  | .error .truncated => simp [StandsAs, State.InsideRecord, hidle] at h

/-- A stream that starts with the bytes of a record or of the header stands as what follows does. -/
theorem ReadsRecord.stands {s : State} {r rest : List Byte} {B : Point} (h : ReadsRecord s r B)
    (hrest : ∀ u : State, u.decPhase = .tag → u.decBase = B →
      ∃ t, runCommands (rest.map .decByte) u = .next t ∧ StandsAs u t (sourceTail rest B)) :
    ∃ t, runCommands ((r ++ rest).map .decByte) s = .next t ∧
      StandsAs s t ((sourceTail rest B).map (B :: ·)) := by
  obtain ⟨u, hruns, hphase, hbase, hops, -, -⟩ := h
  obtain ⟨t, hruns', hstands⟩ := hrest u hphase hbase
  exact ⟨t, by rw [List.map_append, runCommands_append _ hruns, hruns'], hstands.cons hops⟩

/-- From a record boundary the decoder and the source agree on every stream (R184 to R192). -/
theorem runCommands_sourceTail (bs : List Byte) {s : State} (hp : s.decPhase = .tag) :
    ∃ t, runCommands (bs.map .decByte) s = .next t ∧ StandsAs s t (sourceTail bs s.decBase) := by
  induction hn : bs.length using Nat.strong_induction_on generalizing bs s with
  | _ n ih =>
    subst hn
    match bs with
    | [] => exact ⟨s, rfl, .inl hp, (List.append_nil _).symm⟩
    | b :: body =>
      obtain ⟨p, k, need, hopen⟩ | hbad := opensBody_or_badEscape b
      · obtain hshort | hlong := lt_or_ge (k + body.length) need
        · obtain ⟨hinside, kind, base, hbody⟩ := hopen.bodyPhase
          obtain ⟨u, hexec, hphase, hk⟩ := hopen.exec_decByte hp
          obtain ⟨t, hruns, hphase', -⟩ := hbody.runs_short body hphase (hk ▸ hshort)
          rw [sourceTail_of_short hopen hshort]
          exact ⟨t, (runCommands_cons _ hexec).trans hruns, .inl (hphase' ▸ hinside)⟩
        · obtain ⟨r, B', rest, hrec, hsplit⟩ := hopen.exists_record hlong s.decBase
          have hlt : rest.length < (b :: body).length := by
            rw [hsplit, List.length_append]
            exact Nat.lt_add_of_pos_left (List.length_pos_of_ne_nil hrec.ne_nil)
          rw [hsplit, hrec.sourceTail]
          exact (hrec.reads hp).stands fun u hphase hbase => hbase ▸ ih _ hlt rest hphase rfl
      · obtain ⟨u, hexec, hphase, hfail⟩ := hbad.exec_decByte hp
        obtain ⟨t, hruns, hphase', hfail'⟩ := runCommands_decBytes_of_failed body hphase
        rw [hbad.sourceTail]
        exact ⟨t, (runCommands_cons _ hexec).trans hruns, hphase', hfail'.trans hfail⟩

/-- From the start of a session the decoder and the source agree on every stream (R183, R191, R192). -/
theorem runCommands_sourceDecode (bs : List Byte) {s : State} (hp : s.decPhase = .base) (hk : s.decK = 0) :
    ∃ t, runCommands (bs.map .decByte) s = .next t ∧ StandsAs s t (sourceDecode bs) := by
  obtain rfl | hne := eq_or_ne bs []
  · exact ⟨s, rfl, .inr ⟨hp, hk⟩, (List.append_nil _).symm⟩
  obtain hshort | hlong := lt_or_ge bs.length 12
  · obtain ⟨t, hruns, hphase, hk'⟩ := bodyPhase_base.runs_short bs hp (by rwa [hk, Nat.zero_add])
    have hpos := List.length_pos_of_ne_nil hne
    rw [sourceDecode_of_short hne hshort]
    exact ⟨t, hruns, .inr ⟨hphase, by omega⟩⟩
  · obtain ⟨P, rest, rfl⟩ := exists_lePoint_append hlong
    rw [sourceDecode_lePoint_append]
    exact (readsRecord_header hp hk P).stands fun u hphase hbase => hbase ▸ runCommands_sourceTail rest hphase

/-- Settles O43: between `DEC_START` and `DEC_END` the bytes leave the session as the source says, and every point they
appended is counted from 0. -/
theorem decoderSessionMatchesSource : Obligations.DecoderSessionMatchesSource := by
  intro s bs
  obtain ⟨u, hstart, -, henc, hport, hbase, hk, -, -, -, hzero, -, hops⟩ := decStartOpensSession s
  obtain ⟨v, hruns, hstands⟩ := runCommands_sourceDecode bs hbase hk
  obtain ⟨v', ps, hruns', happ⟩ := runCommands_decBytes_appended bs u
  obtain rfl : v = v' := Host.Outcome.next.inj (hruns.symm.trans hruns')
  obtain ⟨t, hend, henc', hport', hidle, -, -, -, -, -, hops', hboundary, hinside, hfailed⟩ :=
    decEndOutcomes v hstands.ne_idle
  have hsession : runCommands (expandPseudo (.decode bs)) s = .next t := by
    rw [expandPseudo, List.append_assoc, List.singleton_append, runCommands_cons _ hstart,
      runCommands_append _ hruns, runCommands_cons _ hend, runCommands]
  refine ⟨t, hsession, henc.trans (happ.encoder.trans henc'), hport.trans (happ.port.trans hport'), hidle,
    fun qs hsource => ?_, fun hsource => ?_, fun hsource => ?_, fun hsource => ?_⟩ <;> rw [hsource] at hstands
  · obtain ⟨hat, hqs⟩ := hstands
    obtain rfl : ps = qs := List.append_cancel_left (happ.ops.symm.trans hqs)
    obtain ⟨⟨hstatus, hresult, -⟩, -⟩ := hboundary hat
    refine ⟨hstatus, ?_, by rw [hops', happ.ops, hops]⟩
    rw [hresult, happ.count, hzero, satAdd, BitVec.toNat_zero, Nat.zero_add]
  · obtain ⟨hphase, hcause⟩ := hstands
    obtain ⟨⟨hstatus, hresult, -⟩, -⟩ := hfailed hphase
    exact ⟨by rw [hstatus, hcause], hresult⟩
  · obtain ⟨⟨hstatus, hresult, -⟩, -⟩ := hinside hstands
    exact ⟨hstatus, hresult⟩
  · exact hstands

end Sys2Proof.Machine
end

section
/-! SUPPORT. The finite round trip: finite points keep the encoder's baselines finite, so no x delta is a NaN (R167),
and the source decoder reads back what the source encoder wrote (R195). -/

namespace Sys2Proof.Machine

/-! ### Sums and differences of finite values -/

/-- What a value rounds to is finite or an infinity (R115). -/
theorem f32IsNaN_roundToF32 (z : Nat) (v : Int) : f32IsNaN (roundToF32 z v) = false := by
  obtain hover | hfin := le_or_gt (255 * 2 ^ 23) (roundMag v.natAbs)
  · rw [roundToF32_of_overflow z hover]
    exact f32IsNaN_eq_false (.inr (f32Frac_pack _ _ _))
  · refine f32IsNaN_eq_false (.inl ?_)
    rw [Ne, f32Exp_eq_max_iff, (roundToF32_of_finite z hfin).1]
    exact hfin.not_ge

/-- The difference of finite values is no NaN (R116). -/
theorem f32IsNaN_f32Sub {a b : Word} (ha : f32Exp a ≠ 255) (hb : f32Exp b ≠ 255) : f32IsNaN (f32Sub a b) = false := by
  rw [f32Sub_eq_add (.inl ha) (.inl hb), f32Add_of_finite ha (by rwa [f32Exp_flip])]
  exact f32IsNaN_roundToF32 _ _

/-- The largest finite f32 bounds all finite ones (R11). -/
theorem f32Mag_le_of_finite {a : Word} (ha : f32Exp a ≠ 255) : f32Mag a ≤ (2 ^ 24 - 1) * 2 ^ 253 := by
  have hmax : gridMag 23 (255 * 2 ^ 23 - 1) = (2 ^ 24 - 1) * 2 ^ 253 :=
    gridMag_significand (M := 23) (q := 2 ^ 24 - 1) 253 (by decide) (by decide)
  rw [Ne, f32Exp_eq_max_iff] at ha
  rw [f32Mag_eq_gridMag, ← hmax]
  exact (gridMag_strictMono 23).monotone (by omega)

/-- A finite value plus one below half a unit in the last place of the largest f32 is finite (R115). -/
theorem f32Exp_f32Add_of_small {a b : Word} (ha : f32Exp a ≠ 255) (hb : f32Exp b ≠ 255) (hsmall : f32Mag b < 2 ^ 252) :
    f32Exp (f32Add a b) ≠ 255 := by
  obtain ⟨hover, -, -⟩ := f32AddRoundsNearestEven a b ha hb
  have hmag := f32Mag_le_of_finite ha
  have habs := Int.natAbs_add_le (f32Scaled a) (f32Scaled b)
  rw [f32Scaled_eq_signed, f32Scaled_eq_signed, natAbs_signed, natAbs_signed] at habs
  rw [Ne, hover, f32Scaled_eq_signed, f32Scaled_eq_signed]
  omega

/-! ### A delta that does not overflow its tier -/

section
variable {F : Format}

/-- A pattern that is neither an infinity nor a NaN is finite (R131). -/
theorem narrowExp_lt_of_finite {n : Nat} (hinf : narrowIsInf F n = false) (hnan : narrowIsNaN F n = false) :
    narrowExp F n < allOnes F := by
  refine (narrowExp_le F n).lt_of_ne fun hexp => ?_
  by_cases hmant : narrowMant F n = 0
  · simp [narrowIsInf, hexp, hmant] at hinf
  · simp [narrowIsNaN, hexp, hmant] at hnan

/-- The values of a narrow format stay far below the largest f32. -/
theorem narrowMag_lt (hF : WithinF32 F) {n : Nat} (hfin : narrowExp F n < allOnes F) :
    narrowMag F n < gridMag F.M (allOnes F * 2 ^ F.M) * denormStep F := by
  rw [narrowExp_lt_iff] at hfin
  rw [narrowMag_eq_gridMag hF]
  exact Nat.mul_lt_mul_of_pos_right (gridMag_strictMono F.M hfin) (Nat.two_pow_pos _)

/-- Adding the quantized form of a delta that does not overflow keeps a baseline finite (R157, R158). -/
theorem f32Exp_f32Add_quantized (hF : RoundsF32 F) (hrange : gridMag F.M (allOnes F * 2 ^ F.M) * denormStep F ≤ 2 ^ 252)
    {a d : Word} (ha : f32Exp a ≠ 255) (hnan : f32IsNaN d = false)
    (hinf : narrowIsInf F (fromFloat F .truncateAfterRound d) = false) :
    f32Exp (f32Add a (toFloat F (fromFloat F .truncateAfterRound d))) ≠ 255 := by
  have hfin := narrowExp_lt_of_finite hinf (narrowIsNaN_fromFloat hF hnan)
  obtain ⟨hexp, hscaled, -⟩ := toFloat_of_finite hF.toWithinF32 hfin
  have hmag : f32Mag (toFloat F (fromFloat F .truncateAfterRound d)) =
      narrowMag F (fromFloat F .truncateAfterRound d) := by
    simpa [f32Scaled_eq_signed, narrowScaled_eq_signed] using congrArg Int.natAbs hscaled
  exact f32Exp_f32Add_of_small ha hexp.ne (hmag ▸ (narrowMag_lt hF.toWithinF32 hfin).trans_le hrange)

end

theorem f32Exp_quarterAdvance {a d : Word} (ha : f32Exp a ≠ 255) (hnan : f32IsNaN d = false)
    (hinf : qIsInf (qFromFloat d) = false) : f32Exp (f32Add a (qToFloat (qFromFloat d))) ≠ 255 := by
  rw [qIsInf, qFromFloat_toNat] at hinf
  rw [qToFloat, qFromFloat_toNat]
  exact f32Exp_f32Add_quantized quarter_roundsF32 (by decide) ha hnan hinf

theorem f32Exp_halfAdvance {a d : Word} (ha : f32Exp a ≠ 255) (hnan : f32IsNaN d = false)
    (hinf : hIsInf (hFromFloat d) = false) : f32Exp (f32Add a (hToFloat (hFromFloat d))) ≠ 255 := by
  rw [hIsInf, hFromFloat_toNat] at hinf
  rw [hToFloat, hFromFloat_toNat]
  exact f32Exp_f32Add_quantized half_roundsF32 (by decide) ha hnan hinf

/-! ### The encoder's records of finite points -/

/-- All three coordinates are finite (R195). -/
def FinitePoint (p : Point) : Prop := f32Exp p.x ≠ 255 ∧ f32Exp p.y ≠ 255 ∧ f32Exp p.z ≠ 255

/-- The record of a finite point against a finite baseline is empty, or one the decoder reads as the new baseline; the
new baseline is finite (R153, R161). -/
theorem encodeRecord_of_finite {B P : Point} (hB : FinitePoint B) (hP : FinitePoint P) :
    FinitePoint (encodeRecord B P).base ∧
      (((encodeRecord B P).tier = .elided ∧ (encodeRecord B P).bytes = [] ∧ (encodeRecord B P).base = B) ∨
        ((encodeRecord B P).tier ≠ .elided ∧ IsRecord B (encodeRecord B P).bytes (encodeRecord B P).base)) := by
  have ⟨hBx, hBy, hBz⟩ := hB
  have ⟨hPx, hPy, hPz⟩ := hP
  have hx := f32IsNaN_f32Sub hPx hBx
  have hy := f32IsNaN_f32Sub hPy hBy
  have hz := f32IsNaN_f32Sub hPz hBz
  obtain ⟨-, h⟩ | ⟨-, hq, h⟩ | ⟨-, -, hh, h⟩ | ⟨-, -, -, h⟩ := encodeRecord_cases B P <;> rw [h]
  · exact ⟨hB, .inl ⟨rfl, rfl, rfl⟩⟩
  · simp only [quarterOverflows, Bool.or_eq_false_iff] at hq
    obtain ⟨⟨hqx, hqy⟩, hqz⟩ := hq
    exact ⟨⟨f32Exp_quarterAdvance hBx hx hqx, f32Exp_quarterAdvance hBy hy hqy, f32Exp_quarterAdvance hBz hz hqz⟩,
      .inr ⟨nofun, .quarter _ _ (qDecodeNaN_qFromFloat hx)⟩⟩
  · simp only [halfOverflows, Bool.or_eq_false_iff] at hh
    obtain ⟨⟨hhx, hhy⟩, hhz⟩ := hh
    exact ⟨⟨f32Exp_halfAdvance hBx hx hhx, f32Exp_halfAdvance hBy hy hhy, f32Exp_halfAdvance hBz hz hhz⟩,
      .inr ⟨nofun, .half _ _ _⟩⟩
  · exact ⟨hP, .inr ⟨nofun, .absolute P⟩⟩

/-- The source decoder reads the records of finite points as the baselines they left (R195). -/
theorem sourceTail_sourceRecords (ps : List Point) {B : Point} (hB : FinitePoint B) (hps : ∀ q ∈ ps, FinitePoint q) :
    sourceTail (sourceRecords B ps) B = .ok (keptBaselines B ps) := by
  induction ps generalizing B with
  | nil => rfl
  | cons P ps ih =>
    obtain ⟨hP, hrest⟩ := List.forall_mem_cons.1 hps
    obtain ⟨hbase, ⟨htier, hbytes, hsame⟩ | ⟨htier, hrec⟩⟩ := encodeRecord_of_finite hB hP
    · simp only [sourceRecords, keptBaselines, sourceRecord_eq_encodeRecord, htier, hbytes, hsame, if_true,
        List.nil_append]
      exact ih hB hrest
    · simp only [sourceRecords, keptBaselines, sourceRecord_eq_encodeRecord, htier, if_false, hrec.sourceTail,
        ih hbase hrest]
      rfl

/-- The source decoder reads what the source encoder wrote for two or more finite points (R195). -/
theorem sourceDecode_sourceEncode {p : Point} {ps : List Point} (hne : ps ≠ []) (hfin : ∀ q ∈ p :: ps, FinitePoint q) :
    sourceDecode (sourceEncode (p :: ps)) = .ok (p :: keptBaselines p ps) := by
  obtain ⟨hp, hps⟩ := List.forall_mem_cons.1 hfin
  match ps with
  | q :: qs =>
    rw [sourceEncode, sourceDecode_lePoint_append, sourceTail_sourceRecords _ hp hps]
    rfl

/-- Settles O45: each session is its source's function on the stream. -/
theorem finiteRoundTrip : Obligations.FiniteRoundTrip := by
  intro s p ps hne hfin
  obtain ⟨e, henc, hobs, -, -, -, ⟨-, -, -, -, -, -, -, hops⟩, -⟩ := encoderSessionMatchesSource s (p :: ps)
  obtain ⟨t, hdec, -, -, -, hok, -⟩ := decoderSessionMatchesSource e (sourceEncode (p :: ps))
  obtain ⟨hstatus, hresult, hops'⟩ := hok _ (sourceDecode_sourceEncode hne hfin)
  refine ⟨e, t, henc, ?_, hstatus, by rw [hops', hops], ?_⟩
  · rw [hobs, List.drop_left, hdec]
  · rw [hresult, List.length_cons, Nat.add_comm]

end Sys2Proof.Machine
end

section
/-! SUPPORT. The words of a table row at the head of the command port, before whatever is already there (R83, R84,
R212), and `RD_CSR` of a reserved number (R211). -/

namespace Sys2Proof

/-- A complete command decodes the same whatever words come after it (R84). -/
theorem decode_append_of_command {ws rest : List Word} {i : Instr} (hdec : decode ws = .command i rest)
    (vs : List Word) : decode (ws ++ vs) = .command i (rest ++ vs) := by
  rw [encodeOfDecodedCommand ws i rest hdec, List.append_assoc]
  exact decodeOfEncodedCommand i (rest ++ vs)

/-- Words cut off at their header's command length hold nothing after the command (R84). -/
theorem rest_eq_nil_of_decode_take {h : Word} {ws rest : List Word} {i : Instr}
    (hdec : decode ((h :: ws).take (commandLength h)) = .command i rest) : rest = [] := by
  obtain ⟨h', ops, hwords, hlen, -⟩ := complete_of_decode hdec
  have hpos : commandLength h ≠ 0 := by simp [commandLength]
  obtain rfl : h = h' := by simpa [List.head?_take, hpos] using congrArg List.head? hwords
  have hle : (h :: ops ++ rest).length ≤ commandLength h := hwords ▸ List.length_take_le _ _
  simp only [List.cons_append, List.length_cons, List.length_append] at hle
  exact List.length_eq_zero_iff.1 (by omega)

/-- The words of a row that decodes are its command's and no more (R84). -/
theorem decode_tableWords {nbits w : Nat} {i : Instr} (hrow : decodeTableWord nbits w = some i) :
    decode (tableWords nbits w) = .command i [] := by
  cases hdec : decode (tableWords nbits w) with
  | command j rest =>
    obtain rfl : j = i := by simpa [decodeTableWord, hdec] using hrow
    rw [rest_eq_nil_of_decode_take hdec]
  | illegal c rest => simp [decodeTableWord, hdec] at hrow
  | waiting => simp [decodeTableWord, hdec] at hrow

end Sys2Proof

namespace Sys2Proof.Machine

theorem State.withFetchWord_words (s : State) (nbits w : Nat) :
    (s.withFetchWord nbits w).words = tableWords nbits w ++ s.port := rfl

/-- Once the words placed are consumed, only what `CMDBUF` held is gone (log entry 17). -/
theorem State.withFetchWord_consume (s : State) (nbits w : Nat) :
    (s.withFetchWord nbits w).consume s.port = { s with cmdBuf := [] } := rfl

/-- `RD_CSR` of a number past the table of registers raises `BAD_CSR` (R211). -/
theorem exec_rdCsr_of_ge (s : State) (n : BitVec 16) (h : s.csrs.length ≤ n.toNat) :
    exec (.rdCsr n) s = .next (s.raise (.illegal .badCsr)) := by
  have hread : csrRead s n = none := by rw [csrRead_eq_getElem?, List.getElem?_eq_none h]
  change execRdCsr n s = _
  simp [execRdCsr, hread]

/-- Settles O10: the row's words decode to its instruction with the words of the port as the rest. -/
theorem fetchWordRunsInstruction : Obligations.FetchWordRunsInstruction := by
  intro s nbits w i hrow
  have hdec : decode (s.withFetchWord nbits w).words = .command i s.port := by
    rw [s.withFetchWord_words]
    exact decode_append_of_command (decode_tableWords hrow) s.port
  rw [step_of_command hdec, s.withFetchWord_consume]

/-- Settles O6: `words` is `CMDBUF` followed by the port, and `consume` leaves the rest on the port. -/
theorem stepRunsDecodedCommand : Obligations.StepRunsDecodedCommand := fun _ _ _ hdec => step_of_command hdec

/-- Settles O47: the reserved numbers are those past the table of registers. -/
theorem rdCsrReservedRaises : Obligations.RdCsrReservedRaises := by
  intro s n hreserved
  have hstatus : errStatus (.illegal .badCsr) = 0x44#32 := errStatus_eq _
  exact ⟨_, exec_rdCsr_of_ge s n hreserved, hstatus ▸ s.raise_only _⟩

end Sys2Proof.Machine
end

section
/-! SUPPORT. The errors of the commands: which commands raise which error and when, and what an error leaves (R230 to
R239). -/

namespace Sys2Proof.Machine

/-- Settles O49: waiting, an illegal command and a legal one each answer a next state. -/
theorem stepAlwaysAnswersNext : Obligations.StepAlwaysAnswersNext := fun s =>
  let ⟨t, _, _, hstep, _⟩ := step_appends s
  ⟨t, hstep⟩

/-! ### `E_SEQUENCE`: the session commands without a session (R237) -/

section
variable {s : State}

theorem exec_encPoint_of_idle (h : s.encPhase = .idle) (x y z : Word) :
    exec (.encPoint x y z) s = .next (s.raise (.sequence .encIdle)) := by
  simp only [exec, execEncPoint, h]

theorem exec_encEnd_of_idle (h : s.encPhase = .idle) : exec .encEnd s = .next (s.raise (.sequence .encIdle)) := by
  simp only [exec, execEncEnd, h]

theorem exec_decByte_of_idle (h : s.decPhase = .idle) (b : Byte) :
    exec (.decByte b) s = .next (s.raise (.sequence .decIdle)) := by
  simp only [exec, execDecByte, h]

theorem exec_decEnd_of_idle (h : s.decPhase = .idle) : exec .decEnd s = .next (s.raise (.sequence .decIdle)) := by
  simp only [exec, execDecEnd, h]

/-- A command that raises only answers the error's status word (R232). -/
theorem only_answers_of_raise {o : Host.Outcome State Fault Refusal} {e : Err} {st : Word} (hst : errStatus e = st)
    (h : o = .next (s.raise e)) : ∃ t, o = .next t ∧ OnlyAnswers s t st 0#32 :=
  ⟨_, h, hst ▸ s.raise_only e⟩

end

/-- Settles O26: each session command in phase `IDLE`, and the two START commands in any phase. -/
theorem sessionCommandsNeedSession : Obligations.SessionCommandsNeedSession := by
  have henc : errStatus (.sequence .encIdle) = 0x15#32 := errStatus_eq _
  have hdec : errStatus (.sequence .decIdle) = 0x25#32 := errStatus_eq _
  exact ⟨fun _ x y z h => only_answers_of_raise henc (exec_encPoint_of_idle h x y z),
    fun _ h => only_answers_of_raise henc (exec_encEnd_of_idle h),
    fun _ b h => only_answers_of_raise hdec (exec_decByte_of_idle h b),
    fun _ h => only_answers_of_raise hdec (exec_decEnd_of_idle h),
    fun _ => ⟨_, _, rfl, statusOk_eq, rfl, rfl, statusOk_eq, rfl⟩⟩

/-! ### `E_RANGE` and `E_STATE`: the NaN channel (R234, R235) -/

/-- The codes that do not fit with their offset are refused (R133, R134). -/
theorem encodeNaN_eq_none_of_le {F : Format} {code : Nat} (h : 2 ^ (F.M + 1) ≤ code + 1) : encodeNaN F code = none := by
  rw [encodeNaN_eq_none, Nat.shiftRight_eq_div_pow]
  exact (Nat.le_div_iff_mul_le (Nat.two_pow_pos _)).2 (by rwa [Nat.mul_comm, ← Nat.pow_succ])

/-- A pattern up to the infinity of its sign is no NaN (R131, R136). -/
theorem decodeNaN_eq_none_of_le {F : Format} {n : Nat} (h : narrowBits F n ≤ allOnes F * 2 ^ F.M) :
    decodeNaN F n = none := by
  refine if_neg fun hnan => ?_
  obtain ⟨hexp, hmant⟩ := (narrowIsNaN_iff F n).1 hnan
  rw [narrowBits_eq_fields, hexp, Nat.mul_comm] at h
  omega

theorem qEncodeNaN_eq_none_of_le {code : Nat} (h : 63 ≤ code) : qEncodeNaN code = none :=
  congrArg (Option.map _) (encodeNaN_eq_none_of_le (F := Config.quarter) (Nat.succ_le_succ h))

theorem hEncodeNaN_eq_none_of_le {code : Nat} (h : 4095 ≤ code) : hEncodeNaN code = none :=
  congrArg (Option.map _) (encodeNaN_eq_none_of_le (F := Config.half) (Nat.succ_le_succ h))

theorem hDecodeNaN_eq_none_of_le {h : Half} (hle : h.toNat % 0x8000 ≤ 0x7800) : hDecodeNaN h = none :=
  decodeNaN_eq_none_of_le (F := Config.half) hle

section
variable (s : State)

/-- `Q_ENC_NAN` raises `E_RANGE` from code 63 on, and ends normally below (R140, R234). -/
theorem exec_qEncNan_cases (code : BitVec 16) :
    (63 ≤ code.toNat ∧ exec (.qEncNan code) s = .next (s.raise .range)) ∨
    (code.toNat < 63 ∧ ∃ r, exec (.qEncNan code) s = .next (s.complete r)) := by
  obtain hout | hfits := le_or_gt 63 code.toNat
  · exact .inl ⟨hout, by simp only [exec, execQEncNan, qEncodeNaN_eq_none_of_le hout]⟩
  · obtain ⟨q, henc, -⟩ := qEncodeNaN_of_lt hfits
    exact .inr ⟨hfits, _, exec_qEncNan_of_some s henc⟩

/-- `H_ENC_NAN` raises `E_RANGE` from code 4095 on, and ends normally below (R141, R234). -/
theorem exec_hEncNan_cases (code : BitVec 16) :
    (4095 ≤ code.toNat ∧ exec (.hEncNan code) s = .next (s.raise .range)) ∨
    (code.toNat < 4095 ∧ ∃ r, exec (.hEncNan code) s = .next (s.complete r)) := by
  obtain hout | hfits := le_or_gt 4095 code.toNat
  · exact .inl ⟨hout, by simp only [exec, execHEncNan, hEncodeNaN_eq_none_of_le hout]⟩
  · obtain ⟨h, henc, -⟩ := hEncodeNaN_of_lt hfits
    exact .inr ⟨hfits, _, exec_hEncNan_of_some s henc⟩

/-- `Q_DEC_NAN` raises `E_STATE` up to the infinities, and ends normally beyond them (R142, R235). -/
theorem exec_qDecNan_cases (q : Byte) :
    (q.toNat % 0x80 ≤ 0x60 ∧ exec (.qDecNan q) s = .next (s.raise .state)) ∨
    (0x60 < q.toNat % 0x80 ∧ ∃ r, exec (.qDecNan q) s = .next (s.complete r)) := by
  obtain hle | hnan := le_or_gt (q.toNat % 0x80) 0x60
  · exact .inl ⟨hle, by simp only [exec, execQDecNan, (qDecodeNaN_eq_none_iff q).2 hle]⟩
  · exact .inr ⟨hnan, _, exec_qDecNan_of_some s (qDecodeNaN_above_inf hnan)⟩

/-- `H_DEC_NAN` raises `E_STATE` up to the infinities, and ends normally beyond them (R143, R235). -/
theorem exec_hDecNan_cases (h : Half) :
    (h.toNat % 0x8000 ≤ 0x7800 ∧ exec (.hDecNan h) s = .next (s.raise .state)) ∨
    (0x7800 < h.toNat % 0x8000 ∧ ∃ r, exec (.hDecNan h) s = .next (s.complete r)) := by
  obtain hle | hnan := le_or_gt (h.toNat % 0x8000) 0x7800
  · exact .inl ⟨hle, by simp only [exec, execHDecNan, hDecodeNaN_eq_none_of_le hle]⟩
  · exact .inr ⟨hnan, _, exec_hDecNan_of_some s (hDecodeNaN_above_inf hnan)⟩

end

/-- A command that raises up to a bound `n` of some number `m` and ends normally beyond it, read as its two halves: it
only answers the error, or answers `OK`. -/
theorem only_answers_or_ok {s : State} {o : Host.Outcome State Fault Refusal} {e : Err} {st : Word} {m n : Nat}
    (hst : errStatus e = st)
    (h : (m ≤ n ∧ o = .next (s.raise e)) ∨ (n < m ∧ ∃ r, o = .next (s.complete r))) :
    ∃ t, o = .next t ∧ (m ≤ n → OnlyAnswers s t st 0#32) ∧ (n < m → t.status = 0#32) := by
  obtain ⟨hle, ho⟩ | ⟨hlt, r, ho⟩ := h
  · exact ⟨_, ho, fun _ => hst ▸ s.raise_only e, fun hlt => absurd hle hlt.not_ge⟩
  · exact ⟨_, ho, fun hle => absurd hle hlt.not_ge, fun _ => statusOk_eq⟩

/-- Settles O23: each of the four commands raises on one side of its bound and ends normally on the other. -/
theorem nanChannelErrors : Obligations.NanChannelErrors := by
  have hrange : errStatus .range = 0x01#32 := errStatus_eq _
  have hstate : errStatus .state = 0x02#32 := errStatus_eq _
  exact ⟨fun code s => only_answers_or_ok hrange (exec_qEncNan_cases s code),
    fun code s => only_answers_or_ok hrange (exec_hEncNan_cases s code),
    fun q s => only_answers_or_ok hstate (exec_qDecNan_cases s q),
    fun h s => only_answers_or_ok hstate (exec_hDecNan_cases s h)⟩

/-! ### What an error leaves unchanged (R232, R236) -/

/-- `CODE` of an error's status word is 3 for `E_CORRUPT` alone (R230, R231). -/
theorem errStatus_code_eq_corrupt_iff (e : Err) :
    (errStatus e).extractLsb' 0 4 = 3#4 ↔ ∃ f, e = .corrupt f := by
  rw [errStatus_eq]
  cases e with
  | range | state => exact iff_of_false (by decide) nofun
  | corrupt f => exact iff_of_true (by cases f <;> decide) ⟨f, rfl⟩
  | illegal c | sequence c => exact iff_of_false (by cases c <;> decide) nofun

/-- The two commands that can find a stream corrupt (R236). -/
def ReadsStream (i : Instr) : Prop := (∃ b, i = .decByte b) ∨ i = .decEnd

/-- The outcomes of a command `i` started in `s`: it ends normally, or raises with nothing written before, or, when it
reads the stream, raises `E_CORRUPT` with only the decoder session written before (R232, R236). -/
inductive EndsOrRaises (i : Instr) (s : State) : Host.Outcome State Fault Refusal → Prop where
  | complete (u : State) (r : Word) : EndsOrRaises i s (.next (u.complete r))
  | raise {e : Err} (he : ∀ f, e ≠ .corrupt f) : EndsOrRaises i s (.next (s.raise e))
  | corrupt {u : State} (f : DecFail) (hi : ReadsStream i) (hops : u.ops = s.ops := by exact rfl)
      (henc : SameEncoder s u := by exact ⟨rfl, rfl, rfl, rfl, rfl⟩) (hport : SamePort s u := by exact ⟨rfl, rfl⟩) :
      EndsOrRaises i s (.next (u.raise (.corrupt f)))

theorem exec_encPoint_endsOrRaises (x y z : Word) (s : State) :
    EndsOrRaises (.encPoint x y z) s (exec (.encPoint x y z) s) := by
  cases hp : s.encPhase with
  | idle => exact exec_encPoint_of_idle hp x y z ▸ .raise nofun
  | empty => exact exec_encPoint_of_empty hp x y z ▸ .complete _ _
  | held => exact exec_encPoint_of_held hp x y z ▸ .complete _ _
  | run => exact exec_encPoint_of_run hp x y z ▸ .complete _ _

theorem exec_encEnd_endsOrRaises (s : State) : EndsOrRaises .encEnd s (exec .encEnd s) := by
  by_cases hp : s.encPhase = .idle
  · exact exec_encEnd_of_idle hp ▸ .raise nofun
  · exact exec_encEnd_of_open hp ▸ .complete _ _

/-- No byte of a record body is in error (R181). -/
theorem BodyPhase.endsOrRaises {p : DecPhase} {need : Nat} {kind : RecKind} {base : Point → Vector Byte 12 → Point}
    {s : State} (hbody : BodyPhase p need kind base) (hp : s.decPhase = p) (b : Byte) :
    EndsOrRaises (.decByte b) s (exec (.decByte b) s) := by
  rw [hbody b s hp]
  obtain ⟨-, h⟩ | ⟨-, h⟩ := bodyByte_cases need kind base b s.countByte <;> rw [h] <;> exact .complete _ _

theorem exec_decByte_endsOrRaises (b : Byte) (s : State) : EndsOrRaises (.decByte b) s (exec (.decByte b) s) := by
  have hreads : ReadsStream (.decByte b) := .inl ⟨b, rfl⟩
  cases hp : s.decPhase with
  | idle => exact exec_decByte_of_idle hp b ▸ .raise nofun
  | failed => exact exec_decByte_of_failed hp b ▸ .corrupt _ hreads
  | base => exact bodyPhase_base.endsOrRaises hp b
  | qrec => exact bodyPhase_qrec.endsOrRaises hp b
  | hrec => exact bodyPhase_hrec.endsOrRaises hp b
  | arec => exact bodyPhase_arec.endsOrRaises hp b
  | tag =>
    rw [exec_decByte_of_tag hp b]
    obtain ⟨-, h⟩ | ⟨-, h⟩ | ⟨-, h⟩ | ⟨-, -, -, -, h⟩ := tagByte_cases b s.countByte <;> rw [h]
    · exact .complete _ _
    · exact .complete _ _
    · exact .complete _ _
    · exact .corrupt _ hreads

theorem exec_decEnd_endsOrRaises (s : State) : EndsOrRaises .decEnd s (exec .decEnd s) := by
  by_cases hp : s.decPhase = .idle
  · exact exec_decEnd_of_idle hp ▸ .raise nofun
  · obtain ⟨-, h⟩ | ⟨-, h⟩ | ⟨-, h⟩ := exec_decEnd_cases hp <;> rw [h]
    · exact .complete _ _
    · exact .corrupt _ (.inr rfl)
    · exact .corrupt _ (.inr rfl)

/-- Everything a command can end with, and what it has written when that is an error (R232, R236). -/
theorem exec_endsOrRaises (i : Instr) (s : State) : EndsOrRaises i s (exec i s) := by
  cases i with
  | qFromF32 _ | hFromF32 _ | qToF32 _ | hToF32 _ | qClass _ | hClass _ | encStart | decStart => exact .complete _ _
  | qEncNan _ | hEncNan _ | qDecNan _ | hDecNan _ | rdCsr _ =>
    simp only [exec, execQEncNan, execHEncNan, execQDecNan, execHDecNan, execRdCsr]
    split
    · exact .complete _ _
    · exact .raise nofun
  | encPoint x y z => exact exec_encPoint_endsOrRaises x y z s
  | encEnd => exact exec_encEnd_endsOrRaises s
  | decByte b => exact exec_decByte_endsOrRaises b s
  | decEnd => exact exec_decEnd_endsOrRaises s

/-- Settles O51: a normal end answers `OK`, and of the two ways to raise only `E_CORRUPT` follows a write. -/
theorem errorsChangeNothingElse : Obligations.ErrorsChangeNothingElse := by
  intro i s t hexec herror
  have hends : EndsOrRaises i s (.next t) := hexec ▸ exec_endsOrRaises i s
  cases hends with
  | complete u r => exact absurd statusOk_eq herror
  | @raise e he =>
    have hcode : (errStatus e).extractLsb' 0 4 ≠ 3#4 := fun h =>
      let ⟨f, hf⟩ := (errStatus_code_eq_corrupt_iff e).1 h
      he f hf
    exact ⟨rfl, rfl, SameEncoder.refl s, SamePort.refl s, fun _ => SameDecoder.refl s, fun h => absurd h hcode⟩
  | @corrupt u f hi hops henc hport =>
    have hcode : (errStatus (.corrupt f)).extractLsb' 0 4 = 3#4 := (errStatus_code_eq_corrupt_iff _).2 ⟨f, rfl⟩
    exact ⟨rfl, hops, henc, hport, fun h => absurd hcode h, fun _ => hi⟩

end Sys2Proof.Machine
end

section
/-! SUPPORT. The state after reset, asserted at any time (R260). -/

namespace Sys2Proof.Machine

/-- Reset leaves nothing of the state it interrupts but the words on the port, which are the host's. -/
theorem State.exists_port_of_reset {s t : State} (h : t ∈ [State.reset, s.assertReset]) :
    ∃ ws, t = { State.reset with port := ws } := by
  obtain rfl | rfl : t = State.reset ∨ t = s.assertReset := by simpa using h
  · exact ⟨[], rfl⟩
  · exact ⟨s.port, rfl⟩

theorem State.reset_decBuf_getElem (k : Fin 12) : State.reset.decBuf[k] = 0#8 :=
  Vector.getElem_replicate k.isLt

/-- Settles O55: the port is the only piece that reset does not set, and the statement does not name it. -/
theorem resetValues : Obligations.ResetValues := by
  intro s t ht
  obtain ⟨ws, rfl⟩ := State.exists_port_of_reset ht
  exact ⟨rfl, rfl, rfl, rfl, rfl, rfl, rfl, rfl, State.reset_decBuf_getElem, rfl, rfl, rfl, rfl, rfl, rfl, rfl, rfl⟩

/-- Settles O56: each clause of the invariant holds of the reset values, as O58 needs for the host's reset. -/
theorem resetHasInvariant : Obligations.ResetHasInvariant := State.reset_inv

end Sys2Proof.Machine
end
